-- ==== Sys2Proof/Word.lean ====
section
/-! DEFINITION. The word types of the gos2 cell-ID core: the 64-bit words of the ports and results (R10, R33),
the 32-bit command word (R70) and the 10-bit table entries and indices (R29, R31, R32). -/

namespace Sys2Proof

/-- A `u64` of R10: an operand port, a result word, a CellID, a binary64 bit pattern. -/
abbrev U64 := BitVec 64

/-- A command word CMD (R70). -/
abbrev CmdWord := BitVec 32

/-- A lookup-table entry or index, 10 bits each (R31, R32). -/
abbrev Entry := BitVec 10

/-- A 2-bit Hilbert orientation: bit 0 SWAP, bit 1 INVERT (R131). -/
abbrev Orientation := BitVec 2

/-- The names of the two lookup tables (R29). -/
inductive TableName
  | lookupPos
  | lookupIJ
deriving DecidableEq, Repr

/-- How an operation reads the tables: `TblRead(T, idx)` of R12. -/
abbrev TableReader := TableName → Entry → Entry

end Sys2Proof
end

