-- ==== Sys2Proof/Config.lean ====
section
/-! DEFINITION. The fixed parameters and derived constants of the core (R6, R7), its binary64 constants (R11, R154),
and the free values: what the spec leaves open and no proof may pin down. -/

namespace Sys2Proof.Config

/-- MAX_LEVEL (R6): the leaf level. -/
def maxLevel : Nat := 30

/-- NUM_FACES (R6). -/
def numFaces : Nat := 6

/-- MAX_SIZE (R6): grid cells per face and axis. -/
def maxSize : Int := 1073741824

/-- LOOKUP_BITS (R6): the chunk width of I and J per lookup. -/
def lookupBits : Nat := 4

/-- TABLE_ENTRIES (R6). -/
def tableEntries : Nat := 1024

/-- SENTINEL (R6): the all-ones identifier. -/
def sentinel : U64 := 0xFFFFFFFFFFFFFFFF#64

/-- NONE (R6): the all-zero identifier. -/
def noneId : U64 := 0#64

/-- WRAP_OFFSET (R7): 6 · 2^61. -/
def wrapOffset : U64 := 0xC000000000000000#64

/-- VALID_LSB_MASK (R7): the even bit positions 0, 2, …, 60. -/
def validLsbMask : U64 := 0x1555555555555555#64

/-- ORIENT_FIX_MASK (R7): the bit positions 4, 8, …, 60. -/
def orientFixMask : U64 := 0x1111111111111110#64

/-- SWAP_MASK (R7, R131). -/
def swapMask : Orientation := 1#2

/-- INVERT_MASK (R7, R131). -/
def invertMask : Orientation := 2#2

/-- THIRD (R11): the binary64 value nearest to 1/3. -/
def third : U64 := 0x3FD5555555555555#64

/-- LIMIT (R154): the binary64 value 1 + 2^-52. -/
def wrapLimit : U64 := 0x3FF0000000000001#64

/-- IMPLEMENTATION PARAMETER P_OVERLAP (R8, R296; log 3): whether a command may be accepted while the response before it is still
being delivered. The spec leaves it open, so it has no value here. -/
opaque overlap : Bool

/-- FREE VALUE (log 4): what a table entry holds that nothing has written since the `resets`-th reset step. The spec calls
it unspecified (R38) and "any value" (U16); no command reads it before READY = 1 (R294). -/
opaque unwrittenEntry : Nat → TableName → Entry → Entry

/-- FREE VALUE (log 11): the bit pattern of the NaN that an invalid binary64 operation on these operands gives. The spec
gives no NaN result (91_not_in_source.md) and no command reaches one. -/
opaque invalidResult : U64 → U64 → U64

end Sys2Proof.Config
end

