-- ==== Sys2Proof/Syntax.lean ====
section
/-! DEFINITION. The commands: one constructor per row of spec/opcode_table.json (R75). The arguments are the command-word
fields the row uses (R71, R73), as unsigned numbers; the operand ports are not part of the command word (R80). -/

namespace Sys2Proof

/-- A command of the opcode map (R75). -/
inductive Instr
  /-- TBL_POS — reads one LOOKUP_POS entry (R137). -/
  | tblPos
  /-- TBL_IJ — reads one LOOKUP_IJ entry (R138). -/
  | tblIj
  /-- FACE_UV_TO_XYZ — projects face coordinates to sphere space (R110). -/
  | faceUvToXyz (face : Nat)
  /-- XYZ_TO_FACE_UV — selects the face of a vector and its face coordinates (R111). -/
  | xyzToFaceUv
  /-- ST_TO_UV — the quadratic warp ST to UV (R112). -/
  | stToUv
  /-- UV_TO_ST — the inverse warp UV to ST (R113). -/
  | uvToSt
  /-- ST_TO_IJ — quantizes an ST value (R114). -/
  | stToIj
  /-- IJ_TO_ST_MIN — the ST value of the low edge of a grid cell (R115). -/
  | ijToStMin
  /-- FROM_FACE_IJ — the leaf at grid coordinates of a face (R151). -/
  | fromFaceIj (face : Nat)
  /-- TO_FACE_IJO — unpacks a cell to face, i, j, orientation (R153). -/
  | toFaceIjo
  /-- FROM_FACE_IJ_WRAP — the leaf at possibly out-of-face coordinates (R155). -/
  | fromFaceIjWrap (face : Nat)
  /-- FROM_FACE_IJ_SAME — the face-boundary selector (R157). -/
  | fromFaceIjSame (face : Nat) (same : Bool)
  /-- FROM_POINT — the leaf containing a sphere point (R158). -/
  | fromPoint
  /-- FROM_FACE_POS_LEVEL — construction from face, position and level (R159). -/
  | fromFacePosLevel (face : Nat) (lvl : Nat)
  /-- FROM_FACE — the level-0 cell of a face (R160). -/
  | fromFace (face : Nat)
  /-- BEGIN — the first cell at a level (R161). -/
  | beginAt (lvl : Nat)
  /-- END — one step past the last cell at a level (R162). -/
  | endAt (lvl : Nat)
  /-- FACE_OF — the face field of any u64 (R181). -/
  | faceOf
  /-- POS_OF — the position field of any u64 (R182). -/
  | posOf
  /-- LEVEL_OF — the level of a valid id (R183). -/
  | levelOf
  /-- IS_LEAF — whether bit 0 is set (R184). -/
  | isLeaf
  /-- IS_VALID — the validity predicate (R185). -/
  | isValid
  /-- PARENT — the ancestor at a level (R186). -/
  | parent (lvl : Nat)
  /-- IMM_PARENT — the parent one level up (R187). -/
  | immParent
  /-- CHILD — one child by its position (R188). -/
  | child (cpos : Nat)
  /-- CHILDREN — all four children (R189). -/
  | children
  /-- CHILD_BEGIN — the first child (R190). -/
  | childBegin
  /-- CHILD_END — one past the last child (R191). -/
  | childEnd
  /-- CHILD_BEGIN_AT — the first descendant at a level (R192). -/
  | childBeginAt (lvl : Nat)
  /-- CHILD_END_AT — one past the last descendant at a level (R193). -/
  | childEndAt (lvl : Nat)
  /-- NEXT — the successor at the same level (R194). -/
  | nextCell
  /-- ADVANCE — signed same-level steps, clamped (R195). -/
  | advance
  /-- RANGE_MIN — the minimum leaf of the subtree (R196). -/
  | rangeMin
  /-- RANGE_MAX — the maximum leaf of the subtree (R197). -/
  | rangeMax
  /-- CONTAINS — whether cell A contains cell B (R198). -/
  | contains
  /-- INTERSECTS — whether two subtrees share a leaf (R199). -/
  | intersects
  /-- CHILD_POSITION — a 2-bit child selector (R200). -/
  | childPosition (lvl : Nat)
  /-- EDGE_NBRS — the four edge neighbours (R232). -/
  | edgeNbrs
  /-- VERTEX_NBRS — the cells around a vertex (R233). -/
  | vertexNbrs (lvl : Nat)
  /-- ALL_NBRS — every touching cell at a level (R234). -/
  | allNbrs (lvl : Nat)
deriving DecidableEq, Repr

end Sys2Proof
end

