-- ==== Sys2Proof/WellFormed.lean ====
section
/-! DEFINITION. Which commands have an encoding: the numeric fields fit their bits of format F0 (R71): LVL 5 bits, FACE
3 bits, CPOS 2 bits. LVL = 31, FACE = 6 and FACE = 7 are encodable; they answer with a status (R73). -/

namespace Sys2Proof

/-- LVL fits CMD[12:8] (R71). -/
def lvlFits (lvl : Nat) : Bool := decide (lvl < 32)

/-- FACE fits CMD[15:13] (R71). -/
def faceFits (face : Nat) : Bool := decide (face < 8)

/-- CPOS fits CMD[17:16] (R71). -/
def cposFits (cpos : Nat) : Bool := decide (cpos < 4)

/-- The command has an encoding in format F0 (R71, R72). -/
def Instr.wellFormed (i : Instr) : Bool :=
  match i with
  | .tblPos => true
  | .tblIj => true
  | .faceUvToXyz face => faceFits face
  | .xyzToFaceUv => true
  | .stToUv => true
  | .uvToSt => true
  | .stToIj => true
  | .ijToStMin => true
  | .fromFaceIj face => faceFits face
  | .toFaceIjo => true
  | .fromFaceIjWrap face => faceFits face
  | .fromFaceIjSame face _ => faceFits face
  | .fromPoint => true
  | .fromFacePosLevel face lvl => faceFits face && lvlFits lvl
  | .fromFace face => faceFits face
  | .beginAt lvl => lvlFits lvl
  | .endAt lvl => lvlFits lvl
  | .faceOf => true
  | .posOf => true
  | .levelOf => true
  | .isLeaf => true
  | .isValid => true
  | .parent lvl => lvlFits lvl
  | .immParent => true
  | .child cpos => cposFits cpos
  | .children => true
  | .childBegin => true
  | .childEnd => true
  | .childBeginAt lvl => lvlFits lvl
  | .childEndAt lvl => lvlFits lvl
  | .nextCell => true
  | .advance => true
  | .rangeMin => true
  | .rangeMax => true
  | .contains => true
  | .intersects => true
  | .childPosition lvl => lvlFits lvl
  | .edgeNbrs => true
  | .vertexNbrs lvl => lvlFits lvl
  | .allNbrs lvl => lvlFits lvl

end Sys2Proof
end

