-- ==== Sys2Proof/Decode.lean ====
section
/-! DEFINITION. The decoder of the command word, total on all 32-bit words (R70 to R76), and the encoder, both from the one
opcode map (R75). A word the map does not hold is rejected by name; the core answers it with ILLEGAL_OP (R76). -/

namespace Sys2Proof

/-- The argument fields of format F0 (R71), assembled without sign extension, scaling or shift (R73). -/
structure CmdFields where
  lvl : Nat
  face : Nat
  cpos : Nat
  same : Bool
deriving DecidableEq, Repr

/-- CMD.OPC, bits 5:0 (R71). -/
def opcodeField (w : CmdWord) : BitVec 6 := w.extractLsb' 0 6

/-- CMD.LVL, CMD.FACE, CMD.CPOS and CMD.SAME (R71, R73). -/
def argFields (w : CmdWord) : CmdFields :=
  { lvl := (w.extractLsb' 8 5).toNat, face := (w.extractLsb' 13 3).toNat,
    cpos := (w.extractLsb' 16 2).toNat, same := w.getLsbD 18 }

/-- One row of the opcode map (R75): the opcode, the mask of the bits that must match it, the command it selects. -/
structure OpcodeRow where
  opcode : BitVec 6
  mask : CmdWord
  make : CmdFields → Instr

/-- The opcode map (R75), in the table's order. -/
def opcodeMap : List OpcodeRow :=
  [
    -- TBL_POS
    ⟨0x01#6, 0xFFFFFFFF#32, fun _ => .tblPos⟩,
    -- TBL_IJ
    ⟨0x02#6, 0xFFFFFFFF#32, fun _ => .tblIj⟩,
    -- FACE_UV_TO_XYZ
    ⟨0x08#6, 0xFFFF1FFF#32, fun f => .faceUvToXyz f.face⟩,
    -- XYZ_TO_FACE_UV
    ⟨0x09#6, 0xFFFFFFFF#32, fun _ => .xyzToFaceUv⟩,
    -- ST_TO_UV
    ⟨0x0A#6, 0xFFFFFFFF#32, fun _ => .stToUv⟩,
    -- UV_TO_ST
    ⟨0x0B#6, 0xFFFFFFFF#32, fun _ => .uvToSt⟩,
    -- ST_TO_IJ
    ⟨0x0C#6, 0xFFFFFFFF#32, fun _ => .stToIj⟩,
    -- IJ_TO_ST_MIN
    ⟨0x0D#6, 0xFFFFFFFF#32, fun _ => .ijToStMin⟩,
    -- FROM_FACE_IJ
    ⟨0x10#6, 0xFFFF1FFF#32, fun f => .fromFaceIj f.face⟩,
    -- TO_FACE_IJO
    ⟨0x11#6, 0xFFFFFFFF#32, fun _ => .toFaceIjo⟩,
    -- FROM_FACE_IJ_WRAP
    ⟨0x12#6, 0xFFFF1FFF#32, fun f => .fromFaceIjWrap f.face⟩,
    -- FROM_FACE_IJ_SAME
    ⟨0x13#6, 0xFFFB1FFF#32, fun f => .fromFaceIjSame f.face f.same⟩,
    -- FROM_POINT
    ⟨0x14#6, 0xFFFFFFFF#32, fun _ => .fromPoint⟩,
    -- FROM_FACE_POS_LEVEL
    ⟨0x15#6, 0xFFFF00FF#32, fun f => .fromFacePosLevel f.face f.lvl⟩,
    -- FROM_FACE
    ⟨0x16#6, 0xFFFF1FFF#32, fun f => .fromFace f.face⟩,
    -- BEGIN
    ⟨0x17#6, 0xFFFFE0FF#32, fun f => .beginAt f.lvl⟩,
    -- END
    ⟨0x18#6, 0xFFFFE0FF#32, fun f => .endAt f.lvl⟩,
    -- FACE_OF
    ⟨0x20#6, 0xFFFFFFFF#32, fun _ => .faceOf⟩,
    -- POS_OF
    ⟨0x21#6, 0xFFFFFFFF#32, fun _ => .posOf⟩,
    -- LEVEL_OF
    ⟨0x22#6, 0xFFFFFFFF#32, fun _ => .levelOf⟩,
    -- IS_LEAF
    ⟨0x23#6, 0xFFFFFFFF#32, fun _ => .isLeaf⟩,
    -- IS_VALID
    ⟨0x24#6, 0xFFFFFFFF#32, fun _ => .isValid⟩,
    -- PARENT
    ⟨0x28#6, 0xFFFFE0FF#32, fun f => .parent f.lvl⟩,
    -- IMM_PARENT
    ⟨0x29#6, 0xFFFFFFFF#32, fun _ => .immParent⟩,
    -- CHILD
    ⟨0x2A#6, 0xFFFCFFFF#32, fun f => .child f.cpos⟩,
    -- CHILDREN
    ⟨0x2B#6, 0xFFFFFFFF#32, fun _ => .children⟩,
    -- CHILD_BEGIN
    ⟨0x2C#6, 0xFFFFFFFF#32, fun _ => .childBegin⟩,
    -- CHILD_END
    ⟨0x2D#6, 0xFFFFFFFF#32, fun _ => .childEnd⟩,
    -- CHILD_BEGIN_AT
    ⟨0x2E#6, 0xFFFFE0FF#32, fun f => .childBeginAt f.lvl⟩,
    -- CHILD_END_AT
    ⟨0x2F#6, 0xFFFFE0FF#32, fun f => .childEndAt f.lvl⟩,
    -- NEXT
    ⟨0x30#6, 0xFFFFFFFF#32, fun _ => .nextCell⟩,
    -- ADVANCE
    ⟨0x31#6, 0xFFFFFFFF#32, fun _ => .advance⟩,
    -- RANGE_MIN
    ⟨0x32#6, 0xFFFFFFFF#32, fun _ => .rangeMin⟩,
    -- RANGE_MAX
    ⟨0x33#6, 0xFFFFFFFF#32, fun _ => .rangeMax⟩,
    -- CONTAINS
    ⟨0x34#6, 0xFFFFFFFF#32, fun _ => .contains⟩,
    -- INTERSECTS
    ⟨0x35#6, 0xFFFFFFFF#32, fun _ => .intersects⟩,
    -- CHILD_POSITION
    ⟨0x36#6, 0xFFFFE0FF#32, fun f => .childPosition f.lvl⟩,
    -- EDGE_NBRS
    ⟨0x38#6, 0xFFFFFFFF#32, fun _ => .edgeNbrs⟩,
    -- VERTEX_NBRS
    ⟨0x39#6, 0xFFFFE0FF#32, fun f => .vertexNbrs f.lvl⟩,
    -- ALL_NBRS
    ⟨0x3A#6, 0xFFFFE0FF#32, fun f => .allNbrs f.lvl⟩]

/-- Why a command word is illegal (R72, R76). -/
inductive IllegalWord
  /-- The opcode has no row (R76). -/
  | unassignedOpcode
  /-- A reserved field, or a field the opcode does not use, is nonzero (R72). -/
  | nonzeroReservedField
deriving DecidableEq, Repr

/-- The decoder (R74): look up row OPC, require `(CMD & mask) = match`, and select the row's command. -/
def decode (w : CmdWord) : Except IllegalWord Instr :=
  match opcodeMap.find? (fun r => r.opcode == opcodeField w) with
  | none => .error .unassignedOpcode
  | some r =>
    if w &&& r.mask = r.opcode.setWidth 32 then .ok (r.make (argFields w))
    else .error .nonzeroReservedField

/-- The opcode of a command (R75). -/
def opcodeOf (i : Instr) : BitVec 6 :=
  match i with
  | .tblPos => 0x01#6
  | .tblIj => 0x02#6
  | .faceUvToXyz _ => 0x08#6
  | .xyzToFaceUv => 0x09#6
  | .stToUv => 0x0A#6
  | .uvToSt => 0x0B#6
  | .stToIj => 0x0C#6
  | .ijToStMin => 0x0D#6
  | .fromFaceIj _ => 0x10#6
  | .toFaceIjo => 0x11#6
  | .fromFaceIjWrap _ => 0x12#6
  | .fromFaceIjSame _ _ => 0x13#6
  | .fromPoint => 0x14#6
  | .fromFacePosLevel _ _ => 0x15#6
  | .fromFace _ => 0x16#6
  | .beginAt _ => 0x17#6
  | .endAt _ => 0x18#6
  | .faceOf => 0x20#6
  | .posOf => 0x21#6
  | .levelOf => 0x22#6
  | .isLeaf => 0x23#6
  | .isValid => 0x24#6
  | .parent _ => 0x28#6
  | .immParent => 0x29#6
  | .child _ => 0x2A#6
  | .children => 0x2B#6
  | .childBegin => 0x2C#6
  | .childEnd => 0x2D#6
  | .childBeginAt _ => 0x2E#6
  | .childEndAt _ => 0x2F#6
  | .nextCell => 0x30#6
  | .advance => 0x31#6
  | .rangeMin => 0x32#6
  | .rangeMax => 0x33#6
  | .contains => 0x34#6
  | .intersects => 0x35#6
  | .childPosition _ => 0x36#6
  | .edgeNbrs => 0x38#6
  | .vertexNbrs _ => 0x39#6
  | .allNbrs _ => 0x3A#6

/-- The argument fields a command fills; the fields it does not use are 0 (R72). -/
def fieldsOf (i : Instr) : CmdFields :=
  match i with
  | .tblPos => ⟨0, 0, 0, false⟩
  | .tblIj => ⟨0, 0, 0, false⟩
  | .faceUvToXyz face => ⟨0, face, 0, false⟩
  | .xyzToFaceUv => ⟨0, 0, 0, false⟩
  | .stToUv => ⟨0, 0, 0, false⟩
  | .uvToSt => ⟨0, 0, 0, false⟩
  | .stToIj => ⟨0, 0, 0, false⟩
  | .ijToStMin => ⟨0, 0, 0, false⟩
  | .fromFaceIj face => ⟨0, face, 0, false⟩
  | .toFaceIjo => ⟨0, 0, 0, false⟩
  | .fromFaceIjWrap face => ⟨0, face, 0, false⟩
  | .fromFaceIjSame face same => ⟨0, face, 0, same⟩
  | .fromPoint => ⟨0, 0, 0, false⟩
  | .fromFacePosLevel face lvl => ⟨lvl, face, 0, false⟩
  | .fromFace face => ⟨0, face, 0, false⟩
  | .beginAt lvl => ⟨lvl, 0, 0, false⟩
  | .endAt lvl => ⟨lvl, 0, 0, false⟩
  | .faceOf => ⟨0, 0, 0, false⟩
  | .posOf => ⟨0, 0, 0, false⟩
  | .levelOf => ⟨0, 0, 0, false⟩
  | .isLeaf => ⟨0, 0, 0, false⟩
  | .isValid => ⟨0, 0, 0, false⟩
  | .parent lvl => ⟨lvl, 0, 0, false⟩
  | .immParent => ⟨0, 0, 0, false⟩
  | .child cpos => ⟨0, 0, cpos, false⟩
  | .children => ⟨0, 0, 0, false⟩
  | .childBegin => ⟨0, 0, 0, false⟩
  | .childEnd => ⟨0, 0, 0, false⟩
  | .childBeginAt lvl => ⟨lvl, 0, 0, false⟩
  | .childEndAt lvl => ⟨lvl, 0, 0, false⟩
  | .nextCell => ⟨0, 0, 0, false⟩
  | .advance => ⟨0, 0, 0, false⟩
  | .rangeMin => ⟨0, 0, 0, false⟩
  | .rangeMax => ⟨0, 0, 0, false⟩
  | .contains => ⟨0, 0, 0, false⟩
  | .intersects => ⟨0, 0, 0, false⟩
  | .childPosition lvl => ⟨lvl, 0, 0, false⟩
  | .edgeNbrs => ⟨0, 0, 0, false⟩
  | .vertexNbrs lvl => ⟨lvl, 0, 0, false⟩
  | .allNbrs lvl => ⟨lvl, 0, 0, false⟩

/-- `CMD = OPC | (LVL << 8) | (FACE << 13) | (CPOS << 16) | (SAME << 18)` (R71). -/
def assemble (opc : BitVec 6) (f : CmdFields) : CmdWord :=
  opc.setWidth 32 ||| ((BitVec.ofNat 5 f.lvl).setWidth 32 <<< 8) ||| ((BitVec.ofNat 3 f.face).setWidth 32 <<< 13) |||
    ((BitVec.ofNat 2 f.cpos).setWidth 32 <<< 16) ||| ((BitVec.ofBool f.same).setWidth 32 <<< 18)

/-- The encoder: the command word of a command (R71, R75). -/
def encode (i : Instr) : CmdWord := assemble (opcodeOf i) (fieldsOf i)

/-- What the decoder reads from an instruction whose table bits are `w`: the command word is 32 bits and arrives whole
(R53, R54); the bits above `nbits` are 0. -/
def decodeTableWord (nbits w : Nat) : Option Instr :=
  match decode (BitVec.ofNat 32 (w % 2 ^ nbits)) with
  | .ok i => some i
  | .error _ => none

end Sys2Proof
end

