-- ==== Sys2Proof/Machine/State.lean ====
section
/-! DEFINITION. The state of the core as plain data: the architectural state of R20 (two tables, READY, BUSY, the response
in flight), the levels on its input signals (R33), and two fields of the model's own (`resets`, `script`). -/

namespace Sys2Proof.Machine

/-- A lookup table: the entries written since the last reset, as (index, entry) pairs with the indices strictly rising and
below 1024 (R29, R50, R51). An index that is not listed has not been written; it reads as a free value (log 4, log 5). -/
abbrev Table := List (Nat × Entry)

/-- The statuses a response can carry (R260). Codes 6 to 15 are never produced, so they have no constructor. -/
inductive Status
  /-- The command completed. -/
  | ok
  /-- Unassigned opcode, or a nonzero reserved or unused field. -/
  | illegalOp
  /-- The FACE field is 6 or 7. -/
  | invalidFace
  /-- An id operand is not a valid CellID. -/
  | invalidCell
  /-- LVL is 31, or a level precondition fails. -/
  | invalidLevel
  /-- A numeric operand is outside the operation's domain. -/
  | invalidInput
deriving DecidableEq, Repr

/-- The loop state of an ALL_NBRS response (R234, R236): the loop's constants `f`, `i`, `j`, `size`, `ns`, `NL` and the next
value of `k`. -/
structure NbrLoop where
  face : Nat
  i : Int
  j : Int
  size : Int
  ns : Int
  level : Nat
  k : Int
deriving DecidableEq, Repr

/-- The response in flight (R36, R236): its status, whether the header beat is still to be transferred, the words produced and
not yet transferred, and, for ALL_NBRS, the position of the loop that produces further words. -/
structure InFlight where
  status : Status
  header : Bool
  words : List U64
  loop : Option NbrLoop
deriving DecidableEq, Repr

/-- What the user of the command channel does between two events of the core (R33, R294, R295; log 1). -/
inductive UserAction
  /-- Offer a command word with its three operands; the user does so when no command is being offered, and holds it. -/
  | offer (word : CmdWord) (a b c : U64)
  /-- Drive RST to a level. -/
  | setRst (level : Bool)
  /-- Drive RSP_READY to a level. -/
  | setRspReady (level : Bool)
  /-- Change nothing for one event. -/
  | wait
deriving DecidableEq, Repr

/-- The state of the core and of its input signals. -/
structure State where
  /-- LOOKUP_POS (R31). -/
  lookupPos : Table
  /-- LOOKUP_IJ (R32). -/
  lookupIJ : Table
  /-- STAT.READY (R34). -/
  ready : Bool
  /-- STAT.BUSY (R34). -/
  busy : Bool
  /-- The response in flight (R36). -/
  inflight : Option InFlight
  /-- The response to a command accepted while the response before it was still being delivered (R296); it is delivered next.
  Always none where P_OVERLAP is false (log 3). -/
  queued : Option InFlight
  /-- The level on RST (R33). -/
  rst : Bool
  /-- The level on CMD_VALID (R33). -/
  cmdValid : Bool
  /-- The word on CMD (R33). -/
  cmd : CmdWord
  /-- The word on OPA (R33). -/
  opa : U64
  /-- The word on OPB (R33). -/
  opb : U64
  /-- The word on OPC (R33). -/
  opc : U64
  /-- The level on RSP_READY (R33). -/
  rspReady : Bool
  /-- The MODEL's own: how many reset steps there have been, to which the free value of an unwritten entry is applied (log 4). -/
  resets : Nat
  /-- The MODEL's own: what the user does next, one action after each event of the core (log 1). -/
  script : List UserAction
deriving DecidableEq, Repr

/-- The reasons the core can stop with a fault: NONE. The spec gives the core no trap and no stop (R264, R265): a failed check
is a response with a status, a next state (DEDUCED, log 15). Safe: there is no constructor to raise. -/
inductive Fault
deriving DecidableEq, Repr

/-- The reasons a step can be refused. -/
inductive Refusal
  /-- Raised by an arm of `exec` whose instruction has no meaning yet. Safe: the model stops. No arm raises it. -/
  | notModelled (mnemonic : String)
deriving DecidableEq, Repr

/-- The core right after reset, RST asserted and then released (R38): READY = 0, BUSY = 0, no response in flight, the tables
unspecified (nothing listed, log 4). The input levels are the user's; their values here are a DESIGN CHOICE (log 6). -/
def State.reset : State :=
  { lookupPos := [], lookupIJ := [], ready := false, busy := false, inflight := none, queued := none,
    rst := false, cmdValid := false, cmd := 0#32, opa := 0#64, opb := 0#64, opc := 0#64, rspReady := true,
    resets := 0, script := [] }

end Sys2Proof.Machine
end

