-- ==== Sys2Proof/Machine/Ops.lean ====
section
/-! DEFINITION. The named operations over the state: table reads and writes (R12, R50, R55), starting a response, successful
or failing (R36, R262: what this core has in place of taking an exception, R265), and reset and initialisation (R290, R291). -/

namespace Sys2Proof.Machine

/-- The entry written at an index, if one has been. -/
def Table.lookup (t : Table) (idx : Nat) : Option Entry :=
  match t with
  | [] => none
  | (n, v) :: rest => if n = idx then some v else Table.lookup rest idx

/-- `TblWrite` on one table (R12): keeps the indices rising and each index once. -/
def Table.write (t : Table) (idx : Nat) (v : Entry) : Table :=
  match t with
  | [] => [(idx, v)]
  | (n, u) :: rest =>
    if idx < n then (idx, v) :: (n, u) :: rest
    else if idx = n then (n, v) :: rest
    else (n, u) :: Table.write rest idx v

/-- The table after one `TblWrite` of `f idx` at each of the 1024 indices (R291), whatever their order (R292).
Irreducible, so that no unifier writes the 1024 entries out: `Table.lookup_fill` says what it holds. -/
@[irreducible] def Table.fill (f : Entry → Entry) : Table :=
  (List.range Config.tableEntries).map (fun idx => (idx, f (BitVec.ofNat 10 idx)))

/-- The indices rise strictly from a lower bound and stay below 1024. -/
def Table.risingFrom (lo : Nat) (t : Table) : Bool :=
  match t with
  | [] => true
  | (n, _) :: rest => decide (lo ≤ n) && decide (n < Config.tableEntries) && Table.risingFrom (n + 1) rest

/-- The canonical form of a table: every listed index once, rising, in 0..1023 (R51; log 5). -/
def Table.wf (t : Table) : Bool := Table.risingFrom 0 t

/-- The canonical form of the whole table memory (R50). -/
def Memory.wf (s : State) : Bool := Table.wf s.lookupPos && Table.wf s.lookupIJ

/-- The table of a name (R29). -/
def State.table (s : State) (T : TableName) : Table :=
  match T with
  | .lookupPos => s.lookupPos
  | .lookupIJ => s.lookupIJ

/-- `TblRead(T, idx)` (R12, R55): the entry written there; where none has been written, a free value (log 4). -/
def State.tblRead (s : State) (T : TableName) (idx : Entry) : Entry :=
  match Table.lookup (s.table T) idx.toNat with
  | some v => v
  | none => Config.unwrittenEntry s.resets T idx

/-- A response with status OK and these words (R36). -/
def okWith (words : List U64) : InFlight :=
  { status := .ok, header := true, words := words, loop := none }

/-- `fail S` (R12, R262): the header beat alone, no words, nothing recorded. -/
def failWith (st : Status) : InFlight :=
  { status := st, header := true, words := [], loop := none }

/-- The core starts a response: BUSY goes to 1 and the response is in flight (R34, R36). Nothing else changes (R265). -/
def State.beginResponse (s : State) (r : InFlight) : State :=
  { s with busy := true, inflight := some r }

/-- The response in flight has been delivered (R34, R36): the one queued behind it is delivered next (R296), else BUSY goes to 0. -/
def State.endResponse (s : State) : State :=
  match s.queued with
  | some q => { s with inflight := some q, queued := none }
  | none => { s with inflight := none, busy := false }

/-- The state as a command accepted while a response is in flight is performed in it: without that response (R52, R296). -/
def State.responseAside (s : State) : State := { s with inflight := none }

/-- The response that a command has just started takes its place behind the one in flight (R52, R296). -/
def State.queueBehind (r : Option InFlight) (s : State) : State := { s with inflight := r, queued := s.inflight }

/-- How every command ends: its response starts, successful or failing (R36, R262, R264). -/
def State.respond (s : State) (r : InFlight) : Host.Outcome State Fault Refusal :=
  .next (s.beginResponse r)

/-- The rest of a step after the command itself. -/
def andThen (o : Host.Outcome State Fault Refusal) (f : State → State) : Host.Outcome State Fault Refusal :=
  match o with
  | .next s => .next (f s)
  | .fault r => .fault r
  | .refused r => .refused r

/-- RST = 1 (R290, R297): READY and BUSY are 0, a response in flight is abandoned, the tables are unspecified again. -/
def State.holdInReset (s : State) : State :=
  { s with lookupPos := [], lookupIJ := [], ready := false, busy := false, inflight := none, queued := none,
           resets := s.resets + 1 }

/-- The command on the channel has been accepted: the user stops offering it (R33, R295). -/
def State.endOffer (s : State) : State := { s with cmdValid := false }

/-- The user's next action (R33, R294, R295; log 1). An offer waits until the command before it has been accepted. -/
def State.userMove (s : State) : State :=
  match s.script with
  | [] => s
  | .offer w a b c :: rest =>
    if s.cmdValid then s
    else { s with cmdValid := true, cmd := w, opa := a, opb := b, opc := c, script := rest }
  | .setRst level :: rest => { s with rst := level, script := rest }
  | .setRspReady level :: rest => { s with rspReady := level, script := rest }
  | .wait :: rest => { s with script := rest }

end Sys2Proof.Machine
end

