-- ==== Sys2Proof/Machine/Operands.lean ====
section
/-! DEFINITION. The three readings of an operand port (R80) and the encodings of a result word (R81). -/

namespace Sys2Proof.Machine

/-- A port read as `i64`: two's complement, `sext_64` (R80). -/
def asI64 (x : U64) : Int := x.toInt

/-- A port read as `u64` (R80). -/
def asU64 (x : U64) : Nat := x.toNat

/-- A face, level, orientation or child position as a result word: zero-extended (R81). -/
def wordOfNat (n : Nat) : U64 := BitVec.ofNat 64 n

/-- A grid coordinate as a result word (R81); also `to_u64` of R10. -/
def wordOfInt (n : Int) : U64 := BitVec.ofInt 64 n

/-- A bool as a result word: 1 or 0 (R81). -/
def wordOfBool (b : Bool) : U64 := if b then 1#64 else 0#64

/-- A table entry as a result word: zero-extended (R81). -/
def wordOfEntry (e : Entry) : U64 := e.setWidth 64

/-- An orientation as a result word: zero-extended (R81). -/
def wordOfOrientation (o : Orientation) : U64 := o.setWidth 64

/-- `clamp(n, lo, hi)` (R13). -/
def clampInt (n lo hi : Int) : Int := max lo (min hi n)

/-- A grid coordinate of a face: 0..2^30 − 1 (R6). -/
def onGrid (i : Int) : Bool := decide (0 ≤ i) && decide (i < Config.maxSize)

end Sys2Proof.Machine
end

