-- ==== Sys2Proof/Machine/Flags.lean ====
section
/-! DEFINITION. The core has no flags (R23). Here stand what it has in their place: the status codes (R260), the checks that
raise them (R261 to R263), the status register STAT (R34) and the output signals (R33, R36). -/

namespace Sys2Proof.Machine

/-- The 4-bit code of a status (R260). -/
def Status.code (st : Status) : BitVec 4 :=
  match st with
  | .ok => 0#4
  | .illegalOp => 1#4
  | .invalidFace => 2#4
  | .invalidCell => 3#4
  | .invalidLevel => 4#4
  | .invalidInput => 5#4

/-- `if not c: fail st`, then go on (R262). The first check that fails decides the status (R263). -/
def require (c : Bool) (st : Status) (r : InFlight) : InFlight :=
  if c then r else failWith st

/-- `if face >= 6: fail INVALID_FACE` (R73, R260). -/
def requireFace (face : Nat) (r : InFlight) : InFlight := require (decide (face < Config.numFaces)) .invalidFace r

/-- `if LVL > 30: fail INVALID_LEVEL` (R73, R260). -/
def requireLevel (lvl : Nat) (r : InFlight) : InFlight := require (decide (lvl ≤ Config.maxLevel)) .invalidLevel r

/-- A relation between LVL and the cell's level, or a level with a parent or children, else INVALID_LEVEL (R263 step 4). -/
def requireRelation (c : Bool) (r : InFlight) : InFlight := require c .invalidLevel r

/-- A numeric operand in its domain, else INVALID_INPUT (R261, R263 step 5). -/
def requireInput (c : Bool) (r : InFlight) : InFlight := require c .invalidInput r

/-- STAT (R34): READY in bit 0, BUSY in bit 1, the rest 0. While RST = 1 both bits are 0 (R290; log 14). -/
def State.stat (s : State) : BitVec 32 :=
  (BitVec.ofBool (s.ready && !s.rst)).setWidth 32 ||| ((BitVec.ofBool (s.busy && !s.rst)).setWidth 32 <<< 1)

/-- CMD_READY (R33, R34, R294, R296, R298): 0 in reset and before READY; while a response is in flight, 1 only if P_OVERLAP is
true and no other response is queued behind it (log 3). -/
def State.cmdReady (s : State) : Bool :=
  !s.rst && s.ready && (s.inflight.isNone || (s.queued.isNone && Config.overlap))

/-- A beat of a response (R36): the header with the status code, or a data word; `last` is RSP_LAST. -/
inductive Beat
  /-- RSP_HDR = 1, RSP_STATUS = `status`. -/
  | header (status : BitVec 4) (last : Bool)
  /-- RSP_HDR = 0, RSP_DATA = `word`. -/
  | data (word : U64) (last : Bool)
deriving DecidableEq, Repr

/-- The beat a response offers next (R36): RSP_LAST on the header iff there are no words, on a data beat iff it is the final
word. The last case never arises: a response whose header has gone always holds a word. -/
def InFlight.beat (r : InFlight) : Option Beat :=
  match r.header, r.words with
  | true, ws => some (.header r.status.code (ws.isEmpty && r.loop.isNone))
  | false, w :: ws => some (.data w (ws.isEmpty && r.loop.isNone))
  | false, [] => none

/-- The beat on the response channel, if RSP_VALID = 1 (R33, R36); none in reset (R290). -/
def State.beat (s : State) : Option Beat :=
  if s.rst then none
  else match s.inflight with
    | some r => r.beat
    | none => none

/-- RSP_VALID (R33). -/
def State.rspValid (s : State) : Bool := s.beat.isSome

/-- RSP_HDR (R33), where a beat is offered. -/
def State.rspHdr (s : State) : Option Bool :=
  match s.beat with
  | some (.header _ _) => some true
  | some (.data _ _) => some false
  | none => none

/-- RSP_STATUS (R33), where it is meaningful: on the header beat. -/
def State.rspStatus (s : State) : Option (BitVec 4) :=
  match s.beat with
  | some (.header st _) => some st
  | some (.data _ _) => none
  | none => none

/-- RSP_DATA (R33), where it is meaningful: on a data beat. -/
def State.rspData (s : State) : Option U64 :=
  match s.beat with
  | some (.data w _) => some w
  | some (.header _ _) => none
  | none => none

/-- RSP_LAST (R33), where a beat is offered. -/
def State.rspLast (s : State) : Option Bool :=
  match s.beat with
  | some (.header _ l) => some l
  | some (.data _ l) => some l
  | none => none

end Sys2Proof.Machine
end

