-- ==== Sys2Proof/Machine/Cell.lean ====
section
/-! DEFINITION. The CellID value (R24 to R28) and the navigator's functions on it (R13, R186 to R200): pure arithmetic on
`u64`, modulo 2^64 (R10). -/

namespace Sys2Proof.Machine

/-- `lsb(x) = x & (-x)` (R13). -/
def lsb (x : U64) : U64 := x &&& -x

/-- `ctz(x)`, the index of the lowest set bit, for `x ≠ 0` (R13). -/
def ctz (x : U64) : Nat := Nat.log2 (lsb x).toNat

/-- `face(x) = x[63:61]` (R13). -/
def faceField (x : U64) : Nat := (x >>> 61).toNat

/-- `pos(x) = x[60:0]` (R13). -/
def posField (x : U64) : U64 := x &&& 0x1FFFFFFFFFFFFFFF#64

/-- Validity (R25): a face below 6 and the lowest set bit at one of the 31 even positions. -/
def valid (x : U64) : Bool :=
  decide (faceField x < Config.numFaces) && (lsb x &&& Config.validLsbMask) != 0#64

/-- The level of a valid id (R26). -/
def level (x : U64) : Nat := Config.maxLevel - ctz x / 2

/-- LSB_FOR_LEVEL(L) = 2^(2(30 − L)) (R7). -/
def lsbForLevel (lvl : Nat) : U64 := 1#64 <<< (2 * (Config.maxLevel - lvl))

/-- SIZE_IJ(L) = 2^(30 − L) (R7, R231). -/
def sizeIJ (lvl : Nat) : Int := 2 ^ (Config.maxLevel - lvl)

/-- `parent(x, L)` (R186). -/
def parent (x : U64) (lvl : Nat) : U64 := (x &&& -lsbForLevel lvl) ||| lsbForLevel lvl

/-- The parent one level up (R187). -/
def immediateParent (x : U64) : U64 := (x &&& -(lsb x <<< 2)) ||| (lsb x <<< 2)

/-- `child(x, p)` (R188): `x + to_u64((2p − 3) · (lsb(x) >> 2))`. -/
def child (x : U64) (p : Nat) : U64 := x + wordOfInt ((2 * (p : Int) - 3) * ((lsb x >>> 2).toNat : Int))

/-- `childBegin(x)` (R190). -/
def childBegin (x : U64) : U64 := x - lsb x + (lsb x >>> 2)

/-- `childEnd(x)` (R191). -/
def childEnd (x : U64) : U64 := x + lsb x + (lsb x >>> 2)

/-- `childBeginAt(x, L)` (R192). -/
def childBeginAt (x : U64) (lvl : Nat) : U64 := x - lsb x + lsbForLevel lvl

/-- `childEndAt(x, L)` (R193). -/
def childEndAt (x : U64) (lvl : Nat) : U64 := x + lsb x + lsbForLevel lvl

/-- `next(x)` (R194). -/
def nextCell (x : U64) : U64 := x + (lsb x <<< 1)

/-- The base-2 logarithm of the distance between same-level ids (R195). -/
def stepShift (x : U64) : Nat := 2 * (Config.maxLevel - level x) + 1

/-- The steps from `x` back to Begin(level) (R195), not positive. -/
def minSteps (x : U64) : Int := -((x >>> stepShift x).toNat : Int)

/-- The steps from `x` on to End(level) (R195). -/
def maxSteps (x : U64) : Int := (((Config.wrapOffset + lsb x - x) >>> stepShift x).toNat : Int)

/-- The step count after clamping (R195). -/
def clampedSteps (x : U64) (steps : Int) : Int :=
  if steps < 0 then max steps (minSteps x) else min steps (maxSteps x)

/-- `advance(x, steps)` (R195). -/
def advance (x : U64) (steps : Int) : U64 :=
  if steps = 0 then x else x + (wordOfInt (clampedSteps x steps) <<< stepShift x)

/-- `range_min(x)` (R196). -/
def rangeMin (x : U64) : U64 := x - (lsb x - 1#64)

/-- `range_max(x)` (R197). -/
def rangeMax (x : U64) : U64 := x + (lsb x - 1#64)

/-- Whether cell `a` contains cell `b` (R198), by unsigned comparisons. -/
def contains (a b : U64) : Bool := decide (rangeMin a ≤ b) && decide (b ≤ rangeMax a)

/-- Whether the subtrees of `a` and `b` share a leaf (R199). -/
def intersects (a b : U64) : Bool := decide (rangeMin b ≤ rangeMax a) && decide (rangeMin a ≤ rangeMax b)

/-- `childPosition(x, L)` (R200). -/
def childPosition (x : U64) (lvl : Nat) : Nat := ((x >>> (2 * (Config.maxLevel - lvl) + 1)) &&& 3#64).toNat

/-- `if not valid(x): fail INVALID_CELL` (R180, R263 step 3). -/
def requireCell (x : U64) (r : InFlight) : InFlight := require (valid x) .invalidCell r

end Sys2Proof.Machine
end

