-- ==== Sys2Proof/Machine/Hilbert.lean ====
section
/-! DEFINITION. The Hilbert base tables (R132), the generator of the lookup tables (R133), their final contents index by index,
and the chunked interleave and de-interleave that read them (R134, R135). -/

namespace Sys2Proof.Machine

/-- IJ_TO_POS (R132): the curve position of quadrant `ij` under orientation `o`. -/
def ijToPos (o : Orientation) (ij : BitVec 2) : BitVec 2 :=
  match o.toNat, ij.toNat with
  | 0, 0 => 0#2 | 0, 1 => 1#2 | 0, 2 => 3#2 | 0, _ => 2#2
  | 1, 0 => 0#2 | 1, 1 => 3#2 | 1, 2 => 1#2 | 1, _ => 2#2
  | 2, 0 => 2#2 | 2, 1 => 3#2 | 2, 2 => 1#2 | 2, _ => 0#2
  | _, 0 => 2#2 | _, 1 => 1#2 | _, 2 => 3#2 | _, _ => 0#2

/-- POS_TO_IJ (R132): the quadrant visited at curve position `p` under orientation `o`. -/
def posToIJ (o : Orientation) (p : BitVec 2) : BitVec 2 :=
  match o.toNat, p.toNat with
  | 0, 0 => 0#2 | 0, 1 => 1#2 | 0, 2 => 3#2 | 0, _ => 2#2
  | 1, 0 => 0#2 | 1, 1 => 2#2 | 1, 2 => 3#2 | 1, _ => 1#2
  | 2, 0 => 3#2 | 2, 1 => 2#2 | 2, 2 => 0#2 | 2, _ => 1#2
  | _, 0 => 3#2 | _, 1 => 1#2 | _, 2 => 0#2 | _, _ => 2#2

/-- POS_TO_ORIENTATION (R132). -/
def posToOrientation (p : BitVec 2) : Orientation :=
  match p.toNat with
  | 0 => Config.swapMask
  | 1 => 0#2
  | 2 => 0#2
  | _ => Config.swapMask ||| Config.invertMask

/-- One `TblWrite` of the init sequencer (R133): a table, an index and an entry, as integers. -/
structure TableWrite where
  table : TableName
  index : Nat
  entry : Nat
deriving DecidableEq, Repr

/-- The generator's recursion `initCell` (R133), with the levels still to go; its writes in order. -/
def initCell : Nat → Nat → Nat → Orientation → Nat → Orientation → List TableWrite
  | 0, i, j, origO, pos, o =>
    let ij := (i <<< 4) + j
    [⟨.lookupPos, (ij <<< 2) + origO.toNat, (pos <<< 2) + o.toNat⟩,
     ⟨.lookupIJ, (pos <<< 2) + origO.toNat, (ij <<< 2) + o.toNat⟩]
  | levels + 1, i, j, origO, pos, o =>
    [0#2, 1#2, 2#2, 3#2].flatMap fun p =>
      let r := posToIJ o p
      initCell levels ((i <<< 1) + (r.toNat >>> 1)) ((j <<< 1) + (r.toNat &&& 1)) origO
        ((pos <<< 2) + p.toNat) (o ^^^ posToOrientation p)

/-- Every write of the generator (R133): one recursion for each starting orientation. -/
def generatorWrites : List TableWrite :=
  [0#2, 1#2, 2#2, 3#2].flatMap fun origO => initCell 4 0 0 origO 0 origO

/-- One level down the curve from (i, j): the position so far and the orientation, by the quadrant of bit `b` (R136). -/
def descendIJ (i j : BitVec 4) (acc : BitVec 8 × Orientation) (b : Nat) : BitVec 8 × Orientation :=
  let q := BitVec.ofBool (i.getLsbD b) ++ BitVec.ofBool (j.getLsbD b)
  let p := ijToPos acc.2 q
  ((acc.1 <<< 2) ||| p.setWidth 8, acc.2 ^^^ posToOrientation p)

/-- The generator's entry of LOOKUP_POS at an index (R31, R133): four levels down from the index's I and J chunks. -/
def posEntry (idx : Entry) : Entry :=
  let r := [3, 2, 1, 0].foldl (descendIJ (idx.extractLsb' 6 4) (idx.extractLsb' 2 4)) (0#8, idx.extractLsb' 0 2)
  r.1 ++ r.2

/-- One level down the curve from a position: the I and J chunks so far and the orientation, by the position's pair `b`. -/
def descendPos (pos : BitVec 8) (acc : BitVec 4 × BitVec 4 × Orientation) (b : Nat) : BitVec 4 × BitVec 4 × Orientation :=
  let p := pos.extractLsb' (2 * b) 2
  let q := posToIJ acc.2.2 p
  ((acc.1 <<< 1) ||| (q >>> 1).setWidth 4, (acc.2.1 <<< 1) ||| (q &&& 1#2).setWidth 4, acc.2.2 ^^^ posToOrientation p)

/-- The generator's entry of LOOKUP_IJ at an index (R32, R133): four levels down from the index's position chunk. -/
def ijEntry (idx : Entry) : Entry :=
  let r := [3, 2, 1, 0].foldl (descendPos (idx.extractLsb' 2 8)) (0#4, 0#4, idx.extractLsb' 0 2)
  r.1 ++ r.2.1 ++ r.2.2

/-- The generator's entry of either table (R133). -/
def generatedEntry (T : TableName) (idx : Entry) : Entry :=
  match T with
  | .lookupPos => posEntry idx
  | .lookupIJ => ijEntry idx

/-- The init sequencer (R291 to R293), as one step (log 2): every entry of both tables is written with its generator value,
and READY goes to 1. -/
def State.initialise (s : State) : State :=
  { s with lookupPos := Table.fill (generatedEntry .lookupPos), lookupIJ := Table.fill (generatedEntry .lookupIJ),
           ready := true }

/-- The 4-bit chunk `k` of a grid coordinate: `(i >> 4k) & 0xF` (R134). -/
def chunk (i : Int) (k : Nat) : BitVec 4 := (BitVec.ofInt 32 i).extractLsb' (4 * k) 4

/-- One lookup of the interleave (R134): the position so far and the orientation, by chunk `k`. -/
def encodeChunk (rd : TableReader) (i j : Int) (acc : U64 × Orientation) (k : Nat) : U64 × Orientation :=
  let e := rd .lookupPos (chunk i k ++ chunk j k ++ acc.2)
  (acc.1 ||| ((e >>> 2).setWidth 64 <<< (8 * k)), e.extractLsb' 0 2)

/-- The orientation a face starts with: its parity (R134, R135). -/
def faceOrientation (face : Nat) : Orientation := BitVec.ofNat 2 face &&& Config.swapMask

/-- `hilbertEncode(face, i, j)` (R134): eight lookups, most significant chunk first. -/
def hilbertEncode (rd : TableReader) (face : Nat) (i j : Int) : U64 :=
  ([7, 6, 5, 4, 3, 2, 1, 0].foldl (encodeChunk rd i j) (0#64, faceOrientation face)).1

/-- The position chunk `k` of an id (R135): 8 bits, and 4 bits (60:57) for the top chunk. -/
def positionChunk (x : U64) (k : Nat) : BitVec 8 :=
  if k = 7 then (x.extractLsb' 57 4).setWidth 8 else x.extractLsb' (8 * k + 1) 8

/-- One lookup of the de-interleave (R135): i, j and the orientation so far, by chunk `k`. -/
def decodeChunk (rd : TableReader) (x : U64) (acc : Int × Int × Orientation) (k : Nat) : Int × Int × Orientation :=
  let e := rd .lookupIJ (positionChunk x k ++ acc.2.2)
  (acc.1 + ((e.extractLsb' 6 4).toNat : Int) * 2 ^ (4 * k),
   acc.2.1 + ((e.extractLsb' 2 4).toNat : Int) * 2 ^ (4 * k),
   e.extractLsb' 0 2)

/-- `hilbertDecode(x)` (R135): eight lookups, most significant chunk first. -/
def hilbertDecode (rd : TableReader) (x : U64) : Int × Int × Orientation :=
  [7, 6, 5, 4, 3, 2, 1, 0].foldl (decodeChunk rd x) (0, 0, faceOrientation (faceField x))

/-- One level of the bit-serial interleave (R136). -/
def encodeBit (i j : Int) (acc : U64 × Orientation) (b : Nat) : U64 × Orientation :=
  let q := (BitVec.ofInt 32 i).extractLsb' b 1 ++ (BitVec.ofInt 32 j).extractLsb' b 1
  let p := ijToPos acc.2 q
  ((acc.1 <<< 2) ||| p.setWidth 64, acc.2 ^^^ posToOrientation p)

/-- The bit-serial interleave (R136): one level per bit, from bit 29 down to bit 0, with no table. -/
def bitSerialEncode (face : Nat) (i j : Int) : U64 :=
  ((List.range 30).reverse.foldl (encodeBit i j) (0#64, faceOrientation face)).1

end Sys2Proof.Machine
end

