-- ==== Sys2Proof/Machine/Float64.lean ====
section
/-! DEFINITION. IEEE 754 binary64 arithmetic on 64-bit patterns (R11, R100): every operation computes the exact result on
integers and rounds once, to nearest, ties to even. No operation is fused and no status flag is kept. -/

namespace Sys2Proof.Machine.Binary64

/-- What a bit pattern stands for: NaN, an infinity, or `± mant · 2^exp` (R53: sign in bit 63). -/
inductive Value
  | nan
  | infinite (neg : Bool)
  | finite (neg : Bool) (mant : Nat) (exp : Int)
deriving DecidableEq, Repr

/-- The 11-bit exponent field. -/
def exponentField (x : U64) : Nat := (x.extractLsb' 52 11).toNat

/-- The 52-bit fraction field. -/
def fractionField (x : U64) : Nat := (x.extractLsb' 0 52).toNat

/-- The value of a bit pattern; subnormals are ordinary values (R101). -/
def unpack (x : U64) : Value :=
  if exponentField x = 2047 then
    if fractionField x = 0 then .infinite x.msb else .nan
  else if exponentField x = 0 then .finite x.msb (fractionField x) (-1074)
  else .finite x.msb (fractionField x + 2 ^ 52) ((exponentField x : Int) - 1075)

/-- NaN test (R101). -/
def isNaN (x : U64) : Bool := exponentField x == 2047 && fractionField x != 0

/-- Finiteness test (R101). -/
def isFinite (x : U64) : Bool := exponentField x != 2047

/-- Zero of either sign (R101, R111). -/
def isZero (x : U64) : Bool := exponentField x == 0 && fractionField x == 0

/-- The sign bit. -/
def signBit (neg : Bool) : U64 := if neg then 0x8000000000000000#64 else 0#64

/-- A signed zero. -/
def zero (neg : Bool) : U64 := signBit neg

/-- A signed infinity. -/
def infinity (neg : Bool) : U64 := signBit neg ||| 0x7FF0000000000000#64

/-- Negation: an exact sign flip (R100). -/
def neg (x : U64) : U64 := x ^^^ 0x8000000000000000#64

/-- `|x|`. -/
def abs (x : U64) : U64 := x &&& 0x7FFFFFFFFFFFFFFF#64

/-- `m / 2^d` rounded to the nearest integer, ties to even, for `d ≥ 1`. -/
def shiftRightNearestEven (m d : Nat) : Nat :=
  let q := m >>> d
  let r := m % 2 ^ d
  let half := 2 ^ (d - 1)
  if half < r then q + 1
  else if r = half then q + q % 2
  else q

/-- The exponent of the last place of the result of rounding `m · 2^e`: 53 significant bits, not below 2^-1074. -/
def lastPlace (m : Nat) (e : Int) : Int := max (e + (Nat.log2 m : Int) - 52) (-1074)

/-- The significand of the result of rounding `m · 2^e` at its last place (53 bits and at most one more unit). -/
def roundedSignificand (m : Nat) (e : Int) : Nat :=
  let t := lastPlace m e
  if t ≤ e then m <<< (e - t).toNat else shiftRightNearestEven m (t - e).toNat

/-- `± m · 2^e` rounded to nearest, ties to even (R11, R100), with overflow to infinity. A significand of 2^53 carries into the
exponent field by itself. -/
def round (negative : Bool) (m : Nat) (e : Int) : U64 :=
  if m = 0 then zero negative
  else
    let magnitude := ((lastPlace m e + 1074).toNat <<< 52) + roundedSignificand m e
    if 0x7FF0000000000000 ≤ magnitude then infinity negative
    else signBit negative ||| BitVec.ofNat 64 magnitude

/-- `m` or `-m`. -/
def signed (negative : Bool) (m : Nat) : Int := if negative then -(m : Int) else (m : Int)

/-- The exact sum of two finite values, in units of `2^(min e1 e2)`. -/
def exactSum (n1 : Bool) (m1 : Nat) (e1 : Int) (n2 : Bool) (m2 : Nat) (e2 : Int) : Int :=
  signed n1 (m1 <<< (e1 - min e1 e2).toNat) + signed n2 (m2 <<< (e2 - min e1 e2).toNat)

/-- Addition (R11). An exact zero sum is +0 unless both addends are negative. -/
def add (x y : U64) : U64 :=
  match unpack x, unpack y with
  | .finite n1 m1 e1, .finite n2 m2 e2 =>
    let n := exactSum n1 m1 e1 n2 m2 e2
    if n = 0 then zero (n1 && n2) else round (decide (n < 0)) n.natAbs (min e1 e2)
  | .infinite n1, .finite _ _ _ => infinity n1
  | .finite _ _ _, .infinite n2 => infinity n2
  | .infinite n1, .infinite n2 => if n1 = n2 then infinity n1 else Config.invalidResult x y
  | .nan, _ => Config.invalidResult x y
  | _, .nan => Config.invalidResult x y

/-- Subtraction (R11): addition of the negated operand. -/
def sub (x y : U64) : U64 := add x (neg y)

/-- Multiplication (R11). -/
def mul (x y : U64) : U64 :=
  match unpack x, unpack y with
  | .finite n1 m1 e1, .finite n2 m2 e2 => round (n1 ^^ n2) (m1 * m2) (e1 + e2)
  | .infinite n1, .finite n2 m2 _ => if m2 = 0 then Config.invalidResult x y else infinity (n1 ^^ n2)
  | .finite n1 m1 _, .infinite n2 => if m1 = 0 then Config.invalidResult x y else infinity (n1 ^^ n2)
  | .infinite n1, .infinite n2 => infinity (n1 ^^ n2)
  | .nan, _ => Config.invalidResult x y
  | _, .nan => Config.invalidResult x y

/-- 1 if a remainder was left, so that a quotient or root that is not exact never looks like a tie. -/
def sticky (remainder : Nat) : Nat := if remainder = 0 then 0 else 1

/-- Division (R11). The quotient is taken with 110 extra bits and a sticky bit, then rounded once. -/
def div (x y : U64) : U64 :=
  match unpack x, unpack y with
  | .finite n1 m1 e1, .finite n2 m2 e2 =>
    if m2 = 0 then
      if m1 = 0 then Config.invalidResult x y else infinity (n1 ^^ n2)
    else
      let n := m1 <<< 110
      round (n1 ^^ n2) (2 * (n / m2) + sticky (n % m2)) (e1 - e2 - 111)
  | .infinite n1, .finite n2 _ _ => infinity (n1 ^^ n2)
  | .finite n1 _ _, .infinite n2 => zero (n1 ^^ n2)
  | .infinite _, .infinite _ => Config.invalidResult x y
  | .nan, _ => Config.invalidResult x y
  | _, .nan => Config.invalidResult x y

/-- The integer square root by bits: the largest `r' ≥ r` reachable by adding powers below `2^bits` with `r' * r' ≤ n`. -/
def isqrtFrom (n : Nat) : Nat → Nat → Nat
  | 0, r => r
  | b + 1, r =>
    if (r + 2 ^ b) * (r + 2 ^ b) ≤ n then isqrtFrom n b (r + 2 ^ b) else isqrtFrom n b r

/-- The integer square root of a number below 2^180. -/
def isqrt (n : Nat) : Nat := isqrtFrom n 90 0

/-- The square root (R11), correctly rounded: the root of the significand, at an even exponent and with 60 extra bits and a
sticky bit, rounded once. A zero is its own root. -/
def sqrt (x : U64) : U64 :=
  match unpack x with
  | .finite n m e =>
    if m = 0 then x
    else if n then Config.invalidResult x x
    else
      let odd := e % 2
      let a := m <<< (odd.toNat + 120)
      let r := isqrt a
      round false (2 * r + sticky (a - r * r)) ((e - odd) / 2 - 61)
  | .infinite n => if n then Config.invalidResult x x else x
  | .nan => Config.invalidResult x x

/-- The place of a non-NaN pattern in the IEEE order; both zeros are at 0 (R11). -/
def orderKey (x : U64) : Int := signed x.msb (abs x).toNat

/-- `x < y` (R11); false if either is a NaN. -/
def lt (x y : U64) : Bool := !isNaN x && !isNaN y && decide (orderKey x < orderKey y)

/-- `x >= y` (R11); false if either is a NaN. -/
def ge (x y : U64) : Bool := !isNaN x && !isNaN y && decide (orderKey y ≤ orderKey x)

/-- `min(x, y)` by comparison (DEDUCED, log 13). -/
def minOf (x y : U64) : U64 := if lt y x then y else x

/-- `max(x, y)` by comparison (DEDUCED, log 13). -/
def maxOf (x y : U64) : U64 := if lt x y then y else x

/-- `floor(2^k · x)` for the exact product (R11, R108), for finite `x`. -/
def floorScaled (negative : Bool) (m : Nat) (e : Int) (k : Int) : Int :=
  if 0 ≤ e + k then signed negative (m <<< (e + k).toNat)
  else signed negative m / (2 : Int) ^ (-(e + k)).toNat

/-- `f64(n)` (R11): exact for |n| ≤ 2^53. -/
def ofInt (n : Int) : U64 := round (decide (n < 0)) n.natAbs 0

/-- 1.0 -/
def one : U64 := 0x3FF0000000000000#64

/-- 0.5 -/
def half : U64 := 0x3FE0000000000000#64

/-- 3.0 -/
def three : U64 := 0x4008000000000000#64

/-- 4.0 -/
def four : U64 := 0x4010000000000000#64

/-- 2^-30 -/
def twoPowMinus30 : U64 := 0x3E10000000000000#64

end Sys2Proof.Machine.Binary64
end

