-- ==== Sys2Proof/Machine/Transform.lean ====
section
/-! DEFINITION. The coordinate transform and discretization: the functions of R102 to R109 and the six commands of R110 to
R115. Every product and sum is one rounded binary64 operation, in the order the rule writes (R100). -/

namespace Sys2Proof.Machine

/-- A vector of three binary64 components. -/
structure Vec3 where
  x : U64
  y : U64
  z : U64
deriving DecidableEq, Repr

/-- A face with its face coordinates u, v. -/
structure FaceUV where
  face : Nat
  u : U64
  v : U64
deriving DecidableEq, Repr

/-- `faceUVToXYZ(face, u, v)` (R102); the last row is face 5. -/
def faceUVToXYZ (face : Nat) (u v : U64) : Vec3 :=
  match face with
  | 0 => ⟨Binary64.one, u, v⟩
  | 1 => ⟨Binary64.neg u, Binary64.one, v⟩
  | 2 => ⟨Binary64.neg u, Binary64.neg v, Binary64.one⟩
  | 3 => ⟨Binary64.neg Binary64.one, Binary64.neg v, Binary64.neg u⟩
  | 4 => ⟨v, Binary64.neg Binary64.one, Binary64.neg u⟩
  | _ => ⟨v, u, Binary64.neg Binary64.one⟩

/-- The axis of largest magnitude with the tie rule of R103: y wins a tie with x, z wins any tie. -/
def majorAxis (p : Vec3) : Nat :=
  if Binary64.lt (Binary64.abs p.y) (Binary64.abs p.x) then
    if Binary64.lt (Binary64.abs p.z) (Binary64.abs p.x) then 0 else 2
  else
    if Binary64.lt (Binary64.abs p.z) (Binary64.abs p.y) then 1 else 2

/-- The component of an axis. -/
def component (p : Vec3) (axis : Nat) : U64 :=
  match axis with
  | 0 => p.x
  | 1 => p.y
  | _ => p.z

/-- `faceOf(x, y, z)` (R103): a component −0.0 is not negative. -/
def faceOfVector (p : Vec3) : Nat :=
  if Binary64.lt (component p (majorAxis p)) (Binary64.zero false) then majorAxis p + 3 else majorAxis p

/-- `faceXYZToUV(face, x, y, z)` (R104), each division rounded once; the last row is face 5. -/
def faceXYZToUV (face : Nat) (p : Vec3) : U64 × U64 :=
  match face with
  | 0 => (Binary64.div p.y p.x, Binary64.div p.z p.x)
  | 1 => (Binary64.div (Binary64.neg p.x) p.y, Binary64.div p.z p.y)
  | 2 => (Binary64.div (Binary64.neg p.x) p.z, Binary64.div (Binary64.neg p.y) p.z)
  | 3 => (Binary64.div p.z p.x, Binary64.div p.y p.x)
  | 4 => (Binary64.div p.z p.y, Binary64.div (Binary64.neg p.x) p.y)
  | _ => (Binary64.div (Binary64.neg p.y) p.z, Binary64.div (Binary64.neg p.x) p.z)

/-- `xyzToFaceUV(x, y, z)` (R105); the input is not normalised. -/
def xyzToFaceUV (p : Vec3) : FaceUV :=
  let uv := faceXYZToUV (faceOfVector p) p
  ⟨faceOfVector p, uv.1, uv.2⟩

/-- `stToUV(s)` (R106). -/
def stToUV (s : U64) : U64 :=
  if Binary64.ge s Binary64.half then
    Binary64.mul Config.third (Binary64.sub (Binary64.mul (Binary64.mul Binary64.four s) s) Binary64.one)
  else
    Binary64.mul Config.third
      (Binary64.sub Binary64.one
        (Binary64.mul (Binary64.mul Binary64.four (Binary64.sub Binary64.one s)) (Binary64.sub Binary64.one s)))

/-- `uvToST(u)` (R107); u = −0.0 takes the first branch. -/
def uvToST (u : U64) : U64 :=
  if Binary64.ge u (Binary64.zero false) then
    Binary64.mul Binary64.half (Binary64.sqrt (Binary64.add Binary64.one (Binary64.mul Binary64.three u)))
  else
    Binary64.sub Binary64.one
      (Binary64.mul Binary64.half (Binary64.sqrt (Binary64.sub Binary64.one (Binary64.mul Binary64.three u))))

/-- The largest grid coordinate, 2^30 − 1 (R6). -/
def maxCoordinate : Int := Config.maxSize - 1

/-- `stToIJ(s)` (R108): `floor(2^30 · s)` of the exact product (log 12), clamped; the infinities clamp to the limits. A NaN is
turned away before (R101). -/
def stToIJ (s : U64) : Int :=
  match Binary64.unpack s with
  | .infinite negative => if negative then 0 else maxCoordinate
  | .finite negative m e => clampInt (Binary64.floorScaled negative m e 30) 0 maxCoordinate
  | .nan => 0

/-- `ijToSTMin(i)` (R109): `f64(i) * 2^-30`. -/
def ijToSTMin (i : Int) : U64 := Binary64.mul (Binary64.ofInt i) Binary64.twoPowMinus30

/-- All three components finite (R101). -/
def allFinite (p : Vec3) : Bool := Binary64.isFinite p.x && Binary64.isFinite p.y && Binary64.isFinite p.z

/-- The zero vector, with any signs (R111). -/
def isZeroVector (p : Vec3) : Bool := Binary64.isZero p.x && Binary64.isZero p.y && Binary64.isZero p.z

/-- The vector on the operand ports. -/
def State.portVector (s : State) : Vec3 := ⟨s.opa, s.opb, s.opc⟩

/-- `if any of x, y, z is not finite or all are zero: fail INVALID_INPUT` (R111, R158). -/
def requireVector (p : Vec3) (r : InFlight) : InFlight :=
  requireInput (allFinite p) (requireInput (!isZeroVector p) r)

/-- `if isNaN(x): fail INVALID_INPUT` (R101). -/
def requireNumber (x : U64) (r : InFlight) : InFlight := requireInput (!Binary64.isNaN x) r

/-- FACE_UV_TO_XYZ (R110). -/
def execFaceUvToXyz (face : Nat) (s : State) : Host.Outcome State Fault Refusal :=
  let p := faceUVToXYZ face s.opa s.opb
  s.respond (requireFace face (requireNumber s.opa (requireNumber s.opb (okWith [p.x, p.y, p.z]))))

/-- XYZ_TO_FACE_UV (R111). -/
def execXyzToFaceUv (s : State) : Host.Outcome State Fault Refusal :=
  let f := xyzToFaceUV s.portVector
  s.respond (requireVector s.portVector (okWith [wordOfNat f.face, f.u, f.v]))

/-- ST_TO_UV (R112). -/
def execStToUv (s : State) : Host.Outcome State Fault Refusal :=
  s.respond (requireNumber s.opa (okWith [stToUV s.opa]))

/-- UV_TO_ST (R113). -/
def execUvToSt (s : State) : Host.Outcome State Fault Refusal :=
  s.respond (requireNumber s.opa (okWith [uvToST s.opa]))

/-- ST_TO_IJ (R114). -/
def execStToIj (s : State) : Host.Outcome State Fault Refusal :=
  s.respond (requireNumber s.opa (okWith [wordOfInt (stToIJ s.opa)]))

/-- IJ_TO_ST_MIN (R115): 2^30, the far edge, is accepted. -/
def execIjToStMin (s : State) : Host.Outcome State Fault Refusal :=
  let i := asI64 s.opa
  s.respond (requireInput (decide (0 ≤ i) && decide (i ≤ Config.maxSize)) (okWith [ijToSTMin i]))

end Sys2Proof.Machine
end

