-- ==== Sys2Proof/Machine/Codec.lean ====
section
/-! DEFINITION. The cell-ID encoder and decoder: the functions of R150, R152, R154 and R156 and the nine commands of R151 to
R162. -/

namespace Sys2Proof.Machine

/-- `to_u64(face) << 61`. -/
def faceBits (face : Nat) : U64 := wordOfNat face <<< 61

/-- `fromFaceIJ(face, i, j)` (R150), for i, j on the grid. -/
def fromFaceIJ (rd : TableReader) (face : Nat) (i j : Int) : U64 :=
  faceBits face ||| (hilbertEncode rd face i j <<< 1) ||| 1#64

/-- A decoded cell: face, grid coordinates of the leaf `x | 1`, orientation of the curve inside the cell (R152). -/
structure FaceIJO where
  face : Nat
  i : Int
  j : Int
  orientation : Orientation
deriving DecidableEq, Repr

/-- The post-correction of the swap bit (R152). -/
def fixOrientation (x : U64) (o : Orientation) : Orientation :=
  if (lsb x &&& Config.orientFixMask) != 0#64 then o ^^^ Config.swapMask else o

/-- `toFaceIJO(x)` (R152), for a valid x: (i, j) is the leaf `x | 1`. Where the curve is inverted inside a cell of level L < 30
this gives i mod sizeIJ(L) = sizeIJ(L)/2 − 1, as R153's corner case and 95_test_vectors.md have it, and not sizeIJ(L)/2 as R231 remarks
for every such cell (DEDUCED, log 21). -/
def toFaceIJO (rd : TableReader) (x : U64) : FaceIJO :=
  let d := hilbertDecode rd x
  ⟨faceField x, d.1, d.2.1, fixOrientation x d.2.2⟩

/-- The centre of a column or row in the linear projection, clamped to ±LIMIT (R154). -/
def wrapCoordinate (i : Int) : U64 :=
  let u := Binary64.mul Binary64.twoPowMinus30 (Binary64.ofInt (2 * clampInt i (-1) Config.maxSize + 1 - Config.maxSize))
  Binary64.maxOf (Binary64.neg Config.wrapLimit) (Binary64.minOf Config.wrapLimit u)

/-- `stToIJ(0.5 * (u + 1.0))`: the grid coordinate of a linear face coordinate (R154). -/
def linearToIJ (u : U64) : Int := stToIJ (Binary64.mul Binary64.half (Binary64.add u Binary64.one))

/-- `fromFaceIJWrap(face, i, j)` (R154): through the cube, for any i, j. -/
def fromFaceIJWrap (rd : TableReader) (face : Nat) (i j : Int) : U64 :=
  let f := xyzToFaceUV (faceUVToXYZ face (wrapCoordinate i) (wrapCoordinate j))
  fromFaceIJ rd f.face (linearToIJ f.u) (linearToIJ f.v)

/-- `fromFaceIJSame(face, i, j, same)` (R156). -/
def fromFaceIJSame (rd : TableReader) (face : Nat) (i j : Int) (same : Bool) : U64 :=
  if same then fromFaceIJ rd face i j else fromFaceIJWrap rd face i j

/-- The leaf containing a sphere point (R158). -/
def fromPoint (rd : TableReader) (p : Vec3) : U64 :=
  let f := xyzToFaceUV p
  fromFaceIJ rd f.face (stToIJ (uvToST f.u)) (stToIJ (uvToST f.v))

/-- Both grid coordinates on the face, else INVALID_INPUT (R151, R157, R261). -/
def requireGrid (i j : Int) (r : InFlight) : InFlight := requireInput (onGrid i) (requireInput (onGrid j) r)

/-- FROM_FACE_IJ (R151). -/
def execFromFaceIj (face : Nat) (s : State) : Host.Outcome State Fault Refusal :=
  let i := asI64 s.opa
  let j := asI64 s.opb
  s.respond (requireFace face (requireGrid i j (okWith [fromFaceIJ s.tblRead face i j])))

/-- TO_FACE_IJO (R153): four words, the orientation last. -/
def execToFaceIjo (s : State) : Host.Outcome State Fault Refusal :=
  let d := toFaceIJO s.tblRead s.opa
  s.respond (requireCell s.opa
    (okWith [wordOfNat d.face, wordOfInt d.i, wordOfInt d.j, wordOfOrientation d.orientation]))

/-- FROM_FACE_IJ_WRAP (R155): every i64 value is accepted. -/
def execFromFaceIjWrap (face : Nat) (s : State) : Host.Outcome State Fault Refusal :=
  s.respond (requireFace face (okWith [fromFaceIJWrap s.tblRead face (asI64 s.opa) (asI64 s.opb)]))

/-- FROM_FACE_IJ_SAME (R157): the range is checked only when SAME = 1. -/
def execFromFaceIjSame (face : Nat) (same : Bool) (s : State) : Host.Outcome State Fault Refusal :=
  let i := asI64 s.opa
  let j := asI64 s.opb
  let r := okWith [fromFaceIJSame s.tblRead face i j same]
  s.respond (requireFace face (if same then requireGrid i j r else r))

/-- FROM_POINT (R158). -/
def execFromPoint (s : State) : Host.Outcome State Fault Refusal :=
  s.respond (requireVector s.portVector (okWith [fromPoint s.tblRead s.portVector]))

/-- FROM_FACE_POS_LEVEL (R159). -/
def execFromFacePosLevel (face lvl : Nat) (s : State) : Host.Outcome State Fault Refusal :=
  s.respond (requireFace face (requireLevel lvl (requireInput (decide (asU64 s.opa < 2 ^ 61))
    (okWith [parent ((faceBits face + s.opa) ||| 1#64) lvl]))))

/-- The level-0 cell of a face (R160). -/
def faceCell (face : Nat) : U64 := faceBits face + (1#64 <<< 60)

/-- FROM_FACE (R160). -/
def execFromFace (face : Nat) (s : State) : Host.Outcome State Fault Refusal :=
  s.respond (requireFace face (okWith [faceCell face]))

/-- BEGIN (R161). -/
def execBeginAt (lvl : Nat) (s : State) : Host.Outcome State Fault Refusal :=
  s.respond (requireLevel lvl (okWith [childBeginAt (faceCell 0) lvl]))

/-- END (R162). -/
def execEndAt (lvl : Nat) (s : State) : Host.Outcome State Fault Refusal :=
  s.respond (requireLevel lvl (okWith [childEndAt (faceCell 5) lvl]))

end Sys2Proof.Machine
end

