-- ==== Sys2Proof/Machine/Navigator.lean ====
section
/-! DEFINITION. The hierarchy navigator: the twenty commands of R181 to R200, over the functions of Cell.lean. None reads a
lookup table (R201 (c)). -/

namespace Sys2Proof.Machine

/-- FACE_OF (R181): total on every u64. -/
def execFaceOf (s : State) : Host.Outcome State Fault Refusal :=
  s.respond (okWith [wordOfNat (faceField s.opa)])

/-- POS_OF (R182): total on every u64. -/
def execPosOf (s : State) : Host.Outcome State Fault Refusal :=
  s.respond (okWith [posField s.opa])

/-- LEVEL_OF (R183). -/
def execLevelOf (s : State) : Host.Outcome State Fault Refusal :=
  s.respond (requireCell s.opa (okWith [wordOfNat (level s.opa)]))

/-- IS_LEAF (R184): bit 0, whether the value is valid or not. -/
def execIsLeaf (s : State) : Host.Outcome State Fault Refusal :=
  s.respond (okWith [s.opa &&& 1#64])

/-- IS_VALID (R185): total on every u64. -/
def execIsValid (s : State) : Host.Outcome State Fault Refusal :=
  s.respond (okWith [wordOfBool (valid s.opa)])

/-- PARENT (R186). -/
def execParent (lvl : Nat) (s : State) : Host.Outcome State Fault Refusal :=
  s.respond (requireCell s.opa (requireLevel lvl (requireRelation (decide (lvl ≤ level s.opa))
    (okWith [parent s.opa lvl]))))

/-- IMM_PARENT (R187): a face cell has no parent. -/
def execImmParent (s : State) : Host.Outcome State Fault Refusal :=
  s.respond (requireCell s.opa (requireRelation (decide (level s.opa ≠ 0)) (okWith [immediateParent s.opa])))

/-- A valid cell that has children, else INVALID_CELL or INVALID_LEVEL (R188 to R191). -/
def requireParentCell (x : U64) (r : InFlight) : InFlight :=
  requireCell x (requireRelation (decide (level x < Config.maxLevel)) r)

/-- CHILD (R188). -/
def execChild (cpos : Nat) (s : State) : Host.Outcome State Fault Refusal :=
  s.respond (requireParentCell s.opa (okWith [child s.opa cpos]))

/-- CHILDREN (R189): the four words in child order. -/
def execChildren (s : State) : Host.Outcome State Fault Refusal :=
  s.respond (requireParentCell s.opa (okWith [child s.opa 0, child s.opa 1, child s.opa 2, child s.opa 3]))

/-- CHILD_BEGIN (R190). -/
def execChildBegin (s : State) : Host.Outcome State Fault Refusal :=
  s.respond (requireParentCell s.opa (okWith [childBegin s.opa]))

/-- CHILD_END (R191). -/
def execChildEnd (s : State) : Host.Outcome State Fault Refusal :=
  s.respond (requireParentCell s.opa (okWith [childEnd s.opa]))

/-- CHILD_BEGIN_AT (R192). -/
def execChildBeginAt (lvl : Nat) (s : State) : Host.Outcome State Fault Refusal :=
  s.respond (requireCell s.opa (requireLevel lvl (requireRelation (decide (level s.opa ≤ lvl))
    (okWith [childBeginAt s.opa lvl]))))

/-- CHILD_END_AT (R193). -/
def execChildEndAt (lvl : Nat) (s : State) : Host.Outcome State Fault Refusal :=
  s.respond (requireCell s.opa (requireLevel lvl (requireRelation (decide (level s.opa ≤ lvl))
    (okWith [childEndAt s.opa lvl]))))

/-- NEXT (R194): does not clamp. -/
def execNextCell (s : State) : Host.Outcome State Fault Refusal :=
  s.respond (requireCell s.opa (okWith [nextCell s.opa]))

/-- ADVANCE (R195): every i64 step count is accepted. -/
def execAdvance (s : State) : Host.Outcome State Fault Refusal :=
  s.respond (requireCell s.opa (okWith [advance s.opa (asI64 s.opb)]))

/-- RANGE_MIN (R196). -/
def execRangeMin (s : State) : Host.Outcome State Fault Refusal :=
  s.respond (requireCell s.opa (okWith [rangeMin s.opa]))

/-- RANGE_MAX (R197). -/
def execRangeMax (s : State) : Host.Outcome State Fault Refusal :=
  s.respond (requireCell s.opa (okWith [rangeMax s.opa]))

/-- CONTAINS (R198): OPA is checked before OPB. -/
def execContains (s : State) : Host.Outcome State Fault Refusal :=
  s.respond (requireCell s.opa (requireCell s.opb (okWith [wordOfBool (contains s.opa s.opb)])))

/-- INTERSECTS (R199): OPA is checked before OPB. -/
def execIntersects (s : State) : Host.Outcome State Fault Refusal :=
  s.respond (requireCell s.opa (requireCell s.opb (okWith [wordOfBool (intersects s.opa s.opb)])))

/-- CHILD_POSITION (R200): a face cell is no one's child. -/
def execChildPosition (lvl : Nat) (s : State) : Host.Outcome State Fault Refusal :=
  s.respond (requireCell s.opa (requireLevel lvl
    (requireRelation (decide (lvl ≠ 0) && decide (lvl ≤ level s.opa)) (okWith [wordOfNat (childPosition s.opa lvl)]))))

end Sys2Proof.Machine
end

