-- ==== Sys2Proof/Machine/Neighbors.lean ====
section
/-! DEFINITION. The neighbour finder: the enumerations of R232 to R234 with face-boundary wraparound (R230), the ALL_NBRS loop
(R234, R236), and their three commands. -/

namespace Sys2Proof.Machine

/-- A candidate (face, i, j) as a cell of level NL (R230): `parent(fromFaceIJSame(face, i, j, same), NL)`. -/
def candidate (rd : TableReader) (face : Nat) (i j : Int) (same : Bool) (lvl : Nat) : U64 :=
  parent (fromFaceIJSame rd face i j same) lvl

/-- `edgeNbrs(x)` (R232), in the order S, E, N, W. -/
def edgeNbrs (rd : TableReader) (x : U64) : List U64 :=
  let d := toFaceIJO rd x
  let n := sizeIJ (level x)
  [candidate rd d.face d.i (d.j - n) (decide (0 ≤ d.j - n)) (level x),
   candidate rd d.face (d.i + n) d.j (decide (d.i + n < Config.maxSize)) (level x),
   candidate rd d.face d.i (d.j + n) (decide (d.j + n < Config.maxSize)) (level x),
   candidate rd d.face (d.i - n) d.j (decide (0 ≤ d.i - n)) (level x)]

/-- One axis of the vertex selection (R233): the offset towards the nearer vertex, and whether it stays on the face. The bit
test `i & half` is written as a quotient (log 18). -/
def vertexOffset (i half : Int) : Int × Bool :=
  if i / half % 2 = 1 then (2 * half, decide (i + 2 * half < Config.maxSize))
  else (-(2 * half), decide (0 ≤ i - 2 * half))

/-- `vertexNbrs(x, NL)` (R233): ancestor, i-neighbour, j-neighbour and, unless both offsets leave the face, the diagonal. -/
def vertexNbrs (rd : TableReader) (x : U64) (lvl : Nat) : List U64 :=
  let d := toFaceIJO rd x
  let half := sizeIJ (lvl + 1)
  let oi := vertexOffset d.i half
  let oj := vertexOffset d.j half
  [parent x lvl,
   candidate rd d.face (d.i + oi.1) d.j oi.2 lvl,
   candidate rd d.face d.i (d.j + oj.1) oj.2 lvl]
  ++ if oi.2 || oj.2 then [candidate rd d.face (d.i + oi.1) (d.j + oj.1) (oi.2 && oj.2) lvl] else []

/-- The ALL_NBRS loop before its first iteration (R234): the lower-left leaf of the cell, and `k = -ns`. -/
def allNbrsStart (rd : TableReader) (x : U64) (lvl : Nat) : NbrLoop :=
  let d := toFaceIJO rd x
  let size := sizeIJ (level x)
  { face := d.face, i := d.i - d.i % size, j := d.j - d.j % size, size := size, ns := sizeIJ lvl, level := lvl,
    k := -(sizeIJ lvl) }

/-- The loop's flag `same` at the current k (R234). -/
def loopSame (l : NbrLoop) : Bool :=
  if l.k < 0 then decide (0 ≤ l.j + l.k)
  else if l.size ≤ l.k then decide (l.j + l.k < Config.maxSize)
  else true

/-- The words of one iteration (R234): below and above while k runs along the cell, then left and right. -/
def loopWords (rd : TableReader) (l : NbrLoop) : List U64 :=
  (if 0 ≤ l.k ∧ l.k < l.size then
    [candidate rd l.face (l.i + l.k) (l.j - l.ns) (decide (0 ≤ l.j - l.size)) l.level,
     candidate rd l.face (l.i + l.k) (l.j + l.size) (decide (l.j + l.size < Config.maxSize)) l.level]
   else [])
  ++ [candidate rd l.face (l.i - l.ns) (l.j + l.k) (loopSame l && decide (0 ≤ l.i - l.size)) l.level,
      candidate rd l.face (l.i + l.size) (l.j + l.k) (loopSame l && decide (l.i + l.size < Config.maxSize)) l.level]

/-- The loop after an iteration (R234): it exits once `k >= size`, else k grows by ns. -/
def loopNext (l : NbrLoop) : Option NbrLoop :=
  if l.size ≤ l.k then none else some { l with k := l.k + l.ns }

/-- `allNbrs(x, NL)` (R234) as the finite list of R236: the words of the iterations k = -ns, 0, ns, …, size, in order. -/
def allNbrs (rd : TableReader) (x : U64) (lvl : Nat) : List U64 :=
  let l := allNbrsStart rd x lvl
  (List.range (2 ^ (lvl - level x) + 2)).flatMap fun (n : Nat) => loopWords rd { l with k := (n : Int) * l.ns - l.ns }

/-- A response that iterates (R236): the words of the loop's current iteration are produced, the loop moves on. -/
def streamFrom (rd : TableReader) (header : Bool) (l : NbrLoop) : InFlight :=
  { status := .ok, header := header, words := loopWords rd l, loop := loopNext l }

/-- The response after the transfer of the beat it offers (R36, R236); none when that was the last beat. When the words of an
iteration have all gone and the loop has not ended, the next iteration produces its words. -/
def InFlight.afterBeat (rd : TableReader) (r : InFlight) : Option InFlight :=
  if r.header then
    if r.words = [] ∧ r.loop = none then none else some { r with header := false }
  else
    match r.words.tail with
    | w :: ws => some { r with words := w :: ws }
    | [] =>
      match r.loop with
      | none => none
      | some l => some (streamFrom rd false l)

/-- A beat is transferred when RSP_READY = 1 (R33); with the last one the response ends (R34). A user that
takes no beat leaves the core as it is (R298). -/
def State.transferBeat (s : State) (r : InFlight) : State :=
  if s.rspReady then
    match r.afterBeat s.tblRead with
    | some r' => { s with inflight := some r' }
    | none => s.endResponse
  else s

/-- EDGE_NBRS (R232): always four words. -/
def execEdgeNbrs (s : State) : Host.Outcome State Fault Refusal :=
  s.respond (requireCell s.opa (okWith (edgeNbrs s.tblRead s.opa)))

/-- VERTEX_NBRS (R233): LVL strictly coarser than the cell. -/
def execVertexNbrs (lvl : Nat) (s : State) : Host.Outcome State Fault Refusal :=
  s.respond (requireCell s.opa (requireLevel lvl (requireRelation (decide (lvl < level s.opa))
    (okWith (vertexNbrs s.tblRead s.opa lvl)))))

/-- ALL_NBRS (R234, R236): LVL at least as fine as the cell; the words are produced iteration by iteration (log 9). -/
def execAllNbrs (lvl : Nat) (s : State) : Host.Outcome State Fault Refusal :=
  s.respond (requireCell s.opa (requireLevel lvl (requireRelation (decide (level s.opa ≤ lvl))
    (streamFrom s.tblRead true (allNbrsStart s.tblRead s.opa lvl)))))

end Sys2Proof.Machine
end

