-- ==== Sys2Proof/Machine/Tables.lean ====
section
/-! DEFINITION. The diagnostic table reads TBL_POS and TBL_IJ (R137, R138). -/

namespace Sys2Proof.Machine

/-- A table index in 0..1023 (R51, R261). -/
def tableIndexOk (x : U64) : Bool := decide (asU64 x ≤ 1023)

/-- The response to a diagnostic read of one table (R137, R138). -/
def tableReadResponse (s : State) (T : TableName) : InFlight :=
  requireInput (tableIndexOk s.opa) (okWith [wordOfEntry (s.tblRead T (s.opa.setWidth 10))])

/-- TBL_POS (R137). -/
def execTblPos (s : State) : Host.Outcome State Fault Refusal := s.respond (tableReadResponse s .lookupPos)

/-- TBL_IJ (R138). -/
def execTblIj (s : State) : Host.Outcome State Fault Refusal := s.respond (tableReadResponse s .lookupIJ)

end Sys2Proof.Machine
end

