-- ==== Sys2Proof/Machine/Dispatch.lean ====
section
/-! DEFINITION. `exec`: one arm per command, each a direct call of the command's meaning. -/

namespace Sys2Proof.Machine

def exec (i : Instr) (s : State) : Host.Outcome State Fault Refusal :=
  match i with
  | .tblPos => Sys2Proof.Machine.execTblPos s
  | .tblIj => Sys2Proof.Machine.execTblIj s
  | .faceUvToXyz face => Sys2Proof.Machine.execFaceUvToXyz face s
  | .xyzToFaceUv => Sys2Proof.Machine.execXyzToFaceUv s
  | .stToUv => Sys2Proof.Machine.execStToUv s
  | .uvToSt => Sys2Proof.Machine.execUvToSt s
  | .stToIj => Sys2Proof.Machine.execStToIj s
  | .ijToStMin => Sys2Proof.Machine.execIjToStMin s
  | .fromFaceIj face => Sys2Proof.Machine.execFromFaceIj face s
  | .toFaceIjo => Sys2Proof.Machine.execToFaceIjo s
  | .fromFaceIjWrap face => Sys2Proof.Machine.execFromFaceIjWrap face s
  | .fromFaceIjSame face same => Sys2Proof.Machine.execFromFaceIjSame face same s
  | .fromPoint => Sys2Proof.Machine.execFromPoint s
  | .fromFacePosLevel face lvl => Sys2Proof.Machine.execFromFacePosLevel face lvl s
  | .fromFace face => Sys2Proof.Machine.execFromFace face s
  | .beginAt lvl => Sys2Proof.Machine.execBeginAt lvl s
  | .endAt lvl => Sys2Proof.Machine.execEndAt lvl s
  | .faceOf => Sys2Proof.Machine.execFaceOf s
  | .posOf => Sys2Proof.Machine.execPosOf s
  | .levelOf => Sys2Proof.Machine.execLevelOf s
  | .isLeaf => Sys2Proof.Machine.execIsLeaf s
  | .isValid => Sys2Proof.Machine.execIsValid s
  | .parent lvl => Sys2Proof.Machine.execParent lvl s
  | .immParent => Sys2Proof.Machine.execImmParent s
  | .child cpos => Sys2Proof.Machine.execChild cpos s
  | .children => Sys2Proof.Machine.execChildren s
  | .childBegin => Sys2Proof.Machine.execChildBegin s
  | .childEnd => Sys2Proof.Machine.execChildEnd s
  | .childBeginAt lvl => Sys2Proof.Machine.execChildBeginAt lvl s
  | .childEndAt lvl => Sys2Proof.Machine.execChildEndAt lvl s
  | .nextCell => Sys2Proof.Machine.execNextCell s
  | .advance => Sys2Proof.Machine.execAdvance s
  | .rangeMin => Sys2Proof.Machine.execRangeMin s
  | .rangeMax => Sys2Proof.Machine.execRangeMax s
  | .contains => Sys2Proof.Machine.execContains s
  | .intersects => Sys2Proof.Machine.execIntersects s
  | .childPosition lvl => Sys2Proof.Machine.execChildPosition lvl s
  | .edgeNbrs => Sys2Proof.Machine.execEdgeNbrs s
  | .vertexNbrs lvl => Sys2Proof.Machine.execVertexNbrs lvl s
  | .allNbrs lvl => Sys2Proof.Machine.execAllNbrs lvl s

end Sys2Proof.Machine
end

