-- ==== Sys2Proof/Machine/Channel.lean ====
section
/-! DEFINITION. The command channel and the choice of the core's next event: reset, initialisation, a response beat, or the
acceptance of a command (R33, R36, R290 to R297). -/

namespace Sys2Proof.Machine

/-- What the acceptance of the offered command does (R33, R74, R76): a legal word is performed; an illegal one answers
ILLEGAL_OP. The user then stops offering the command. -/
def accept (s : State) : Host.Outcome State Fault Refusal :=
  match decode s.cmd with
  | .ok i => andThen (exec i s) State.endOffer
  | .error _ => andThen (s.respond (failWith .illegalOp)) State.endOffer

/-- The acceptance of an offered command while a response is in flight (R296): it is performed as ever, and its response follows
the one in flight (R52). -/
def acceptBehind (s : State) : Host.Outcome State Fault Refusal :=
  andThen (accept s.responseAside) (State.queueBehind s.inflight)

/-- The core's own event: reset while RST = 1 (R290), else initialisation until READY (R291 to R294), else the transfer of a
beat of the response in flight (R36) or, if P_OVERLAP is true, first the acceptance of a command behind it (R296; log 3), else the acceptance of an offered command (R33), else nothing (R274). -/
def coreStep (s : State) : Host.Outcome State Fault Refusal :=
  if s.rst then .next s.holdInReset
  else if !s.ready then .next s.initialise
  else
    match s.inflight with
    | some r => if s.cmdValid && s.queued.isNone && Config.overlap then acceptBehind s else .next (s.transferBeat r)
    | none => if s.cmdValid then accept s else .next s

end Sys2Proof.Machine
end

