-- ==== Sys2Proof/Machine/Step.lean ====
section
/-! DEFINITION. One step of the core: one event (log 2), after which the user may act (log 1). -/

namespace Sys2Proof.Machine

/-- One step: the core's event, then the user's next action. -/
def step (s : State) : Host.Outcome State Fault Refusal := andThen (coreStep s) State.userMove

/-- The state in which the next step accepts the command word `w` and performs it (log 7): out of reset, initialised, idle, the
word offered on the channel. The operand ports stay as they are; the bits of `w` above `nbits` are 0. -/
def State.withFetchWord (s : State) (nbits w : Nat) : State :=
  { s.initialise with
    rst := false, busy := false, inflight := none, queued := none, cmdValid := true, cmd := BitVec.ofNat 32 (w % 2 ^ nbits) }

end Sys2Proof.Machine
end

