-- ==== Sys2Proof/Safety.lean ====
section
/-! DEFINITION. The terms the claims use: the state after an answer, the invariant of the core, the words a response still
holds, the beats a run delivers, the exact value of a binary64 pattern and correct rounding to it. -/

namespace Sys2Proof.Machine

/-- The state after a command has been answered with a status and a list of words: BUSY is 1 and the response is in flight;
every other field is as before (R36, R262, R265). -/
def replied (s : State) (st : Status) (words : List U64) : State :=
  { s with busy := true, inflight := some { status := st, header := true, words := words, loop := none } }

/-- The core can accept the command on the channel (R33): out of reset, ready, idle, a command offered. -/
def accepting (s : State) : Prop :=
  s.rst = false ∧ s.ready = true ∧ s.inflight = none ∧ s.cmdValid = true

/-- Every entry of both tables holds its generator value (R30, R133). -/
def tablesInitialised (s : State) : Prop :=
  s.lookupPos = Table.fill (generatedEntry .lookupPos) ∧ s.lookupIJ = Table.fill (generatedEntry .lookupIJ)

/-- READY and the tables as they are when a command is performed (R30, R294). -/
def operational (s : State) : Prop := s.ready = true ∧ tablesInitialised s

/-- The ALL_NBRS loop between two iterations (R234): ns divides size and k, k runs from 0 to size, the cell lies on its face. -/
structure LoopOk (l : NbrLoop) : Prop where
  face_lt : l.face < 6
  level_le : l.level ≤ 30
  ns_pos : 0 < l.ns
  ns_dvd_size : l.ns ∣ l.size
  ns_dvd_k : l.ns ∣ l.k
  k_nonneg : 0 ≤ l.k
  k_le : l.k ≤ l.size
  i_nonneg : 0 ≤ l.i
  i_le : l.i + l.size ≤ 1073741824
  j_nonneg : 0 ≤ l.j
  j_le : l.j + l.size ≤ 1073741824

/-- A response in flight is well formed (R36, R236, R262): a word is at hand whenever a data beat is due; a failing response is
its header alone; a loop in progress is well formed. -/
structure ResponseOk (r : InFlight) : Prop where
  word_at_hand : r.header = false → r.words ≠ []
  failing : r.status ≠ .ok → r.header = true ∧ r.words = [] ∧ r.loop = none
  iterating : ∀ l, r.loop = some l → r.words ≠ [] ∧ LoopOk l

/-- The invariant of the core: BUSY says whether a response is in flight (R34), there is none before READY (R34, R294), the
tables are initialised when READY = 1 (R30) and in canonical form (R51), the response in flight is well formed,
and so is one queued behind it, of which there is none unless P_OVERLAP is true (R296). -/
structure Inv (s : State) : Prop where
  busy_iff : s.busy = s.inflight.isSome
  quiet : s.ready = false → s.inflight = none
  tables : s.ready = true → tablesInitialised s
  memory : Memory.wf s = true
  response : ∀ r, s.inflight = some r → ResponseOk r
  behind : s.queued.isSome = true → s.inflight.isSome = true
  overlapping : Config.overlap = false → s.queued = none
  queuedResponse : ∀ r, s.queued = some r → ResponseOk r ∧ r.header = true

/-- The vector on the operand ports is in the domain of XYZ_TO_FACE_UV and FROM_POINT (R101, R111): finite and not zero. -/
def vectorInDomain (s : State) : Prop :=
  Binary64.isFinite s.opa = true ∧ Binary64.isFinite s.opb = true ∧ Binary64.isFinite s.opc = true ∧
  ¬(Binary64.isZero s.opa = true ∧ Binary64.isZero s.opb = true ∧ Binary64.isZero s.opc = true)

/-- A valid cell of a level (R25, R26). -/
def isCellAt (x : U64) (lvl : Nat) : Prop := valid x = true ∧ level x = lvl

/-- The leaf of a face at grid coordinates, at its bit-serial curve position (R136, R150). -/
def leafAt (face : Nat) (i j : Int) : U64 :=
  (BitVec.ofNat 64 face <<< 61) ||| (bitSerialEncode face i j <<< 1) ||| 1#64

/-- The cell covers the square (a, b) of side n of a face (R231): the grid coordinates that TO_FACE_IJO gives it lie there. -/
def inSquare (rd : TableReader) (x : U64) (face : Nat) (n a b : Int) : Prop :=
  (toFaceIJO rd x).face = face ∧ (toFaceIJO rd x).i / n = a ∧ (toFaceIJO rd x).j / n = b

/-- The iterations an ALL_NBRS loop still makes: k, k + ns, …, size (R234). -/
def loopLeft (l : NbrLoop) : Nat := ((l.size - l.k) / l.ns).toNat + 1

/-- The words of at most `fuel` iterations of an ALL_NBRS loop from its current one on, with the loop's own exit (R234). -/
def loopDrain (rd : TableReader) : Nat → NbrLoop → List U64
  | 0, _ => []
  | fuel + 1, l =>
    loopWords rd l ++
      match loopNext l with
      | none => []
      | some l' => loopDrain rd fuel l'

/-- The words a response still delivers: those at hand and those its loop still produces (R236). -/
def pendingWords (rd : TableReader) (r : InFlight) : List U64 :=
  r.words ++
    match r.loop with
    | none => []
    | some l => loopDrain rd (loopLeft l) l

/-- The data beats of a list of words: one a word, RSP_LAST on the final one (R36). -/
def dataBeats : List U64 → List Beat
  | [] => []
  | w :: ws => .data w ws.isEmpty :: dataBeats ws

/-- The beats of a whole response (R36): the header, RSP_LAST on it iff there are no words, then one data beat a word. -/
def responseBeats (st : Status) (words : List U64) : List Beat :=
  .header st.code words.isEmpty :: dataBeats words

/-- The beats transferred in the next `n` steps (R33: RSP_VALID = 1 and RSP_READY = 1). -/
def delivered : Nat → State → List Beat
  | 0, _ => []
  | n + 1, s =>
    (if s.rspReady then s.beat.toList else []) ++
      match step s with
      | .next t => delivered n t
      | .fault _ => []
      | .refused _ => []

/-- The unassigned opcodes (R76). -/
def unassignedOpcodes : List Nat :=
  [0x00, 0x03, 0x04, 0x05, 0x06, 0x07, 0x0E, 0x0F, 0x19, 0x1A, 0x1B, 0x1C, 0x1D, 0x1E, 0x1F, 0x25, 0x26, 0x27, 0x37,
   0x3B, 0x3C, 0x3D, 0x3E, 0x3F]

/-- The opcodes that use LVL, FACE, CPOS and SAME (the "fields" column of R75). -/
def lvlOpcodes : List Nat := [0x15, 0x17, 0x18, 0x28, 0x2E, 0x2F, 0x36, 0x39, 0x3A]
def faceOpcodes : List Nat := [0x08, 0x10, 0x12, 0x13, 0x15, 0x16]
def cposOpcodes : List Nat := [0x2A]
def sameOpcodes : List Nat := [0x13]

/-- A command word that R72 and R76 call illegal, said from their words: an unassigned opcode, or a nonzero reserved field, or
a nonzero field the opcode does not use. -/
def illegalWord (w : CmdWord) : Prop :=
  (w.extractLsb' 0 6).toNat ∈ unassignedOpcodes ∨
  w.extractLsb' 6 2 ≠ 0#2 ∨ w.extractLsb' 19 13 ≠ 0#13 ∨
  ((w.extractLsb' 0 6).toNat ∉ lvlOpcodes ∧ w.extractLsb' 8 5 ≠ 0#5) ∨
  ((w.extractLsb' 0 6).toNat ∉ faceOpcodes ∧ w.extractLsb' 13 3 ≠ 0#3) ∨
  ((w.extractLsb' 0 6).toNat ∉ cposOpcodes ∧ w.extractLsb' 16 2 ≠ 0#2) ∨
  ((w.extractLsb' 0 6).toNat ∉ sameOpcodes ∧ w.extractLsb' 18 1 ≠ 0#1)

/-- The FACE argument of the commands that use FACE (R75). -/
def faceArgument (i : Instr) : Option Nat :=
  match i with
  | .faceUvToXyz f | .fromFaceIj f | .fromFaceIjWrap f | .fromFaceIjSame f _ | .fromFacePosLevel f _ | .fromFace f => some f
  | .tblPos | .tblIj | .xyzToFaceUv | .stToUv | .uvToSt | .stToIj | .ijToStMin | .toFaceIjo | .fromPoint | .beginAt _
  | .endAt _ | .faceOf | .posOf | .levelOf | .isLeaf | .isValid | .parent _ | .immParent | .child _ | .children
  | .childBegin | .childEnd | .childBeginAt _ | .childEndAt _ | .nextCell | .advance | .rangeMin | .rangeMax | .contains
  | .intersects | .childPosition _ | .edgeNbrs | .vertexNbrs _ | .allNbrs _ => none

/-- The LVL argument of the commands that use LVL (R75). -/
def levelArgument (i : Instr) : Option Nat :=
  match i with
  | .fromFacePosLevel _ l | .beginAt l | .endAt l | .parent l | .childBeginAt l | .childEndAt l | .childPosition l
  | .vertexNbrs l | .allNbrs l => some l
  | .tblPos | .tblIj | .faceUvToXyz _ | .xyzToFaceUv | .stToUv | .uvToSt | .stToIj | .ijToStMin | .fromFaceIj _ | .toFaceIjo
  | .fromFaceIjWrap _ | .fromFaceIjSame _ _ | .fromPoint | .fromFace _ | .faceOf | .posOf | .levelOf | .isLeaf | .isValid
  | .immParent | .child _ | .children | .childBegin | .childEnd | .nextCell | .advance | .rangeMin | .rangeMax | .contains
  | .intersects | .edgeNbrs => none

/-- The commands whose OPA is an id (R75, R180). -/
def takesCell (i : Instr) : Bool :=
  match i with
  | .toFaceIjo | .levelOf | .parent _ | .immParent | .child _ | .children | .childBegin | .childEnd | .childBeginAt _
  | .childEndAt _ | .nextCell | .advance | .rangeMin | .rangeMax | .contains | .intersects | .childPosition _ | .edgeNbrs
  | .vertexNbrs _ | .allNbrs _ => true
  | .tblPos | .tblIj | .faceUvToXyz _ | .xyzToFaceUv | .stToUv | .uvToSt | .stToIj | .ijToStMin | .fromFaceIj _
  | .fromFaceIjWrap _ | .fromFaceIjSame _ _ | .fromPoint | .fromFacePosLevel _ _ | .fromFace _ | .beginAt _ | .endAt _
  | .faceOf | .posOf | .isLeaf | .isValid => false

/-- The exact value of a finite binary64 pattern (R11, R53); 0 for the others. -/
def exactValue (x : U64) : ℚ :=
  match Binary64.unpack x with
  | .finite n m e => (if n then -1 else 1) * (m : ℚ) * (2 : ℚ) ^ e
  | .infinite _ => 0
  | .nan => 0

/-- `r` is `v` rounded to nearest, ties to even (R11, R100): no finite pattern is nearer, and of two that are equally near the
one with the even last bit is taken; an infinity of the sign of `v` exactly when `v` is beyond the largest finite value by
half a unit or more. -/
def roundsTo (v : ℝ) (r : U64) : Prop :=
  (Binary64.isFinite r = true ∧ |v| < 2 ^ 1024 - 2 ^ 970 ∧
    ∀ z : U64, Binary64.isFinite z = true →
      |(exactValue r : ℝ) - v| ≤ |(exactValue z : ℝ) - v| ∧
      (|(exactValue r : ℝ) - v| = |(exactValue z : ℝ) - v| → exactValue z ≠ exactValue r → r.getLsbD 0 = false))
  ∨ (r = Binary64.infinity (decide (v < 0)) ∧ 2 ^ 1024 - 2 ^ 970 ≤ |v|)

end Sys2Proof.Machine
end

