-- ==== Sys2Proof/Certificates/Slice0/Obligations.lean ====
section
/-! DEFINITION. The statements for the provers. Each docstring names the rules of spec/ it formalises; `replied s st ws` is the
state s with BUSY = 1 and the response (st, ws) in flight and EVERY other field unchanged, so a conclusion
`exec i s = .next (replied s st ws)` states the answer, the completion and the whole frame at once. -/

open Sys2Proof Sys2Proof.Machine

/-! ## Encoding -/

/-- Decoding the word of an encodable command gives the command back, with every field at every value (R71 to R75). -/
def Obligations.DecodeOfEncodeIsTheCommand : Prop :=
  ∀ i : Instr, i.wellFormed = true → decode (encode i) = .ok i

/-- A word the decoder accepts is the word of the command it gives, and the command is encodable (R72, R74). -/
def Obligations.EncodeOfDecodeIsTheWord : Prop :=
  ∀ (w : CmdWord) (i : Instr), decode w = .ok i → encode i = w ∧ i.wellFormed = true

/-- Words written out from format F0 and the opcode map decode to their commands (R71, R75), a few of each family. -/
def Obligations.SampleWordsDecode : Prop :=
  decode 0x00000001#32 = .ok .tblPos ∧ decode 0x00006008#32 = .ok (.faceUvToXyz 3) ∧
  decode 0x00040013#32 = .ok (.fromFaceIjSame 0 true) ∧ decode 0x0000BE15#32 = .ok (.fromFacePosLevel 5 30) ∧
  decode 0x0003002A#32 = .ok (.child 3) ∧ decode 0x00001F28#32 = .ok (.parent 31) ∧
  decode 0x00000239#32 = .ok (.vertexNbrs 2) ∧ decode 0x00000000#32 = .error .unassignedOpcode ∧
  decode 0x00000050#32 = .error .nonzeroReservedField

/-- R76: an unassigned opcode, or a nonzero reserved or unused field, is illegal: the core answers ILLEGAL_OP with no words,
changes no state of its own, and goes on: the header taken, it is idle and ready again. Every other word is a command. -/
def Obligations.IllegalWordAnswersIllegalOp : Prop :=
  (∀ s : State, accepting s → illegalWord s.cmd →
    ∃ t, step s = .next t ∧ t.inflight = some { status := .illegalOp, header := true, words := [], loop := none } ∧
      t.busy = true ∧ t.ready = true ∧ t.lookupPos = s.lookupPos ∧ t.lookupIJ = s.lookupIJ ∧
      (t.rst = false → t.beat = some (.header 1#4 true)) ∧
      (t.rst = false → t.rspReady = true → t.cmdValid = false → t.queued = none →
        ∃ u, step t = .next u ∧ u.inflight = none ∧ u.busy = false ∧ u.ready = true ∧
          u.lookupPos = s.lookupPos ∧ u.lookupIJ = s.lookupIJ)) ∧
  (∀ w : CmdWord, ¬ illegalWord w → ∃ i, decode w = .ok i)

/-! ## The channel, reset and initialisation -/

/-- A step at which the core accepts a legal word is exec of the decoded command; around it, the offer ends and the user
makes its next move (R33, R74; the user's move is the model's own, log 1). With a response in flight and a command offered:
where P_OVERLAP is true the same, the new response behind the old one, ILLEGAL_OP for an illegal word (R76); where it is
false, a beat of the old one, the command still offered (R52, R296; that acceptance goes first is the model's choice, log
3). With none offered, or CMD_READY = 0, a beat of the old one. -/
def Obligations.StepRunsTheDecodedCommand : Prop :=
  (∀ (s : State) (i : Instr), accepting s → decode s.cmd = .ok i →
    step s = andThen (exec i s) (fun t => t.endOffer.userMove)) ∧
  (∀ (s : State) (r : InFlight), s.rst = false → s.ready = true → s.inflight = some r → s.queued = none → s.cmdValid = true →
    (∀ i, decode s.cmd = .ok i → step s =
      if Config.overlap then andThen (exec i s.responseAside) (fun t => (t.endOffer.queueBehind (some r)).userMove)
      else .next (s.transferBeat r).userMove) ∧
    (illegalWord s.cmd → step s =
      if Config.overlap then
        .next { s with
          busy := true, cmdValid := false,
          queued := some { status := .illegalOp, header := true, words := [], loop := none } }.userMove
      else .next (s.transferBeat r).userMove)) ∧
  (∀ (s : State) (r : InFlight), s.rst = false → s.ready = true → s.inflight = some r →
    (s.cmdValid = false ∨ s.cmdReady = false) → step s = .next (s.transferBeat r).userMove)

/-- A command offered while CMD_READY = 0 stays offered, word and operands unchanged, so nothing is lost. That the user
neither withdraws nor changes its offer is the model's choice (log 1): R294 says that CMD_VALID stays 1 only for READY = 0,
and R295 makes the rest a duty of the user. -/
def Obligations.OfferIsHeldUntilAccepted : Prop :=
  ∀ s : State, s.cmdValid = true → s.cmdReady = false →
    ∃ t, step s = .next t ∧ t.cmdValid = true ∧ t.cmd = s.cmd ∧ t.opa = s.opa ∧ t.opb = s.opb ∧ t.opc = s.opc

/-- Before READY no command is accepted or answered; an early command waits, word and operands as they are, and once READY =
1 the core can accept it (R294). That READY = 1 after one step is the model's choice (log 2), the atomic step of R292, which
the spec marks derived; that the user holds its offer is the model's choice too (log 1). -/
def Obligations.EarlyCommandWaitsForReady : Prop :=
  ∀ s : State, Inv s → s.ready = false →
    s.cmdReady = false ∧ s.rspValid = false ∧
    ∃ t, step s = .next t ∧ t.inflight = none ∧ (s.rst = false → t.ready = true) ∧
      (s.cmdValid = true → t.cmdValid = true ∧ t.cmd = s.cmd ∧ t.opa = s.opa ∧ t.opb = s.opb ∧ t.opc = s.opc ∧
        (s.rst = false → t.rst = false → t.cmdReady = true ∧ accepting t))

/-- Initialisation leaves every entry that the generator of R133 writes, in both tables, and READY = 1 (R291, R293). That it
is one step is the model's choice (log 2), the atomic step that R292, marked derived in the spec, allows. -/
def Obligations.InitialisationWritesTheGeneratorValues : Prop :=
  ∀ s : State, s.rst = false → s.ready = false →
    ∃ t, step s = .next t ∧ t.ready = true ∧
      ∀ w ∈ generatorWrites, t.tblRead w.table (BitVec.ofNat 10 w.index) = BitVec.ofNat 10 w.entry

/-- Each of the 1024 indices of each table is written exactly once by the generator, with an entry of 10 bits (R133). -/
def Obligations.GeneratorWritesEveryIndexOnce : Prop :=
  ∀ T : TableName,
    ((generatorWrites.filter (fun w => w.table = T)).map (fun w => w.index)).Perm (List.range 1024) ∧
    ∀ w ∈ generatorWrites, w.entry < 1024

/-- Once READY = 1 it stays, and no step writes a table, until RST = 1 (R30, R293). -/
def Obligations.ReadyAndTablesStayUntilReset : Prop :=
  ∀ s : State, s.rst = false → s.ready = true →
    ∃ t, step s = .next t ∧ t.ready = true ∧ t.lookupPos = s.lookupPos ∧ t.lookupIJ = s.lookupIJ ∧
      ∀ T idx, t.tblRead T idx = s.tblRead T idx

/-- While RST = 1: CMD_READY = 0, RSP_VALID = 0, STAT reads 0, and a command or response in flight is abandoned (R290, R297). -/
def Obligations.ResetHoldsTheCore : Prop :=
  ∀ s : State, s.rst = true →
    s.cmdReady = false ∧ s.rspValid = false ∧ s.stat = 0#32 ∧
    ∃ t, step s = .next t ∧ t.ready = false ∧ t.busy = false ∧ t.inflight = none ∧ t.queued = none

/-! ## Responses -/

/-- Every response is delivered whole: header beat, then its words in order, RSP_LAST on the final beat only; then the response
queued behind it is in flight, else the core is idle (R36, R236, R264, R296). For every response in flight, failing, finite or
streamed by the ALL_NBRS loop. In the spec R264 is marked derived. -/
def Obligations.EveryResponseIsDeliveredWhole : Prop :=
  ∀ (s : State) (r : InFlight), Inv s → s.rst = false → s.rspReady = true → s.cmdValid = false → s.script = [] →
    s.inflight = some r → r.header = true →
    delivered ((pendingWords s.tblRead r).length + 1) s = responseBeats r.status (pendingWords s.tblRead r) ∧
    Host.Core.run Sys2Proof.core ((pendingWords s.tblRead r).length + 1) s =
      .next { s with inflight := s.queued, queued := none, busy := s.queued.isSome }

/-- A user that takes no beat, and offers no command or one that CMD_READY = 0 keeps waiting, leaves the core as it is,
without error (R298). -/
def Obligations.UntakenBeatStallsTheCore : Prop :=
  ∀ (s : State) (r : InFlight), s.rst = false → s.ready = true → s.inflight = some r → s.rspReady = false →
    (s.cmdValid = false ∨ s.cmdReady = false) → s.script = [] → step s = .next s

/-- R262: whatever the command and its operands, exec starts one response and changes nothing but BUSY and the response in
flight, so nothing is recorded about a failure; a failing response is its header alone, with its status and RSP_LAST = 1. -/
def Obligations.CommandChangesOnlyItsResponse : Prop :=
  ∀ (i : Instr) (s : State), ∃ r : InFlight,
    exec i s = .next { s with busy := true, inflight := some r } ∧ r.header = true ∧
    (r.status ≠ .ok → r.words = [] ∧ r.loop = none ∧ r.beat = some (.header r.status.code true))

/-- A response depends only on the command, the operand ports and the tables, which are the same once READY = 1 (R52): two
states that agree on the ports answer alike, whatever came before. -/
def Obligations.ResponseDependsOnlyOnCommandAndPorts : Prop :=
  ∀ (i : Instr) (s t : State), operational s → operational t → s.opa = t.opa → s.opb = t.opb → s.opc = t.opc →
    ∃ r : InFlight, exec i s = .next (s.beginResponse r) ∧ exec i t = .next (t.beginResponse r)

/-- No state stops the core (R264), and the invariant is kept by every step from every state that has it: BUSY tells whether a response is in flight,
none before READY, the tables initialised and canonical, the response well formed (R30, R34, R36, R51, R234). -/
def Obligations.InvariantIsKeptByEveryStep : Prop :=
  (∀ s : State, ∃ t, step s = .next t) ∧
  (∀ s t : State, Inv s → step s = .next t → Inv t)

/-- The invariant holds after reset, and reset leaves what R38 says: STAT = 0, no response in flight, CMD_READY = 0,
RSP_VALID = 0. -/
def Obligations.InvariantHoldsAfterReset : Prop :=
  Inv State.reset ∧ State.reset.stat = 0#32 ∧ State.reset.ready = false ∧ State.reset.busy = false ∧
  State.reset.inflight = none ∧ State.reset.queued = none ∧ State.reset.cmdReady = false ∧ State.reset.rspValid = false

/-- STAT is READY in bit 0, BUSY in bit 1, 0 elsewhere, and one of 0b00, 0b01, 0b11 (R34). In the spec the legal values of
R34 are marked derived. -/
def Obligations.StatusRegisterIsLegal : Prop :=
  ∀ s : State, Inv s →
    (s.rst = false → s.stat.getLsbD 0 = s.ready ∧ s.stat.getLsbD 1 = s.busy) ∧
    (∀ n, 2 ≤ n → s.stat.getLsbD n = false) ∧
    (s.stat = 0#32 ∨ s.stat = 1#32 ∨ s.stat = 3#32)

/-! ## Statuses -/

/-- An id operand that is not valid ends the command with INVALID_CELL and no words, OPA before OPB, before any check of LVL
(R180, R263 step 3). -/
def Obligations.InvalidIdAnswersInvalidCell : Prop :=
  (∀ (i : Instr) (s : State), takesCell i = true → valid s.opa = false →
    exec i s = .next (replied s .invalidCell [])) ∧
  (∀ s : State, valid s.opb = false →
    exec .contains s = .next (replied s .invalidCell []) ∧ exec .intersects s = .next (replied s .invalidCell []))

/-- FACE = 6 or 7 ends the command with INVALID_FACE, before any check of LVL or the operands (R263 step 2). -/
def Obligations.FaceOutOfRangeAnswersInvalidFace : Prop :=
  ∀ (i : Instr) (s : State) (f : Nat), faceArgument i = some f → 6 ≤ f →
    exec i s = .next (replied s .invalidFace [])

/-- LVL = 31 ends the command with INVALID_LEVEL, once the face and the id have passed, before the numeric operands (R73, R263
step 4). -/
def Obligations.LevelThirtyOneAnswersInvalidLevel : Prop :=
  ∀ (i : Instr) (s : State) (lvl : Nat), levelArgument i = some lvl → 31 ≤ lvl →
    (∀ f, faceArgument i = some f → f < 6) → (takesCell i = true → valid s.opa = true) →
    exec i s = .next (replied s .invalidLevel [])

/-- The level relations of each command (R186 to R193, R200, R233, R234): where one fails, INVALID_LEVEL and no words. -/
def Obligations.LevelRelationAnswersInvalidLevel : Prop :=
  ∀ (s : State) (lvl : Nat), valid s.opa = true → lvl ≤ 30 →
    (level s.opa < lvl → exec (.parent lvl) s = .next (replied s .invalidLevel [])) ∧
    (level s.opa = 0 → exec .immParent s = .next (replied s .invalidLevel [])) ∧
    (level s.opa = 30 → (∀ p, exec (.child p) s = .next (replied s .invalidLevel [])) ∧
      exec .children s = .next (replied s .invalidLevel []) ∧ exec .childBegin s = .next (replied s .invalidLevel []) ∧
      exec .childEnd s = .next (replied s .invalidLevel [])) ∧
    (lvl < level s.opa → exec (.childBeginAt lvl) s = .next (replied s .invalidLevel []) ∧
      exec (.childEndAt lvl) s = .next (replied s .invalidLevel []) ∧
      exec (.allNbrs lvl) s = .next (replied s .invalidLevel [])) ∧
    (lvl = 0 ∨ level s.opa < lvl → exec (.childPosition lvl) s = .next (replied s .invalidLevel [])) ∧
    (level s.opa ≤ lvl → exec (.vertexNbrs lvl) s = .next (replied s .invalidLevel []))

/-- The numeric operands outside a command's domain: INVALID_INPUT and no words (R101, R111, R261, R263 step 5). -/
def Obligations.OperandOutOfDomainAnswersInvalidInput : Prop :=
  ∀ (s : State) (face : Nat), face < 6 →
    (1023 < s.opa.toNat → exec .tblPos s = .next (replied s .invalidInput []) ∧
      exec .tblIj s = .next (replied s .invalidInput [])) ∧
    (Binary64.isNaN s.opa = true ∨ Binary64.isNaN s.opb = true →
      exec (.faceUvToXyz face) s = .next (replied s .invalidInput [])) ∧
    (Binary64.isNaN s.opa = true → exec .stToUv s = .next (replied s .invalidInput []) ∧
      exec .uvToSt s = .next (replied s .invalidInput []) ∧ exec .stToIj s = .next (replied s .invalidInput [])) ∧
    (¬ vectorInDomain s → exec .xyzToFaceUv s = .next (replied s .invalidInput []) ∧
      exec .fromPoint s = .next (replied s .invalidInput [])) ∧
    (s.opa.toInt < 0 ∨ 2 ^ 30 < s.opa.toInt → exec .ijToStMin s = .next (replied s .invalidInput [])) ∧
    (¬ (0 ≤ s.opa.toInt ∧ s.opa.toInt < 2 ^ 30 ∧ 0 ≤ s.opb.toInt ∧ s.opb.toInt < 2 ^ 30) →
      exec (.fromFaceIj face) s = .next (replied s .invalidInput []) ∧
      exec (.fromFaceIjSame face true) s = .next (replied s .invalidInput [])) ∧
    (2 ^ 61 ≤ s.opa.toNat → ∀ lvl, lvl ≤ 30 →
      exec (.fromFacePosLevel face lvl) s = .next (replied s .invalidInput []))

/-! ## Tables and Hilbert curve -/

/-- TBL_POS and TBL_IJ at an index in 0..1023 answer the entry that the generator of R133 writes there (R137, R138, R51). -/
def Obligations.TableReadsAnswerTheGeneratorValues : Prop :=
  ∀ s : State, operational s → s.opa.toNat ≤ 1023 →
    (∃ w ∈ generatorWrites, w.table = .lookupPos ∧ w.index = s.opa.toNat ∧
      exec .tblPos s = .next (replied s .ok [BitVec.ofNat 64 w.entry])) ∧
    (∃ w ∈ generatorWrites, w.table = .lookupIJ ∧ w.index = s.opa.toNat ∧
      exec .tblIj s = .next (replied s .ok [BitVec.ofNat 64 w.entry]))

/-- With the generated tables the chunked interleave equals the bit-serial one (R136), and the de-interleave inverts it. In
the spec R136 is marked derived. -/
def Obligations.ChunkedInterleaveIsTheBitSerialOne : Prop :=
  ∀ (face : Nat) (i j : Int), face < 6 → 0 ≤ i → i < 2 ^ 30 → 0 ≤ j → j < 2 ^ 30 →
    hilbertEncode generatedEntry face i j = bitSerialEncode face i j ∧
    (hilbertDecode generatedEntry
      ((BitVec.ofNat 64 face <<< 61) ||| (hilbertEncode generatedEntry face i j <<< 1) ||| 1#64)).1 = i ∧
    (hilbertDecode generatedEntry
      ((BitVec.ofNat 64 face <<< 61) ||| (hilbertEncode generatedEntry face i j <<< 1) ||| 1#64)).2.1 = j

/-- FROM_FACE_IJ, and FROM_FACE_IJ_SAME with SAME = 1, answer the leaf of the bit-serial curve position (R136, R150, R151,
R157), which is a valid leaf of the face. In the spec R136 is marked derived. -/
def Obligations.FromFaceIjAnswersTheLeaf : Prop :=
  ∀ (s : State) (face : Nat) (w : U64), operational s → face < 6 →
    0 ≤ s.opa.toInt → s.opa.toInt < 2 ^ 30 → 0 ≤ s.opb.toInt → s.opb.toInt < 2 ^ 30 →
    w = (BitVec.ofNat 64 face <<< 61) ||| (bitSerialEncode face s.opa.toInt s.opb.toInt <<< 1) ||| 1#64 →
    exec (.fromFaceIj face) s = .next (replied s .ok [w]) ∧
    exec (.fromFaceIjSame face true) s = .next (replied s .ok [w]) ∧
    isCellAt w 30 ∧ faceField w = face

/-- TO_FACE_IJO of a valid cell x answers its face, the grid coordinates of the leaf `x | 1`, and the orientation that the
curve has after the cell's own levels (R152, R153, R163 (a), (b)). In the spec the meaning in R152 and R163 are marked
derived. R231's remark on i mod sizeIJ(L) is not followed (log 21). -/
def Obligations.ToFaceIjoInvertsTheLeaf : Prop :=
  ∀ s : State, operational s → valid s.opa = true →
    ∃ (i j : Int) (o : Orientation),
      exec .toFaceIjo s =
        .next (replied s .ok [BitVec.ofNat 64 (faceField s.opa), BitVec.ofInt 64 i, BitVec.ofInt 64 j, o.setWidth 64]) ∧
      0 ≤ i ∧ i < 2 ^ 30 ∧ 0 ≤ j ∧ j < 2 ^ 30 ∧
      (BitVec.ofNat 64 (faceField s.opa) <<< 61) ||| (bitSerialEncode (faceField s.opa) i j <<< 1) ||| 1#64 = s.opa ||| 1#64 ∧
      o = (((List.range 30).reverse.take (level s.opa)).foldl (encodeBit i j)
            (0#64, faceOrientation (faceField s.opa))).2

/-! ## Transform -/

/-- FACE_UV_TO_XYZ answers the table of R102, negation being the sign flip, for every u, v that is no NaN (R110). -/
def Obligations.FaceUvToXyzAnswersTheFaceTable : Prop :=
  ∀ (s : State) (nu nv one mone : U64), Binary64.isNaN s.opa = false → Binary64.isNaN s.opb = false →
    nu = s.opa ^^^ 0x8000000000000000#64 → nv = s.opb ^^^ 0x8000000000000000#64 →
    one = 0x3FF0000000000000#64 → mone = 0xBFF0000000000000#64 →
    exec (.faceUvToXyz 0) s = .next (replied s .ok [one, s.opa, s.opb]) ∧
    exec (.faceUvToXyz 1) s = .next (replied s .ok [nu, one, s.opb]) ∧
    exec (.faceUvToXyz 2) s = .next (replied s .ok [nu, nv, one]) ∧
    exec (.faceUvToXyz 3) s = .next (replied s .ok [mone, nv, nu]) ∧
    exec (.faceUvToXyz 4) s = .next (replied s .ok [s.opb, mone, nu]) ∧
    exec (.faceUvToXyz 5) s = .next (replied s .ok [s.opb, s.opa, mone])

/-- XYZ_TO_FACE_UV of a finite non-zero vector takes the axis of largest magnitude (y on a tie with x, z on any tie) and its
sign (R103), and divides as R104 says (R111). -/
def Obligations.XyzToFaceUvTakesTheLargestAxis : Prop :=
  ∀ s : State, vectorInDomain s →
    ∃ (face : Nat) (u v : U64), exec .xyzToFaceUv s = .next (replied s .ok [BitVec.ofNat 64 face, u, v]) ∧
      ((face = 0 ∧ 0 < exactValue s.opa ∧ |exactValue s.opb| < |exactValue s.opa| ∧ |exactValue s.opc| < |exactValue s.opa| ∧
          u = Binary64.div s.opb s.opa ∧ v = Binary64.div s.opc s.opa) ∨
       (face = 1 ∧ 0 < exactValue s.opb ∧ |exactValue s.opa| ≤ |exactValue s.opb| ∧ |exactValue s.opc| < |exactValue s.opb| ∧
          u = Binary64.div (Binary64.neg s.opa) s.opb ∧ v = Binary64.div s.opc s.opb) ∨
       (face = 2 ∧ 0 < exactValue s.opc ∧ |exactValue s.opa| ≤ |exactValue s.opc| ∧ |exactValue s.opb| ≤ |exactValue s.opc| ∧
          u = Binary64.div (Binary64.neg s.opa) s.opc ∧ v = Binary64.div (Binary64.neg s.opb) s.opc) ∨
       (face = 3 ∧ exactValue s.opa < 0 ∧ |exactValue s.opb| < |exactValue s.opa| ∧ |exactValue s.opc| < |exactValue s.opa| ∧
          u = Binary64.div s.opc s.opa ∧ v = Binary64.div s.opb s.opa) ∨
       (face = 4 ∧ exactValue s.opb < 0 ∧ |exactValue s.opa| ≤ |exactValue s.opb| ∧ |exactValue s.opc| < |exactValue s.opb| ∧
          u = Binary64.div s.opc s.opb ∧ v = Binary64.div (Binary64.neg s.opa) s.opb) ∨
       (face = 5 ∧ exactValue s.opc < 0 ∧ |exactValue s.opa| ≤ |exactValue s.opc| ∧ |exactValue s.opb| ≤ |exactValue s.opc| ∧
          u = Binary64.div (Binary64.neg s.opb) s.opc ∧ v = Binary64.div (Binary64.neg s.opa) s.opc))

/-- Projecting a face point out and back gives the face and the coordinates exactly, for |u| < 1 and |v| < 1 (R105). In the
spec R105 is marked derived. -/
def Obligations.ProjectionRoundTripIsExact : Prop :=
  ∀ (face : Nat) (u v : U64), face < 6 → Binary64.isFinite u = true → Binary64.isFinite v = true →
    |exactValue u| < 1 → |exactValue v| < 1 →
    xyzToFaceUV (faceUVToXYZ face u v) = ⟨face, u, v⟩

/-- ST_TO_UV and UV_TO_ST answer the warp formulas, one rounded operation after another in the order written (R106, R107, R112,
R113), for every operand that is no NaN, infinities included. -/
def Obligations.WarpsAnswerTheirFormulas : Prop :=
  ∀ (s : State) (x : U64), x = s.opa → Binary64.isNaN x = false →
    exec .stToUv s = .next (replied s .ok
      [if Binary64.ge x 0x3FE0000000000000#64 then
        Binary64.mul 0x3FD5555555555555#64
          (Binary64.sub (Binary64.mul (Binary64.mul 0x4010000000000000#64 x) x) 0x3FF0000000000000#64)
      else
        Binary64.mul 0x3FD5555555555555#64
          (Binary64.sub 0x3FF0000000000000#64
            (Binary64.mul (Binary64.mul 0x4010000000000000#64 (Binary64.sub 0x3FF0000000000000#64 x))
              (Binary64.sub 0x3FF0000000000000#64 x)))]) ∧
    exec .uvToSt s = .next (replied s .ok
      [if Binary64.ge x 0x0000000000000000#64 then
        Binary64.mul 0x3FE0000000000000#64
          (Binary64.sqrt (Binary64.add 0x3FF0000000000000#64 (Binary64.mul 0x4008000000000000#64 x)))
      else
        Binary64.sub 0x3FF0000000000000#64
          (Binary64.mul 0x3FE0000000000000#64
            (Binary64.sqrt (Binary64.sub 0x3FF0000000000000#64 (Binary64.mul 0x4008000000000000#64 x))))])

/-- ST_TO_IJ answers `floor(2^30 · s)` of the exact value, clamped to 0..2^30 − 1, and the limits for the infinities (R108,
R114). That the product is taken exact for every finite s is the model's reading (log 12). -/
def Obligations.StToIjClampsTheExactFloor : Prop :=
  ∀ s : State,
    (Binary64.isFinite s.opa = true →
      exec .stToIj s = .next (replied s .ok
        [BitVec.ofInt 64 (max 0 (min (2 ^ 30 - 1) ⌊(2 : ℚ) ^ 30 * exactValue s.opa⌋))])) ∧
    (s.opa = 0x7FF0000000000000#64 → exec .stToIj s = .next (replied s .ok [0x3FFFFFFF#64])) ∧
    (s.opa = 0xFFF0000000000000#64 → exec .stToIj s = .next (replied s .ok [0#64]))

/-- R109, R115: IJ_TO_ST_MIN answers `i / 2^30` exactly, for every i in 0..2^30. -/
def Obligations.IjToStMinIsExact : Prop :=
  ∀ s : State, 0 ≤ s.opa.toInt → s.opa.toInt ≤ 2 ^ 30 →
    ∃ w : U64, exec .ijToStMin s = .next (replied s .ok [w]) ∧ Binary64.isFinite w = true ∧
      exactValue w = (s.opa.toInt : ℚ) / 2 ^ 30

/-- The fixed points of the warps, and quantizing the low edge of a grid cell gives the cell back (R116). In the spec R116
is marked derived. -/
def Obligations.TransformPropertiesHold : Prop :=
  stToUV 0x0000000000000000#64 = 0xBFF0000000000000#64 ∧ stToUV 0x3FE0000000000000#64 = 0x0000000000000000#64 ∧
  stToUV 0x3FF0000000000000#64 = 0x3FF0000000000000#64 ∧ uvToST 0xBFF0000000000000#64 = 0x0000000000000000#64 ∧
  uvToST 0x0000000000000000#64 = 0x3FE0000000000000#64 ∧ uvToST 0x3FF0000000000000#64 = 0x3FF0000000000000#64 ∧
  (∀ i : Int, 0 ≤ i → i ≤ 2 ^ 30 - 1 → stToIJ (ijToSTMin i) = i) ∧ stToIJ (ijToSTMin (2 ^ 30)) = 2 ^ 30 - 1

/-- Addition and subtraction of finite patterns are correctly rounded, an exact zero is +0 unless both terms are negative,
and an infinite term gives an infinity (R11, R100, R101). The sum of two unlike infinities is invalid and reached by no
command (log 11). -/
def Obligations.SumIsCorrectlyRounded : Prop :=
  (∀ x y : U64, Binary64.isFinite x = true → Binary64.isFinite y = true →
    roundsTo (((exactValue x + exactValue y : ℚ) : ℝ)) (Binary64.add x y) ∧
    roundsTo (((exactValue x - exactValue y : ℚ) : ℝ)) (Binary64.sub x y) ∧
    (exactValue x + exactValue y = 0 →
      Binary64.add x y = if x.msb && y.msb then 0x8000000000000000#64 else 0x0000000000000000#64) ∧
    (exactValue x - exactValue y = 0 →
      Binary64.sub x y = if x.msb && !y.msb then 0x8000000000000000#64 else 0x0000000000000000#64)) ∧
  (∀ (n : Bool) (x : U64), Binary64.isFinite x = true →
    Binary64.add (Binary64.infinity n) x = Binary64.infinity n ∧ Binary64.add x (Binary64.infinity n) = Binary64.infinity n ∧
    Binary64.sub (Binary64.infinity n) x = Binary64.infinity n ∧ Binary64.sub x (Binary64.infinity n) = Binary64.infinity !n) ∧
  (∀ n : Bool, Binary64.add (Binary64.infinity n) (Binary64.infinity n) = Binary64.infinity n ∧
    Binary64.sub (Binary64.infinity n) (Binary64.infinity !n) = Binary64.infinity n)

/-- Multiplication, and division by a non-zero pattern, of finite patterns are correctly rounded, and the sign, of a zero
too, is negative when the signs differ; so it is for the products and quotients with an infinity and for a non-zero pattern
over zero (R11, R100, R101). Zero times or over its like, and infinity over infinity, are invalid and reached by no command
(log 11). -/
def Obligations.ProductAndQuotientAreCorrectlyRounded : Prop :=
  (∀ x y : U64, Binary64.isFinite x = true → Binary64.isFinite y = true →
    roundsTo (((exactValue x * exactValue y : ℚ) : ℝ)) (Binary64.mul x y) ∧
    (Binary64.mul x y).msb = (x.msb ^^ y.msb) ∧
    (Binary64.isZero y = false →
      roundsTo (((exactValue x / exactValue y : ℚ) : ℝ)) (Binary64.div x y) ∧ (Binary64.div x y).msb = (x.msb ^^ y.msb)) ∧
    (Binary64.isZero y = true → Binary64.isZero x = false →
      Binary64.div x y = Binary64.infinity (x.msb ^^ y.msb))) ∧
  (∀ (n : Bool) (x : U64), Binary64.isFinite x = true →
    (Binary64.isZero x = false →
      Binary64.mul (Binary64.infinity n) x = Binary64.infinity (n ^^ x.msb) ∧
      Binary64.mul x (Binary64.infinity n) = Binary64.infinity (x.msb ^^ n)) ∧
    Binary64.div (Binary64.infinity n) x = Binary64.infinity (n ^^ x.msb) ∧
    Binary64.div x (Binary64.infinity n) = Binary64.zero (x.msb ^^ n)) ∧
  (∀ n m : Bool, Binary64.mul (Binary64.infinity n) (Binary64.infinity m) = Binary64.infinity (n ^^ m))

/-- The square root of a finite pattern that is not negative is correctly rounded and not negative, a zero is its own root,
sign included, and the root of +infinity is +infinity (R11, R100, R101). A negative operand is invalid and reached by no
command (log 11). -/
def Obligations.SquareRootIsCorrectlyRounded : Prop :=
  (∀ x : U64, Binary64.isFinite x = true → 0 ≤ exactValue x →
    roundsTo (Real.sqrt ((exactValue x : ℚ) : ℝ)) (Binary64.sqrt x) ∧
    (Binary64.isZero x = true → Binary64.sqrt x = x) ∧
    (Binary64.isZero x = false → (Binary64.sqrt x).msb = false)) ∧
  Binary64.sqrt (Binary64.infinity false) = Binary64.infinity false

/-! ## Codec -/

/-- FROM_FACE_IJ_WRAP, and FROM_FACE_IJ_SAME with SAME = 0, accept every i64 value of i and j and answer a valid leaf: i and
j are clamped to −1..2^30, their centres in the linear projection to ±(1 + 2^−52), and the point's own face and linear grid
coordinates give the leaf at the bit-serial position (R136, R154, R155, R157). In the spec R136 is marked derived. -/
def Obligations.WrapAnswersAValidLeaf : Prop :=
  ∀ (s : State) (face : Nat) (ci cj : Int), operational s → face < 6 →
    ci = max (-1) (min (2 ^ 30) s.opa.toInt) → cj = max (-1) (min (2 ^ 30) s.opb.toInt) →
    ∃ (u v : U64) (f : FaceUV) (w : U64),
      exec (.fromFaceIjWrap face) s = .next (replied s .ok [w]) ∧
      exec (.fromFaceIjSame face false) s = .next (replied s .ok [w]) ∧ isCellAt w 30 ∧
      Binary64.isFinite u = true ∧ Binary64.isFinite v = true ∧
      exactValue u = max (-(1 + 1 / 2 ^ 52)) (min (1 + 1 / 2 ^ 52) ((2 * (ci : ℚ) + 1 - 2 ^ 30) / 2 ^ 30)) ∧
      exactValue v = max (-(1 + 1 / 2 ^ 52)) (min (1 + 1 / 2 ^ 52) ((2 * (cj : ℚ) + 1 - 2 ^ 30) / 2 ^ 30)) ∧
      f = xyzToFaceUV (faceUVToXYZ face u v) ∧
      w = leafAt f.face
        (stToIJ (Binary64.mul 0x3FE0000000000000#64 (Binary64.add f.u 0x3FF0000000000000#64)))
        (stToIJ (Binary64.mul 0x3FE0000000000000#64 (Binary64.add f.v 0x3FF0000000000000#64)))

/-- On the grid the wrap-aware constructor answers what the same-face one answers (R154, 90_conflicts.md C6). In the spec
this sentence of R154 is marked derived. -/
def Obligations.WrapAgreesOnTheGrid : Prop :=
  ∀ (s : State) (face : Nat), face < 6 →
    0 ≤ s.opa.toInt → s.opa.toInt < 2 ^ 30 → 0 ≤ s.opb.toInt → s.opb.toInt < 2 ^ 30 →
    exec (.fromFaceIjWrap face) s = exec (.fromFaceIj face) s

/-- FROM_POINT of a finite non-zero vector answers a valid leaf, on the face that R103 selects: the leaf at the bit-serial
position of the quantized ST coordinates (R136, R158, R163 (c)). In the spec R136 and R163 are marked derived. -/
def Obligations.FromPointAnswersAValidLeaf : Prop :=
  ∀ (s : State) (f : FaceUV), operational s → vectorInDomain s → f = xyzToFaceUV ⟨s.opa, s.opb, s.opc⟩ →
    ∃ w : U64, exec .fromPoint s = .next (replied s .ok [w]) ∧ isCellAt w 30 ∧
      faceField w = faceOfVector ⟨s.opa, s.opb, s.opc⟩ ∧ w = leafAt f.face (stToIJ (uvToST f.u)) (stToIJ (uvToST f.v))

/-- FROM_FACE_POS_LEVEL answers a valid cell of the level on the face, with the bits of pos above the level's lsb (R159,
R163 (d)). In the spec R163 is marked derived. -/
def Obligations.FromFacePosLevelTruncates : Prop :=
  ∀ (s : State) (face lvl : Nat), face < 6 → lvl ≤ 30 → s.opa.toNat < 2 ^ 61 →
    ∃ w : U64, exec (.fromFacePosLevel face lvl) s = .next (replied s .ok [w]) ∧ isCellAt w lvl ∧ faceField w = face ∧
      w.toNat / 2 ^ (2 * (30 - lvl) + 1) = (face * 2 ^ 61 + s.opa.toNat) / 2 ^ (2 * (30 - lvl) + 1)

/-- FROM_FACE answers face · 2^61 + 2^60, BEGIN 2^(2(30 − L)), END 0xC000000000000000 + 2^(2(30 − L)) (R160, R161, R162). -/
def Obligations.FaceBeginAndEndAnswerTheirIds : Prop :=
  ∀ (s : State) (face lvl : Nat), face < 6 → lvl ≤ 30 →
    exec (.fromFace face) s = .next (replied s .ok [BitVec.ofNat 64 (face * 2 ^ 61 + 2 ^ 60)]) ∧
    exec (.beginAt lvl) s = .next (replied s .ok [BitVec.ofNat 64 (2 ^ (2 * (30 - lvl)))]) ∧
    exec (.endAt lvl) s = .next (replied s .ok [BitVec.ofNat 64 (0xC000000000000000 + 2 ^ (2 * (30 - lvl)))])

/-! ## Navigator -/

/-- FACE_OF, POS_OF and IS_LEAF are total reads of the raw fields of any u64 (R181, R182, R184). -/
def Obligations.AccessorsReadTheRawFields : Prop :=
  ∀ s : State,
    exec .faceOf s = .next (replied s .ok [s.opa >>> 61]) ∧
    exec .posOf s = .next (replied s .ok [s.opa &&& 0x1FFFFFFFFFFFFFFF#64]) ∧
    exec .isLeaf s = .next (replied s .ok [s.opa &&& 1#64])

/-- R25, R185: IS_VALID of any u64 is 1 exactly when the face is below 6 and the lsb lies on an admissible position; NONE,
SENTINEL and End(L) are not valid. -/
def Obligations.IsValidAnswersTheValidityPredicate : Prop :=
  (∀ s : State, (s.opa >>> 61).toNat < 6 ∧ (s.opa &&& -s.opa) &&& 0x1555555555555555#64 ≠ 0#64 →
    exec .isValid s = .next (replied s .ok [1#64])) ∧
  (∀ s : State, ¬ ((s.opa >>> 61).toNat < 6 ∧ (s.opa &&& -s.opa) &&& 0x1555555555555555#64 ≠ 0#64) →
    exec .isValid s = .next (replied s .ok [0#64])) ∧
  valid 0#64 = false ∧ valid 0xFFFFFFFFFFFFFFFF#64 = false ∧
  ∀ lvl, lvl ≤ 30 → valid (BitVec.ofNat 64 (0xC000000000000000 + 2 ^ (2 * (30 - lvl)))) = false

/-- Every valid id of level L is f · 2^61 + k · 2^(2(30 − L) + 1) + 2^(2(30 − L)) with f < 6 and k < 4^L, every such number
is valid, and LEVEL_OF answers that L (R26, R183, R201 (a)). In the spec R201 is marked derived. -/
def Obligations.LevelOfReadsTheLayout : Prop :=
  (∀ s : State, valid s.opa = true →
    ∃ f k lvl : Nat, f < 6 ∧ lvl ≤ 30 ∧ k < 4 ^ lvl ∧
      s.opa.toNat = f * 2 ^ 61 + k * 2 ^ (2 * (30 - lvl) + 1) + 2 ^ (2 * (30 - lvl)) ∧
      exec .levelOf s = .next (replied s .ok [BitVec.ofNat 64 lvl])) ∧
  (∀ f k lvl : Nat, f < 6 → lvl ≤ 30 → k < 4 ^ lvl →
    isCellAt (BitVec.ofNat 64 (f * 2 ^ 61 + k * 2 ^ (2 * (30 - lvl) + 1) + 2 ^ (2 * (30 - lvl)))) lvl)

/-- PARENT answers the cell of the level that contains x, x itself at its own level (R186); IMM_PARENT is PARENT one level up
(R187). -/
def Obligations.ParentIsTheAncestor : Prop :=
  ∀ (s : State) (lvl : Nat), valid s.opa = true → lvl ≤ level s.opa →
    ∃ w : U64, exec (.parent lvl) s = .next (replied s .ok [w]) ∧ isCellAt w lvl ∧ contains w s.opa = true ∧
      (lvl = level s.opa → w = s.opa) ∧
      (lvl + 1 = level s.opa → exec .immParent s = .next (replied s .ok [w]))

/-- CHILD answers a valid cell one level down whose parent, immediate parent and child position lead back (R188, R202 (c)).
In the spec R202 is marked derived. -/
def Obligations.ChildLeadsBackToItsParent : Prop :=
  ∀ (s : State) (p : Nat), valid s.opa = true → level s.opa < 30 → p < 4 →
    ∃ w : U64, exec (.child p) s = .next (replied s .ok [w]) ∧ isCellAt w (level s.opa + 1) ∧
      ∀ t : State, t.opa = w →
        exec (.parent (level s.opa)) t = .next (replied t .ok [s.opa]) ∧
        exec .immParent t = .next (replied t .ok [s.opa]) ∧
        exec (.childPosition (level s.opa + 1)) t = .next (replied t .ok [BitVec.ofNat 64 p])

/-- CHILD_POSITION answers the position of the level-L ancestor among the children of the level-(L − 1) ancestor (R200). -/
def Obligations.ChildPositionIsTheSelector : Prop :=
  ∀ (s : State) (lvl : Nat), valid s.opa = true → 1 ≤ lvl → lvl ≤ level s.opa →
    ∃ p : Nat, p < 4 ∧ exec (.childPosition lvl) s = .next (replied s .ok [BitVec.ofNat 64 p]) ∧
      child (parent s.opa (lvl - 1)) p = parent s.opa lvl

/-- CHILDREN answers the four children in order; their ranges are contiguous and together are the parent's (R189, R202 (a)).
In the spec R28 and R202 are marked derived. -/
def Obligations.ChildrenPartitionTheirParent : Prop :=
  ∀ s : State, valid s.opa = true → level s.opa < 30 →
    ∃ c0 c1 c2 c3 : U64, exec .children s = .next (replied s .ok [c0, c1, c2, c3]) ∧
      isCellAt c0 (level s.opa + 1) ∧ isCellAt c1 (level s.opa + 1) ∧ isCellAt c2 (level s.opa + 1) ∧
      isCellAt c3 (level s.opa + 1) ∧
      rangeMin c0 = rangeMin s.opa ∧ (rangeMax c0).toNat + 2 = (rangeMin c1).toNat ∧
      (rangeMax c1).toNat + 2 = (rangeMin c2).toNat ∧ (rangeMax c2).toNat + 2 = (rangeMin c3).toNat ∧
      rangeMax c3 = rangeMax s.opa

/-- Iteration closure: NEXT four times from CHILD_BEGIN gives CHILD_END, by way of the four children (R190, R191, R194, R202
(b)). In the spec R202 is marked derived. -/
def Obligations.IterationFromChildBeginReachesChildEnd : Prop :=
  ∀ s : State, valid s.opa = true → level s.opa < 30 →
    ∃ b e : U64, exec .childBegin s = .next (replied s .ok [b]) ∧ exec .childEnd s = .next (replied s .ok [e]) ∧
      b = child s.opa 0 ∧ nextCell b = child s.opa 1 ∧ nextCell (nextCell b) = child s.opa 2 ∧
      nextCell (nextCell (nextCell b)) = child s.opa 3 ∧ nextCell (nextCell (nextCell (nextCell b))) = e

/-- CHILD_BEGIN_AT answers the level-L cell that starts where x starts; CHILD_END_AT answers one past the last level-L descendant,
x and NEXT of x at the cell's own level (R192, R193). -/
def Obligations.ChildBeginAtAndEndAtBoundTheSubtree : Prop :=
  ∀ (s : State) (lvl : Nat), valid s.opa = true → level s.opa ≤ lvl → lvl ≤ 30 →
    ∃ b e : U64, exec (.childBeginAt lvl) s = .next (replied s .ok [b]) ∧ exec (.childEndAt lvl) s = .next (replied s .ok [e]) ∧
      isCellAt b lvl ∧ rangeMin b = rangeMin s.opa ∧ e.toNat = (rangeMax s.opa).toNat + 1 + 2 ^ (2 * (30 - lvl)) ∧
      (lvl = level s.opa → b = s.opa ∧ exec .nextCell s = .next (replied s .ok [e]))

/-- NEXT answers x + 2 · lsb(x) without wrapping: the following cell of the same level, or End(L) after the last (R194, R201
(b), R202 (e)). In the spec R201 and R202 are marked derived. -/
def Obligations.NextIsTheSuccessor : Prop :=
  ∀ s : State, valid s.opa = true →
    ∃ w : U64, exec .nextCell s = .next (replied s .ok [w]) ∧
      w.toNat = s.opa.toNat + 2 * 2 ^ (2 * (30 - level s.opa)) ∧
      (isCellAt w (level s.opa) ∨ w.toNat = 0xC000000000000000 + 2 ^ (2 * (30 - level s.opa)))

/-- ADVANCE moves the index of x among the level-L cells by the steps, clamped to 0 (Begin) and 6 · 4^L (End), for every i64
step count (R195). In the spec the index sentence of R195 is marked derived. -/
def Obligations.AdvanceMovesTheClampedIndex : Prop :=
  ∀ (s : State) (lvl : Nat) (n : Int), valid s.opa = true → level s.opa = lvl →
    n = max 0 (min (6 * 4 ^ lvl) ((s.opa.toNat / 2 ^ (2 * (30 - lvl) + 1) : Nat) + s.opb.toInt)) →
    exec .advance s = .next (replied s .ok [BitVec.ofInt 64 (n * 2 ^ (2 * (30 - lvl) + 1) + 2 ^ (2 * (30 - lvl)))])

/-- The function of R195: advancing by m and then by n of the same sign is advancing by m + n (R202 (f)). In the spec R202
is marked derived. It is no law of two ADVANCE commands, since an id that is End(L) answers INVALID_CELL. -/
def Obligations.AdvanceComposes : Prop :=
  ∀ (x : U64) (m n : Int), valid x = true → (0 ≤ m ∧ 0 ≤ n ∨ m ≤ 0 ∧ n ≤ 0) →
    advance x (m + n) = advance (advance x m) n

/-- RANGE_MIN and RANGE_MAX answer the first and the last leaf of the subtree, without wrapping (R196, R197, R201 (b)). In
the spec R201 is marked derived. -/
def Obligations.RangeBoundsAreLeaves : Prop :=
  ∀ s : State, valid s.opa = true →
    ∃ a b : U64, exec .rangeMin s = .next (replied s .ok [a]) ∧ exec .rangeMax s = .next (replied s .ok [b]) ∧
      isCellAt a 30 ∧ isCellAt b 30 ∧
      a.toNat + 2 ^ (2 * (30 - level s.opa)) = s.opa.toNat + 1 ∧
      b.toNat + 1 = s.opa.toNat + 2 ^ (2 * (30 - level s.opa))

/-- CONTAINS is 1 exactly when B's leaf range lies in A's; INTERSECTS is 1 exactly when one contains the other (R198, R199,
R202 (d)). In the spec R202 is marked derived. -/
def Obligations.ContainmentIsConsistent : Prop :=
  ∀ s : State, valid s.opa = true → valid s.opb = true →
    exec .contains s = .next (replied s .ok
      [if (rangeMin s.opa).toNat ≤ (rangeMin s.opb).toNat ∧ (rangeMax s.opb).toNat ≤ (rangeMax s.opa).toNat
        then 1#64 else 0#64]) ∧
    exec .intersects s = .next (replied s .ok
      [if contains s.opa s.opb = true ∨ contains s.opb s.opa = true then 1#64 else 0#64])

/-- Every valid level-L cell lies between Begin(L) and End(L), and between NONE and SENTINEL (R27, R163 (e)). In the spec
R163 is marked derived. -/
def Obligations.BeginAndEndBoundTheLevel : Prop :=
  ∀ (x : U64) (lvl : Nat), isCellAt x lvl →
    2 ^ (2 * (30 - lvl)) ≤ x.toNat ∧ x.toNat < 0xC000000000000000 + 2 ^ (2 * (30 - lvl)) ∧
    0 < x.toNat ∧ x.toNat < 2 ^ 64 - 1

/-! ## Neighbours -/

/-- EDGE_NBRS of a valid cell answers, in the order S, E, N, W, the cells of its level at (i, j − n), (i + n, j), (i, j +
n), (i − n, j), through the cube where they leave the face (R232); they are valid, pairwise distinct and none is the cell
(R235, R237 (a), (b)); one that stays on the face is the square that abuts the cell's in its direction, so all four do for
an interior cell (R237 (c)). In the spec R235 and R237 are marked derived. -/
def Obligations.EdgeNeighboursAreCellsOfTheLevel : Prop :=
  ∀ (s : State) (d : FaceIJO) (n : Int), operational s → valid s.opa = true →
    d = toFaceIJO s.tblRead s.opa → n = 2 ^ (30 - level s.opa) →
    ∃ w0 w1 w2 w3 : U64, exec .edgeNbrs s = .next (replied s .ok [w0, w1, w2, w3]) ∧
      w0 = parent (fromFaceIJWrap s.tblRead d.face d.i (d.j - n)) (level s.opa) ∧
      w1 = parent (fromFaceIJWrap s.tblRead d.face (d.i + n) d.j) (level s.opa) ∧
      w2 = parent (fromFaceIJWrap s.tblRead d.face d.i (d.j + n)) (level s.opa) ∧
      w3 = parent (fromFaceIJWrap s.tblRead d.face (d.i - n) d.j) (level s.opa) ∧
      (∀ w ∈ [w0, w1, w2, w3], isCellAt w (level s.opa)) ∧ [s.opa, w0, w1, w2, w3].Nodup ∧
      (0 ≤ d.j - n → inSquare s.tblRead w0 d.face n (d.i / n) (d.j / n - 1)) ∧
      (d.i + n < 2 ^ 30 → inSquare s.tblRead w1 d.face n (d.i / n + 1) (d.j / n)) ∧
      (d.j + n < 2 ^ 30 → inSquare s.tblRead w2 d.face n (d.i / n) (d.j / n + 1)) ∧
      (0 ≤ d.i - n → inSquare s.tblRead w3 d.face n (d.i / n - 1) (d.j / n))

/-- VERTEX_NBRS answers the ancestor, then the cells of the level one ancestor's side n away in i, in j and in both, each
towards the half of the ancestor that the cell lies in, through the cube where they leave the face (R233); the last is left
out, for 3 words in all, exactly when both leave the face, and then the ancestor touches a cube corner (R237 (e)); the words
are valid and pairwise distinct (R235, R237 (a)), and one that stays on the face is the abutting square. In the spec R235
and R237 are marked derived. -/
def Obligations.VertexNeighboursAreCellsOfTheLevel : Prop :=
  ∀ (s : State) (lvl : Nat) (d : FaceIJO) (n oi oj : Int), operational s → valid s.opa = true → lvl < level s.opa →
    d = toFaceIJO s.tblRead s.opa → n = 2 ^ (30 - lvl) →
    oi = (if d.i / 2 ^ (29 - lvl) % 2 = 1 then n else -n) → oj = (if d.j / 2 ^ (29 - lvl) % 2 = 1 then n else -n) →
    ∃ (w1 w2 : U64) (rest : List U64),
      exec (.vertexNbrs lvl) s = .next (replied s .ok ([parent s.opa lvl, w1, w2] ++ rest)) ∧
      w1 = parent (fromFaceIJWrap s.tblRead d.face (d.i + oi) d.j) lvl ∧
      w2 = parent (fromFaceIJWrap s.tblRead d.face d.i (d.j + oj)) lvl ∧
      (0 ≤ d.i + oi ∧ d.i + oi < 2 ^ 30 ∨ 0 ≤ d.j + oj ∧ d.j + oj < 2 ^ 30 →
        rest = [parent (fromFaceIJWrap s.tblRead d.face (d.i + oi) (d.j + oj)) lvl]) ∧
      (¬(0 ≤ d.i + oi ∧ d.i + oi < 2 ^ 30) ∧ ¬(0 ≤ d.j + oj ∧ d.j + oj < 2 ^ 30) →
        rest = [] ∧ (d.i / n = 0 ∨ (d.i / n + 1) * n = 2 ^ 30) ∧ (d.j / n = 0 ∨ (d.j / n + 1) * n = 2 ^ 30)) ∧
      (∀ w ∈ [parent s.opa lvl, w1, w2] ++ rest, isCellAt w lvl) ∧ ([parent s.opa lvl, w1, w2] ++ rest).Nodup ∧
      (0 ≤ d.i + oi ∧ d.i + oi < 2 ^ 30 → inSquare s.tblRead w1 d.face n ((d.i + oi) / n) (d.j / n)) ∧
      (0 ≤ d.j + oj ∧ d.j + oj < 2 ^ 30 → inSquare s.tblRead w2 d.face n (d.i / n) ((d.j + oj) / n))

/-- ALL_NBRS streams exactly the list of its rule, 4 · 2^(NL − L) + 4 words, each a valid cell of the level (R234, R235,
R236, R237 (a)). In the spec R235 and R237 are marked derived. -/
def Obligations.AllNeighboursStreamTheList : Prop :=
  ∀ (s : State) (lvl : Nat), operational s → valid s.opa = true → level s.opa ≤ lvl → lvl ≤ 30 →
    ∃ r : InFlight, exec (.allNbrs lvl) s = .next (s.beginResponse r) ∧ r.status = .ok ∧ r.header = true ∧
      pendingWords s.tblRead r = allNbrs s.tblRead s.opa lvl ∧
      (pendingWords s.tblRead r).length = 4 * 2 ^ (lvl - level s.opa) + 4 ∧
      ∀ w ∈ pendingWords s.tblRead r, isCellAt w lvl
end

