-- ==== Sys2Proof/Laws/State.lean ====
section
/-! SUPPORT. One lemma per field and update of State, all true by rfl, so that no proof unfolds a record update. -/

namespace Sys2Proof.Machine

/-! ## `State.beginResponse` -/

@[simp] theorem State.beginResponse_lookupPos (s : State) (r : InFlight) : (s.beginResponse r).lookupPos = s.lookupPos := rfl
@[simp] theorem State.beginResponse_lookupIJ (s : State) (r : InFlight) : (s.beginResponse r).lookupIJ = s.lookupIJ := rfl
@[simp] theorem State.beginResponse_ready (s : State) (r : InFlight) : (s.beginResponse r).ready = s.ready := rfl
@[simp] theorem State.beginResponse_busy (s : State) (r : InFlight) : (s.beginResponse r).busy = true := rfl
@[simp] theorem State.beginResponse_inflight (s : State) (r : InFlight) : (s.beginResponse r).inflight = some r := rfl
@[simp] theorem State.beginResponse_queued (s : State) (r : InFlight) : (s.beginResponse r).queued = s.queued := rfl
@[simp] theorem State.beginResponse_rst (s : State) (r : InFlight) : (s.beginResponse r).rst = s.rst := rfl
@[simp] theorem State.beginResponse_cmdValid (s : State) (r : InFlight) : (s.beginResponse r).cmdValid = s.cmdValid := rfl
@[simp] theorem State.beginResponse_cmd (s : State) (r : InFlight) : (s.beginResponse r).cmd = s.cmd := rfl
@[simp] theorem State.beginResponse_opa (s : State) (r : InFlight) : (s.beginResponse r).opa = s.opa := rfl
@[simp] theorem State.beginResponse_opb (s : State) (r : InFlight) : (s.beginResponse r).opb = s.opb := rfl
@[simp] theorem State.beginResponse_opc (s : State) (r : InFlight) : (s.beginResponse r).opc = s.opc := rfl
@[simp] theorem State.beginResponse_rspReady (s : State) (r : InFlight) : (s.beginResponse r).rspReady = s.rspReady := rfl
@[simp] theorem State.beginResponse_resets (s : State) (r : InFlight) : (s.beginResponse r).resets = s.resets := rfl
@[simp] theorem State.beginResponse_script (s : State) (r : InFlight) : (s.beginResponse r).script = s.script := rfl

/-! ## `State.holdInReset` -/

@[simp] theorem State.holdInReset_lookupPos (s : State) : (s.holdInReset).lookupPos = [] := rfl
@[simp] theorem State.holdInReset_lookupIJ (s : State) : (s.holdInReset).lookupIJ = [] := rfl
@[simp] theorem State.holdInReset_ready (s : State) : (s.holdInReset).ready = false := rfl
@[simp] theorem State.holdInReset_busy (s : State) : (s.holdInReset).busy = false := rfl
@[simp] theorem State.holdInReset_inflight (s : State) : (s.holdInReset).inflight = none := rfl
@[simp] theorem State.holdInReset_queued (s : State) : (s.holdInReset).queued = none := rfl
@[simp] theorem State.holdInReset_rst (s : State) : (s.holdInReset).rst = s.rst := rfl
@[simp] theorem State.holdInReset_cmdValid (s : State) : (s.holdInReset).cmdValid = s.cmdValid := rfl
@[simp] theorem State.holdInReset_cmd (s : State) : (s.holdInReset).cmd = s.cmd := rfl
@[simp] theorem State.holdInReset_opa (s : State) : (s.holdInReset).opa = s.opa := rfl
@[simp] theorem State.holdInReset_opb (s : State) : (s.holdInReset).opb = s.opb := rfl
@[simp] theorem State.holdInReset_opc (s : State) : (s.holdInReset).opc = s.opc := rfl
@[simp] theorem State.holdInReset_rspReady (s : State) : (s.holdInReset).rspReady = s.rspReady := rfl
@[simp] theorem State.holdInReset_resets (s : State) : (s.holdInReset).resets = s.resets + 1 := rfl
@[simp] theorem State.holdInReset_script (s : State) : (s.holdInReset).script = s.script := rfl

/-! ## `State.endOffer` -/

@[simp] theorem State.endOffer_lookupPos (s : State) : (s.endOffer).lookupPos = s.lookupPos := rfl
@[simp] theorem State.endOffer_lookupIJ (s : State) : (s.endOffer).lookupIJ = s.lookupIJ := rfl
@[simp] theorem State.endOffer_ready (s : State) : (s.endOffer).ready = s.ready := rfl
@[simp] theorem State.endOffer_busy (s : State) : (s.endOffer).busy = s.busy := rfl
@[simp] theorem State.endOffer_inflight (s : State) : (s.endOffer).inflight = s.inflight := rfl
@[simp] theorem State.endOffer_queued (s : State) : (s.endOffer).queued = s.queued := rfl
@[simp] theorem State.endOffer_rst (s : State) : (s.endOffer).rst = s.rst := rfl
@[simp] theorem State.endOffer_cmdValid (s : State) : (s.endOffer).cmdValid = false := rfl
@[simp] theorem State.endOffer_cmd (s : State) : (s.endOffer).cmd = s.cmd := rfl
@[simp] theorem State.endOffer_opa (s : State) : (s.endOffer).opa = s.opa := rfl
@[simp] theorem State.endOffer_opb (s : State) : (s.endOffer).opb = s.opb := rfl
@[simp] theorem State.endOffer_opc (s : State) : (s.endOffer).opc = s.opc := rfl
@[simp] theorem State.endOffer_rspReady (s : State) : (s.endOffer).rspReady = s.rspReady := rfl
@[simp] theorem State.endOffer_resets (s : State) : (s.endOffer).resets = s.resets := rfl
@[simp] theorem State.endOffer_script (s : State) : (s.endOffer).script = s.script := rfl

/-! ## `State.initialise` -/

@[simp] theorem State.initialise_lookupPos (s : State) : (s.initialise).lookupPos = Table.fill (generatedEntry .lookupPos) := rfl
@[simp] theorem State.initialise_lookupIJ (s : State) : (s.initialise).lookupIJ = Table.fill (generatedEntry .lookupIJ) := rfl
@[simp] theorem State.initialise_ready (s : State) : (s.initialise).ready = true := rfl
@[simp] theorem State.initialise_busy (s : State) : (s.initialise).busy = s.busy := rfl
@[simp] theorem State.initialise_inflight (s : State) : (s.initialise).inflight = s.inflight := rfl
@[simp] theorem State.initialise_queued (s : State) : (s.initialise).queued = s.queued := rfl
@[simp] theorem State.initialise_rst (s : State) : (s.initialise).rst = s.rst := rfl
@[simp] theorem State.initialise_cmdValid (s : State) : (s.initialise).cmdValid = s.cmdValid := rfl
@[simp] theorem State.initialise_cmd (s : State) : (s.initialise).cmd = s.cmd := rfl
@[simp] theorem State.initialise_opa (s : State) : (s.initialise).opa = s.opa := rfl
@[simp] theorem State.initialise_opb (s : State) : (s.initialise).opb = s.opb := rfl
@[simp] theorem State.initialise_opc (s : State) : (s.initialise).opc = s.opc := rfl
@[simp] theorem State.initialise_rspReady (s : State) : (s.initialise).rspReady = s.rspReady := rfl
@[simp] theorem State.initialise_resets (s : State) : (s.initialise).resets = s.resets := rfl
@[simp] theorem State.initialise_script (s : State) : (s.initialise).script = s.script := rfl

/-! ## `replied` -/

@[simp] theorem replied_lookupPos (s : State) (st : Status) (ws : List U64) : (replied s st ws).lookupPos = s.lookupPos := rfl
@[simp] theorem replied_lookupIJ (s : State) (st : Status) (ws : List U64) : (replied s st ws).lookupIJ = s.lookupIJ := rfl
@[simp] theorem replied_ready (s : State) (st : Status) (ws : List U64) : (replied s st ws).ready = s.ready := rfl
@[simp] theorem replied_busy (s : State) (st : Status) (ws : List U64) : (replied s st ws).busy = true := rfl
@[simp] theorem replied_inflight (s : State) (st : Status) (ws : List U64) : (replied s st ws).inflight = some ⟨st, true, ws, none⟩ := rfl
@[simp] theorem replied_queued (s : State) (st : Status) (ws : List U64) : (replied s st ws).queued = s.queued := rfl
@[simp] theorem replied_rst (s : State) (st : Status) (ws : List U64) : (replied s st ws).rst = s.rst := rfl
@[simp] theorem replied_cmdValid (s : State) (st : Status) (ws : List U64) : (replied s st ws).cmdValid = s.cmdValid := rfl
@[simp] theorem replied_cmd (s : State) (st : Status) (ws : List U64) : (replied s st ws).cmd = s.cmd := rfl
@[simp] theorem replied_opa (s : State) (st : Status) (ws : List U64) : (replied s st ws).opa = s.opa := rfl
@[simp] theorem replied_opb (s : State) (st : Status) (ws : List U64) : (replied s st ws).opb = s.opb := rfl
@[simp] theorem replied_opc (s : State) (st : Status) (ws : List U64) : (replied s st ws).opc = s.opc := rfl
@[simp] theorem replied_rspReady (s : State) (st : Status) (ws : List U64) : (replied s st ws).rspReady = s.rspReady := rfl
@[simp] theorem replied_resets (s : State) (st : Status) (ws : List U64) : (replied s st ws).resets = s.resets := rfl
@[simp] theorem replied_script (s : State) (st : Status) (ws : List U64) : (replied s st ws).script = s.script := rfl

/-! ## `State.withFetchWord` -/

@[simp] theorem State.withFetchWord_lookupPos (s : State) (n w : Nat) : (s.withFetchWord n w).lookupPos = Table.fill (generatedEntry .lookupPos) := rfl
@[simp] theorem State.withFetchWord_lookupIJ (s : State) (n w : Nat) : (s.withFetchWord n w).lookupIJ = Table.fill (generatedEntry .lookupIJ) := rfl
@[simp] theorem State.withFetchWord_ready (s : State) (n w : Nat) : (s.withFetchWord n w).ready = true := rfl
@[simp] theorem State.withFetchWord_busy (s : State) (n w : Nat) : (s.withFetchWord n w).busy = false := rfl
@[simp] theorem State.withFetchWord_inflight (s : State) (n w : Nat) : (s.withFetchWord n w).inflight = none := rfl
@[simp] theorem State.withFetchWord_queued (s : State) (n w : Nat) : (s.withFetchWord n w).queued = none := rfl
@[simp] theorem State.withFetchWord_rst (s : State) (n w : Nat) : (s.withFetchWord n w).rst = false := rfl
@[simp] theorem State.withFetchWord_cmdValid (s : State) (n w : Nat) : (s.withFetchWord n w).cmdValid = true := rfl
@[simp] theorem State.withFetchWord_cmd (s : State) (n w : Nat) : (s.withFetchWord n w).cmd = BitVec.ofNat 32 (w % 2 ^ n) := rfl
@[simp] theorem State.withFetchWord_opa (s : State) (n w : Nat) : (s.withFetchWord n w).opa = s.opa := rfl
@[simp] theorem State.withFetchWord_opb (s : State) (n w : Nat) : (s.withFetchWord n w).opb = s.opb := rfl
@[simp] theorem State.withFetchWord_opc (s : State) (n w : Nat) : (s.withFetchWord n w).opc = s.opc := rfl
@[simp] theorem State.withFetchWord_rspReady (s : State) (n w : Nat) : (s.withFetchWord n w).rspReady = s.rspReady := rfl
@[simp] theorem State.withFetchWord_resets (s : State) (n w : Nat) : (s.withFetchWord n w).resets = s.resets := rfl
@[simp] theorem State.withFetchWord_script (s : State) (n w : Nat) : (s.withFetchWord n w).script = s.script := rfl

/-! ## `State.responseAside` -/

@[simp] theorem State.responseAside_lookupPos (s : State) : (s.responseAside).lookupPos = s.lookupPos := rfl
@[simp] theorem State.responseAside_lookupIJ (s : State) : (s.responseAside).lookupIJ = s.lookupIJ := rfl
@[simp] theorem State.responseAside_ready (s : State) : (s.responseAside).ready = s.ready := rfl
@[simp] theorem State.responseAside_busy (s : State) : (s.responseAside).busy = s.busy := rfl
@[simp] theorem State.responseAside_inflight (s : State) : (s.responseAside).inflight = none := rfl
@[simp] theorem State.responseAside_queued (s : State) : (s.responseAside).queued = s.queued := rfl
@[simp] theorem State.responseAside_rst (s : State) : (s.responseAside).rst = s.rst := rfl
@[simp] theorem State.responseAside_cmdValid (s : State) : (s.responseAside).cmdValid = s.cmdValid := rfl
@[simp] theorem State.responseAside_cmd (s : State) : (s.responseAside).cmd = s.cmd := rfl
@[simp] theorem State.responseAside_opa (s : State) : (s.responseAside).opa = s.opa := rfl
@[simp] theorem State.responseAside_opb (s : State) : (s.responseAside).opb = s.opb := rfl
@[simp] theorem State.responseAside_opc (s : State) : (s.responseAside).opc = s.opc := rfl
@[simp] theorem State.responseAside_rspReady (s : State) : (s.responseAside).rspReady = s.rspReady := rfl
@[simp] theorem State.responseAside_resets (s : State) : (s.responseAside).resets = s.resets := rfl
@[simp] theorem State.responseAside_script (s : State) : (s.responseAside).script = s.script := rfl

/-! ## `State.queueBehind` -/

@[simp] theorem State.queueBehind_lookupPos (r : Option InFlight) (s : State) : (s.queueBehind r).lookupPos = s.lookupPos := rfl
@[simp] theorem State.queueBehind_lookupIJ (r : Option InFlight) (s : State) : (s.queueBehind r).lookupIJ = s.lookupIJ := rfl
@[simp] theorem State.queueBehind_ready (r : Option InFlight) (s : State) : (s.queueBehind r).ready = s.ready := rfl
@[simp] theorem State.queueBehind_busy (r : Option InFlight) (s : State) : (s.queueBehind r).busy = s.busy := rfl
@[simp] theorem State.queueBehind_inflight (r : Option InFlight) (s : State) : (s.queueBehind r).inflight = r := rfl
@[simp] theorem State.queueBehind_queued (r : Option InFlight) (s : State) : (s.queueBehind r).queued = s.inflight := rfl
@[simp] theorem State.queueBehind_rst (r : Option InFlight) (s : State) : (s.queueBehind r).rst = s.rst := rfl
@[simp] theorem State.queueBehind_cmdValid (r : Option InFlight) (s : State) : (s.queueBehind r).cmdValid = s.cmdValid := rfl
@[simp] theorem State.queueBehind_cmd (r : Option InFlight) (s : State) : (s.queueBehind r).cmd = s.cmd := rfl
@[simp] theorem State.queueBehind_opa (r : Option InFlight) (s : State) : (s.queueBehind r).opa = s.opa := rfl
@[simp] theorem State.queueBehind_opb (r : Option InFlight) (s : State) : (s.queueBehind r).opb = s.opb := rfl
@[simp] theorem State.queueBehind_opc (r : Option InFlight) (s : State) : (s.queueBehind r).opc = s.opc := rfl
@[simp] theorem State.queueBehind_rspReady (r : Option InFlight) (s : State) : (s.queueBehind r).rspReady = s.rspReady := rfl
@[simp] theorem State.queueBehind_resets (r : Option InFlight) (s : State) : (s.queueBehind r).resets = s.resets := rfl
@[simp] theorem State.queueBehind_script (r : Option InFlight) (s : State) : (s.queueBehind r).script = s.script := rfl

end Sys2Proof.Machine
end

