-- ==== Sys2Proof/Laws/Tables.lean ====
section
/-! SUPPORT. The table memory: what a write and a fill leave to be read, and that every operation keeps the canonical form. -/

namespace Sys2Proof.Machine

/-- A write is read back at its own index. -/
@[simp] theorem Table.lookup_write_same (t : Table) (idx : Nat) (v : Entry) :
    (t.write idx v).lookup idx = some v := by
  induction t with
  | nil => simp [Table.write, Table.lookup]
  | cons p rest ih =>
    obtain ⟨n, u⟩ := p
    unfold Table.write
    split
    · simp [Table.lookup]
    · split
      · next h => simp [Table.lookup, h]
      · next h => simp [Table.lookup, Ne.symm h, ih]

/-- A write leaves every other index alone. -/
theorem Table.lookup_write_other (t : Table) {idx k : Nat} (v : Entry) (h : k ≠ idx) :
    (t.write idx v).lookup k = t.lookup k := by
  induction t with
  | nil => simp [Table.write, Table.lookup, Ne.symm h]
  | cons p rest ih =>
    obtain ⟨n, u⟩ := p
    unfold Table.write
    split
    · simp [Table.lookup, Ne.symm h]
    · split
      · next e => simp [Table.lookup, ← e, Ne.symm h]
      · simp [Table.lookup, ih]

theorem Table.risingFrom_mono {t : Table} {a b : Nat} (hab : a ≤ b) (h : t.risingFrom b = true) :
    t.risingFrom a = true := by
  cases t with
  | nil => rfl
  | cons p rest =>
    obtain ⟨n, u⟩ := p
    simp only [Table.risingFrom, Bool.and_eq_true, decide_eq_true_eq] at h ⊢
    exact ⟨⟨by omega, h.1.2⟩, h.2⟩

/-- A write at an index in range keeps a table rising from a bound the index respects. -/
theorem Table.risingFrom_write {t : Table} {lo idx : Nat} (v : Entry) (h : t.risingFrom lo = true) (hlo : lo ≤ idx)
    (hidx : idx < 1024) : (t.write idx v).risingFrom lo = true := by
  induction t generalizing lo with
  | nil => simp [Table.write, Table.risingFrom, Config.tableEntries, hlo, hidx]
  | cons p rest ih =>
    obtain ⟨n, u⟩ := p
    simp only [Table.risingFrom, Bool.and_eq_true, decide_eq_true_eq, Config.tableEntries] at h
    unfold Table.write
    split
    · next hlt =>
      simp [Table.risingFrom, Config.tableEntries, hlo, hidx, h.1.2, h.2]
      omega
    · split
      · simp [Table.risingFrom, Config.tableEntries, h.1.1, h.1.2, h.2]
      · next h1 h2 =>
        simp only [Table.risingFrom, Bool.and_eq_true, decide_eq_true_eq, Config.tableEntries]
        exact ⟨⟨h.1.1, h.1.2⟩, ih h.2 (by omega)⟩

/-- `TblWrite` keeps the canonical form (R51). -/
theorem Table.write_wf {t : Table} {idx : Nat} (v : Entry) (h : t.wf = true) (hidx : idx < 1024) :
    (t.write idx v).wf = true := Table.risingFrom_write v h (Nat.zero_le _) hidx

theorem Table.risingFrom_map_range' (f : Nat → Entry) (start len : Nat) (h : start + len ≤ 1024) :
    Table.risingFrom start ((List.range' start len).map (fun n => (n, f n))) = true := by
  induction len generalizing start with
  | zero => simp [Table.risingFrom]
  | succ len ih =>
    simp only [List.range'_succ, List.map_cons, Table.risingFrom, Bool.and_eq_true, decide_eq_true_eq]
    exact ⟨⟨Nat.le_refl _, show start < 1024 by omega⟩, ih (start + 1) (by omega)⟩

/-- The filled table is in canonical form. -/
@[simp] theorem Table.fill_wf (f : Entry → Entry) : (Table.fill f).wf = true := by
  unfold Table.wf Table.fill
  rw [List.range_eq_range']
  exact Table.risingFrom_map_range' (fun n => f (BitVec.ofNat 10 n)) 0 Config.tableEntries (by decide)

theorem Table.lookup_map_range' (f : Nat → Entry) (start len k : Nat) :
    Table.lookup ((List.range' start len).map (fun n => (n, f n))) k =
      if start ≤ k ∧ k < start + len then some (f k) else none := by
  induction len generalizing start with
  | zero => rw [if_neg (by omega)]; rfl
  | succ len ih =>
    simp only [List.range'_succ, List.map_cons, Table.lookup]
    split
    · next h => subst h; simp
    · next h =>
      rw [ih]
      exact if_congr (by omega) rfl rfl

/-- What the filled table holds at an index. -/
theorem Table.lookup_fill (f : Entry → Entry) (k : Nat) :
    (Table.fill f).lookup k = if k < 1024 then some (f (BitVec.ofNat 10 k)) else none := by
  unfold Table.fill
  rw [List.range_eq_range']
  have := Table.lookup_map_range' (fun n => f (BitVec.ofNat 10 n)) 0 Config.tableEntries k
  simpa [Config.tableEntries] using this

/-- A filled table reads its filling function everywhere. -/
@[simp] theorem Table.lookup_fill_entry (f : Entry → Entry) (idx : Entry) :
    (Table.fill f).lookup idx.toNat = some (f idx) := by
  rw [Table.lookup_fill, if_pos (by have := idx.isLt; omega)]
  simp

/-- The fill is the same as one `TblWrite` at every index, from the last to the first, on a table with nothing written (R291,
R292). -/
theorem Table.foldr_write_eq_map (f : Nat → Entry) (start len : Nat) :
    (List.range' start len).foldr (fun n t => Table.write t n (f n)) [] =
      (List.range' start len).map (fun n => (n, f n)) := by
  induction len generalizing start with
  | zero => rfl
  | succ len ih =>
    simp only [List.range'_succ, List.foldr_cons, List.map_cons]
    rw [ih]
    cases len with
    | zero => rfl
    | succ len => simp [List.range'_succ, Table.write]

/-- What `TblRead` answers once the tables are initialised (R30). -/
theorem State.tblRead_of_initialised {s : State} (h : tablesInitialised s) (T : TableName) (idx : Entry) :
    s.tblRead T idx = generatedEntry T idx := by
  unfold State.tblRead
  cases T <;> simp [State.table, h.1, h.2]

/-- `TblRead` depends only on the tables and on the counter of reset steps. -/
theorem State.tblRead_congr {s t : State} (hp : s.lookupPos = t.lookupPos) (hi : s.lookupIJ = t.lookupIJ)
    (hr : s.resets = t.resets) : s.tblRead = t.tblRead := by
  funext T idx
  cases T <;> simp [State.tblRead, State.table, hp, hi, hr]

/-- Initialisation leaves the memory in canonical form. -/
theorem memory_wf_initialise (s : State) : Memory.wf s.initialise = true := by
  simp [Memory.wf]

/-- Reset leaves the memory in canonical form. -/
theorem memory_wf_holdInReset (s : State) : Memory.wf s.holdInReset = true := rfl

/-- The memory after reset is in canonical form. -/
theorem memory_wf_reset : Memory.wf State.reset = true := rfl

end Sys2Proof.Machine
end

