-- ==== Sys2Proof/Laws/Response.lean ====
section
/-! SUPPORT. What each shared operation of the core can do, said once: starting a response, a check, the rest of a step, the
user's move, a beat transfer, a step. -/

namespace Sys2Proof.Machine

/-- Responding always gives a next state, with the response in flight. -/
@[simp] theorem State.respond_eq (s : State) (r : InFlight) : s.respond r = .next (s.beginResponse r) := rfl

/-- Starting an OK response of given words is the reply of the claims. -/
theorem State.beginResponse_okWith (s : State) (ws : List U64) : s.beginResponse (okWith ws) = replied s .ok ws := rfl

/-- Starting a failing response is the reply of the claims. -/
theorem State.beginResponse_failWith (s : State) (st : Status) : s.beginResponse (failWith st) = replied s st [] := rfl

/-- A check that holds goes on. -/
@[simp] theorem require_true (st : Status) (r : InFlight) : require true st r = r := rfl

/-- A check that fails ends the command with its status. -/
@[simp] theorem require_false (st : Status) (r : InFlight) : require false st r = failWith st := rfl

/-- A check either goes on or fails with its status. -/
theorem require_cases (c : Bool) (st : Status) (r : InFlight) :
    (c = true ∧ require c st r = r) ∨ (c = false ∧ require c st r = failWith st) := by
  cases c <;> simp

@[simp] theorem andThen_next (s : State) (f : State → State) : andThen (.next s) f = .next (f s) := rfl

/-- If `andThen` answers a next state, so did its first part. -/
theorem andThen_eq_next {o : Host.Outcome State Fault Refusal} {f : State → State} {t : State}
    (h : andThen o f = .next t) : ∃ s, o = .next s ∧ t = f s := by
  cases o with
  | next s => exact ⟨s, rfl, by simpa [andThen] using h.symm⟩
  | fault r => exact nomatch r
  | refused r => simp [andThen] at h

/-- The user's move changes only the input signals and the script (R33). -/
theorem State.userMove_spec (s : State) :
    s.userMove.lookupPos = s.lookupPos ∧ s.userMove.lookupIJ = s.lookupIJ ∧ s.userMove.ready = s.ready ∧
    s.userMove.busy = s.busy ∧ s.userMove.inflight = s.inflight ∧ s.userMove.resets = s.resets ∧
    s.userMove.queued = s.queued := by
  unfold State.userMove
  split <;> (try split) <;> simp

@[simp] theorem State.userMove_lookupPos (s : State) : s.userMove.lookupPos = s.lookupPos := s.userMove_spec.1
@[simp] theorem State.userMove_lookupIJ (s : State) : s.userMove.lookupIJ = s.lookupIJ := s.userMove_spec.2.1
@[simp] theorem State.userMove_ready (s : State) : s.userMove.ready = s.ready := s.userMove_spec.2.2.1
@[simp] theorem State.userMove_busy (s : State) : s.userMove.busy = s.busy := s.userMove_spec.2.2.2.1
@[simp] theorem State.userMove_inflight (s : State) : s.userMove.inflight = s.inflight := s.userMove_spec.2.2.2.2.1
@[simp] theorem State.userMove_resets (s : State) : s.userMove.resets = s.resets := s.userMove_spec.2.2.2.2.2.1
@[simp] theorem State.userMove_queued (s : State) : s.userMove.queued = s.queued := s.userMove_spec.2.2.2.2.2.2

/-- A user with nothing left to do changes nothing. -/
theorem State.userMove_nil {s : State} (h : s.script = []) : s.userMove = s := by
  unfold State.userMove; rw [h]

/-- A command that is still offered stays on the channel through the user's move (R295). -/
theorem State.userMove_offer {s : State} (h : s.cmdValid = true) :
    s.userMove.cmdValid = true ∧ s.userMove.cmd = s.cmd ∧ s.userMove.opa = s.opa ∧ s.userMove.opb = s.opb ∧
    s.userMove.opc = s.opc := by
  unfold State.userMove
  split <;> simp [h]

/-- The end of a response: the one queued behind it follows, or BUSY falls. -/
theorem State.endResponse_cases (s : State) :
    (∃ q, s.queued = some q ∧ s.endResponse = { s with inflight := some q, queued := none }) ∨
    (s.queued = none ∧ s.endResponse = { s with inflight := none, busy := false }) := by
  unfold State.endResponse
  cases h : s.queued with
  | some q => exact .inl ⟨q, rfl, rfl⟩
  | none => exact .inr ⟨rfl, rfl⟩

/-- A beat transfer: nothing without RSP_READY; else the response goes on, or ends. -/
theorem State.transferBeat_cases (s : State) (r : InFlight) :
    (s.rspReady = false ∧ s.transferBeat r = s) ∨
    (s.rspReady = true ∧ ∃ r', r.afterBeat s.tblRead = some r' ∧ s.transferBeat r = { s with inflight := some r' }) ∨
    (s.rspReady = true ∧ r.afterBeat s.tblRead = none ∧ s.transferBeat r = s.endResponse) := by
  unfold State.transferBeat
  cases h : s.rspReady
  · exact .inl ⟨rfl, by simp⟩
  · cases h' : r.afterBeat s.tblRead with
    | some r' => exact .inr (.inl ⟨rfl, r', rfl, by simp⟩)
    | none => exact .inr (.inr ⟨rfl, rfl, by simp⟩)

/-- The event of the core in reset (R290). -/
theorem coreStep_rst {s : State} (h : s.rst = true) : coreStep s = .next s.holdInReset := by simp [coreStep, h]

/-- The event of the core before READY (R291). -/
theorem coreStep_init {s : State} (h : s.rst = false) (hr : s.ready = false) : coreStep s = .next s.initialise := by
  simp [coreStep, h, hr]

/-- The event of the core with a response in flight and no command offered (R36). -/
theorem coreStep_beat {s : State} {r : InFlight} (h : s.rst = false) (hr : s.ready = true) (hi : s.inflight = some r)
    (hc : s.cmdValid = false) : coreStep s = .next (s.transferBeat r) := by simp [coreStep, h, hr, hi, hc]

/-- The event of the core with a response in flight and a command offered: accepted behind it or not, as P_OVERLAP says (R296). -/
theorem coreStep_overlap {s : State} {r : InFlight} (h : s.rst = false) (hr : s.ready = true) (hi : s.inflight = some r)
    (hc : s.cmdValid = true) (hq : s.queued = none) :
    coreStep s = if Config.overlap then acceptBehind s else .next (s.transferBeat r) := by
  simp [coreStep, h, hr, hi, hc, hq]

/-- The event of the core with two responses under way: a beat of the first (R52). -/
theorem coreStep_queued {s : State} {r q : InFlight} (h : s.rst = false) (hr : s.ready = true) (hi : s.inflight = some r)
    (hq : s.queued = some q) : coreStep s = .next (s.transferBeat r) := by simp [coreStep, h, hr, hi, hq]

/-- The event of an idle core with a command offered (R33). -/
theorem coreStep_accept {s : State} (h : accepting s) : coreStep s = accept s := by
  obtain ⟨h1, h2, h3, h4⟩ := h
  simp [coreStep, h1, h2, h3, h4]

/-- The event of an idle core with no command offered (R274). -/
theorem coreStep_idle {s : State} (h : s.rst = false) (hr : s.ready = true) (hi : s.inflight = none)
    (hc : s.cmdValid = false) : coreStep s = .next s := by simp [coreStep, h, hr, hi, hc]

/-- Everything a step can do: one event of the core, then the user's move. -/
theorem step_cases {s t : State} (h : step s = .next t) :
    ∃ u, coreStep s = .next u ∧ t = u.userMove := andThen_eq_next h

end Sys2Proof.Machine
end

