-- ==== Sys2Proof/Laws/PerInstr.lean ====
section
/-! SUPPORT. Facts about every command, one lemma per constructor of Instr. -/

namespace Sys2Proof.Laws

/-- The reserved fields RSV0 (7:6) and RSV1 (31:19) of an assembled command word are 0 (R71, R72). -/
theorem assemble_reserved (opc : BitVec 6) (f : CmdFields) : assemble opc f &&& 0xFFF800C0#32 = 0#32 := by
  ext n hn
  simp only [assemble, BitVec.getElem_and, BitVec.getElem_zero]
  have : n < 32 := hn
  interval_cases n <;> simp [BitVec.getElem_or, BitVec.getElem_shiftLeft, BitVec.getElem_setWidth]

namespace ReservedFieldsZero

/-- The command's word has its reserved fields 0 (R71, R72). -/
def Statement (i : Instr) : Prop := encode i &&& 0xFFF800C0#32 = 0#32

theorem tblPos : Statement .tblPos := assemble_reserved _ _
theorem tblIj : Statement .tblIj := assemble_reserved _ _
theorem faceUvToXyz (face : Nat) : Statement (.faceUvToXyz face) := assemble_reserved _ _
theorem xyzToFaceUv : Statement .xyzToFaceUv := assemble_reserved _ _
theorem stToUv : Statement .stToUv := assemble_reserved _ _
theorem uvToSt : Statement .uvToSt := assemble_reserved _ _
theorem stToIj : Statement .stToIj := assemble_reserved _ _
theorem ijToStMin : Statement .ijToStMin := assemble_reserved _ _
theorem fromFaceIj (face : Nat) : Statement (.fromFaceIj face) := assemble_reserved _ _
theorem toFaceIjo : Statement .toFaceIjo := assemble_reserved _ _
theorem fromFaceIjWrap (face : Nat) : Statement (.fromFaceIjWrap face) := assemble_reserved _ _
theorem fromFaceIjSame (face : Nat) (same : Bool) : Statement (.fromFaceIjSame face same) := assemble_reserved _ _
theorem fromPoint : Statement .fromPoint := assemble_reserved _ _
theorem fromFacePosLevel (face : Nat) (lvl : Nat) : Statement (.fromFacePosLevel face lvl) := assemble_reserved _ _
theorem fromFace (face : Nat) : Statement (.fromFace face) := assemble_reserved _ _
theorem beginAt (lvl : Nat) : Statement (.beginAt lvl) := assemble_reserved _ _
theorem endAt (lvl : Nat) : Statement (.endAt lvl) := assemble_reserved _ _
theorem faceOf : Statement .faceOf := assemble_reserved _ _
theorem posOf : Statement .posOf := assemble_reserved _ _
theorem levelOf : Statement .levelOf := assemble_reserved _ _
theorem isLeaf : Statement .isLeaf := assemble_reserved _ _
theorem isValid : Statement .isValid := assemble_reserved _ _
theorem parent (lvl : Nat) : Statement (.parent lvl) := assemble_reserved _ _
theorem immParent : Statement .immParent := assemble_reserved _ _
theorem child (cpos : Nat) : Statement (.child cpos) := assemble_reserved _ _
theorem children : Statement .children := assemble_reserved _ _
theorem childBegin : Statement .childBegin := assemble_reserved _ _
theorem childEnd : Statement .childEnd := assemble_reserved _ _
theorem childBeginAt (lvl : Nat) : Statement (.childBeginAt lvl) := assemble_reserved _ _
theorem childEndAt (lvl : Nat) : Statement (.childEndAt lvl) := assemble_reserved _ _
theorem nextCell : Statement .nextCell := assemble_reserved _ _
theorem advance : Statement .advance := assemble_reserved _ _
theorem rangeMin : Statement .rangeMin := assemble_reserved _ _
theorem rangeMax : Statement .rangeMax := assemble_reserved _ _
theorem contains : Statement .contains := assemble_reserved _ _
theorem intersects : Statement .intersects := assemble_reserved _ _
theorem childPosition (lvl : Nat) : Statement (.childPosition lvl) := assemble_reserved _ _
theorem edgeNbrs : Statement .edgeNbrs := assemble_reserved _ _
theorem vertexNbrs (lvl : Nat) : Statement (.vertexNbrs lvl) := assemble_reserved _ _
theorem allNbrs (lvl : Nat) : Statement (.allNbrs lvl) := assemble_reserved _ _

end ReservedFieldsZero

end Sys2Proof.Laws
end

