-- ==== Sys2Proof/Tests/Slice0.lean ====
section
/-! SUPPORT. The model's own tests: the encoding checks on ill-formed commands, one command word a command written out bit by
bit from the fields of R71 and the opcodes of R75, responses of spec/95_test_vectors.md, and for every statement with hypotheses
a state and operands that meet them all. -/

set_option Elab.async false

namespace Sys2Proof.Tests

open Sys2Proof.Machine

/-! ## WellFormed refuses what has no encoding -/

/-- LVL has 5 bits (R71). -/
theorem test_wellFormed_refuses_level_32 : (Instr.parent 32).wellFormed = false := by decide
/-- FACE has 3 bits (R71). -/
theorem test_wellFormed_refuses_face_8 : (Instr.fromFace 8).wellFormed = false := by decide
/-- CPOS has 2 bits (R71). -/
theorem test_wellFormed_refuses_cpos_4 : (Instr.child 4).wellFormed = false := by decide
/-- Both fields of FROM_FACE_POS_LEVEL are checked (R71). -/
theorem test_wellFormed_checks_both_fields :
    (Instr.fromFacePosLevel 8 31).wellFormed = false ∧ (Instr.fromFacePosLevel 7 32).wellFormed = false ∧
    (Instr.fromFacePosLevel 7 31).wellFormed = true := by decide

/-! ## Decoding, bit by bit: RSV1 (13), SAME, CPOS (2), FACE (3), LVL (5), RSV0 (2), OPC (6), from bit 31 down (R71) -/

theorem test_decode_tblPos : decode 0b0000000000000_0_00_000_00000_00_000001#32 = .ok .tblPos := by decide
theorem test_decode_tblIj : decode 0b0000000000000_0_00_000_00000_00_000010#32 = .ok .tblIj := by decide
theorem test_decode_faceUvToXyz : decode 0b0000000000000_0_00_101_00000_00_001000#32 = .ok (.faceUvToXyz 5) := by decide
theorem test_decode_xyzToFaceUv : decode 0b0000000000000_0_00_000_00000_00_001001#32 = .ok .xyzToFaceUv := by decide
theorem test_decode_stToUv : decode 0b0000000000000_0_00_000_00000_00_001010#32 = .ok .stToUv := by decide
theorem test_decode_uvToSt : decode 0b0000000000000_0_00_000_00000_00_001011#32 = .ok .uvToSt := by decide
theorem test_decode_stToIj : decode 0b0000000000000_0_00_000_00000_00_001100#32 = .ok .stToIj := by decide
theorem test_decode_ijToStMin : decode 0b0000000000000_0_00_000_00000_00_001101#32 = .ok .ijToStMin := by decide
theorem test_decode_fromFaceIj : decode 0b0000000000000_0_00_101_00000_00_010000#32 = .ok (.fromFaceIj 5) := by decide
theorem test_decode_toFaceIjo : decode 0b0000000000000_0_00_000_00000_00_010001#32 = .ok .toFaceIjo := by decide
theorem test_decode_fromFaceIjWrap : decode 0b0000000000000_0_00_101_00000_00_010010#32 = .ok (.fromFaceIjWrap 5) := by decide
theorem test_decode_fromFaceIjSame : decode 0b0000000000000_1_00_101_00000_00_010011#32 = .ok (.fromFaceIjSame 5 true) := by decide
theorem test_decode_fromPoint : decode 0b0000000000000_0_00_000_00000_00_010100#32 = .ok .fromPoint := by decide
theorem test_decode_fromFacePosLevel : decode 0b0000000000000_0_00_101_10011_00_010101#32 = .ok (.fromFacePosLevel 5 19) := by decide
theorem test_decode_fromFace : decode 0b0000000000000_0_00_101_00000_00_010110#32 = .ok (.fromFace 5) := by decide
theorem test_decode_beginAt : decode 0b0000000000000_0_00_000_10011_00_010111#32 = .ok (.beginAt 19) := by decide
theorem test_decode_endAt : decode 0b0000000000000_0_00_000_10011_00_011000#32 = .ok (.endAt 19) := by decide
theorem test_decode_faceOf : decode 0b0000000000000_0_00_000_00000_00_100000#32 = .ok .faceOf := by decide
theorem test_decode_posOf : decode 0b0000000000000_0_00_000_00000_00_100001#32 = .ok .posOf := by decide
theorem test_decode_levelOf : decode 0b0000000000000_0_00_000_00000_00_100010#32 = .ok .levelOf := by decide
theorem test_decode_isLeaf : decode 0b0000000000000_0_00_000_00000_00_100011#32 = .ok .isLeaf := by decide
theorem test_decode_isValid : decode 0b0000000000000_0_00_000_00000_00_100100#32 = .ok .isValid := by decide
theorem test_decode_parent : decode 0b0000000000000_0_00_000_10011_00_101000#32 = .ok (.parent 19) := by decide
theorem test_decode_immParent : decode 0b0000000000000_0_00_000_00000_00_101001#32 = .ok .immParent := by decide
theorem test_decode_child : decode 0b0000000000000_0_10_000_00000_00_101010#32 = .ok (.child 2) := by decide
theorem test_decode_children : decode 0b0000000000000_0_00_000_00000_00_101011#32 = .ok .children := by decide
theorem test_decode_childBegin : decode 0b0000000000000_0_00_000_00000_00_101100#32 = .ok .childBegin := by decide
theorem test_decode_childEnd : decode 0b0000000000000_0_00_000_00000_00_101101#32 = .ok .childEnd := by decide
theorem test_decode_childBeginAt : decode 0b0000000000000_0_00_000_10011_00_101110#32 = .ok (.childBeginAt 19) := by decide
theorem test_decode_childEndAt : decode 0b0000000000000_0_00_000_10011_00_101111#32 = .ok (.childEndAt 19) := by decide
theorem test_decode_nextCell : decode 0b0000000000000_0_00_000_00000_00_110000#32 = .ok .nextCell := by decide
theorem test_decode_advance : decode 0b0000000000000_0_00_000_00000_00_110001#32 = .ok .advance := by decide
theorem test_decode_rangeMin : decode 0b0000000000000_0_00_000_00000_00_110010#32 = .ok .rangeMin := by decide
theorem test_decode_rangeMax : decode 0b0000000000000_0_00_000_00000_00_110011#32 = .ok .rangeMax := by decide
theorem test_decode_contains : decode 0b0000000000000_0_00_000_00000_00_110100#32 = .ok .contains := by decide
theorem test_decode_intersects : decode 0b0000000000000_0_00_000_00000_00_110101#32 = .ok .intersects := by decide
theorem test_decode_childPosition : decode 0b0000000000000_0_00_000_10011_00_110110#32 = .ok (.childPosition 19) := by decide
theorem test_decode_edgeNbrs : decode 0b0000000000000_0_00_000_00000_00_111000#32 = .ok .edgeNbrs := by decide
theorem test_decode_vertexNbrs : decode 0b0000000000000_0_00_000_10011_00_111001#32 = .ok (.vertexNbrs 19) := by decide
theorem test_decode_allNbrs : decode 0b0000000000000_0_00_000_10011_00_111010#32 = .ok (.allNbrs 19) := by decide

/-- Unassigned opcodes, nonzero reserved fields, nonzero unused fields (R72, R76). -/
theorem test_decode_refuses :
    decode 0x00000000#32 = .error .unassignedOpcode ∧ decode 0x0000003F#32 = .error .unassignedOpcode ∧
    decode 0x00000050#32 = .error .nonzeroReservedField ∧ decode 0x80000001#32 = .error .nonzeroReservedField ∧
    decode 0x00000120#32 = .error .nonzeroReservedField ∧ decode 0x00042010#32 = .error .nonzeroReservedField := by decide

/-! ## Responses of spec/95_test_vectors.md: one step from the idle core, the word offered with its operands -/

/-- The idle core after initialisation, with operands on the ports. -/
def ports (a b c : U64) : State := { State.reset.initialise with opa := a, opb := b, opc := c }

/-- The status and the words of the response that the next step starts to a command word. -/
def answer (w : CmdWord) (a b c : U64) : Option (Status × List U64) :=
  match step { ports a b c with cmdValid := true, cmd := w } with
  | .next t =>
    match t.inflight with
    | some r => some (r.status, pendingWords t.tblRead r)
    | none => none
  | .fault _ => none
  | .refused _ => none

/-- TBL_POS A=0x00000000000003FF → OK. -/
theorem test_tblPos_a :
    answer 0x00000001#32 0x00000000000003FF#64 0#64 0#64 =
      some (.ok, [0x3#64]) := by decide +kernel
/-- TBL_POS A=0x0000000000000400 → INVALID_INPUT. -/
theorem test_tblPos_b :
    answer 0x00000001#32 0x0000000000000400#64 0#64 0#64 =
      some (.invalidInput, []) := by decide +kernel
/-- TBL_IJ A=0x0000000000000004 → OK. -/
theorem test_tblIj_a :
    answer 0x00000002#32 0x0000000000000004#64 0#64 0#64 =
      some (.ok, [0x41#64]) := by decide +kernel
/-- TBL_IJ A=0x00000000000003FF → OK. -/
theorem test_tblIj_b :
    answer 0x00000002#32 0x00000000000003FF#64 0#64 0#64 =
      some (.ok, [0x3C3#64]) := by decide +kernel
/-- FACE_UV_TO_XYZ face=3 A=0.25 (0x3FD0000000000000), B=-0.5 (0xBFE0000000000000) → OK. -/
theorem test_faceUvToXyz_a :
    answer 0x00006008#32 0x3FD0000000000000#64 0xBFE0000000000000#64 0#64 =
      some (.ok, [0xBFF0000000000000#64, 0x3FE0000000000000#64, 0xBFD0000000000000#64]) := by decide +kernel
/-- FACE_UV_TO_XYZ face=1 A=NaN (0x7FF8000000000000), B=0.0 (0x0000000000000000) → INVALID_INPUT. -/
theorem test_faceUvToXyz_b :
    answer 0x00002008#32 0x7FF8000000000000#64 0#64 0#64 =
      some (.invalidInput, []) := by decide +kernel
/-- XYZ_TO_FACE_UV A=-0.3 (0xBFD3333333333333), B=0.2 (0x3FC999999999999A), C=0.9 (0x3FECCCCCCCCCCCCD) → OK. -/
theorem test_xyzToFaceUv_a :
    answer 0x00000009#32 0xBFD3333333333333#64 0x3FC999999999999A#64 0x3FECCCCCCCCCCCCD#64 =
      some (.ok, [0x2#64, 0x3FD5555555555555#64, 0xBFCC71C71C71C71D#64]) := by decide +kernel
/-- XYZ_TO_FACE_UV A=1.0 (0x3FF0000000000000), B=0.0 (0x0000000000000000), C=1.0 (0x3FF0000000000000) → OK. -/
theorem test_xyzToFaceUv_b :
    answer 0x00000009#32 0x3FF0000000000000#64 0#64 0x3FF0000000000000#64 =
      some (.ok, [0x2#64, 0xBFF0000000000000#64, 0x8000000000000000#64]) := by decide +kernel
/-- ST_TO_UV A=0.25 (0x3FD0000000000000) → OK. -/
theorem test_stToUv_a :
    answer 0x0000000A#32 0x3FD0000000000000#64 0#64 0#64 =
      some (.ok, [0xBFDAAAAAAAAAAAAA#64]) := by decide +kernel
/-- ST_TO_UV A=1.5 (0x3FF8000000000000) → OK. -/
theorem test_stToUv_b :
    answer 0x0000000A#32 0x3FF8000000000000#64 0#64 0#64 =
      some (.ok, [0x4005555555555555#64]) := by decide +kernel
/-- UV_TO_ST A=-0.3 (0xBFD3333333333333) → OK. -/
theorem test_uvToSt_a :
    answer 0x0000000B#32 0xBFD3333333333333#64 0#64 0#64 =
      some (.ok, [0x3FD3E41B758A91BA#64]) := by decide +kernel
/-- UV_TO_ST A=NaN (0x7FF8000000000000) → INVALID_INPUT. -/
theorem test_uvToSt_b :
    answer 0x0000000B#32 0x7FF8000000000000#64 0#64 0#64 =
      some (.invalidInput, []) := by decide +kernel
/-- ST_TO_IJ A=9.313216432929039e-10 (0x3E0FFFFDE7210BE9) → OK. -/
theorem test_stToIj_a :
    answer 0x0000000C#32 0x3E0FFFFDE7210BE9#64 0#64 0#64 =
      some (.ok, [0x0#64]) := by decide +kernel
/-- ST_TO_IJ A=1.1 (0x3FF199999999999A) → OK. -/
theorem test_stToIj_b :
    answer 0x0000000C#32 0x3FF199999999999A#64 0#64 0#64 =
      some (.ok, [0x3FFFFFFF#64]) := by decide +kernel
/-- IJ_TO_ST_MIN A=1073741824 → OK. -/
theorem test_ijToStMin_a :
    answer 0x0000000D#32 0x0000000040000000#64 0#64 0#64 =
      some (.ok, [0x3FF0000000000000#64]) := by decide +kernel
/-- IJ_TO_ST_MIN A=-1 → INVALID_INPUT. -/
theorem test_ijToStMin_b :
    answer 0x0000000D#32 0xFFFFFFFFFFFFFFFF#64 0#64 0#64 =
      some (.invalidInput, []) := by decide +kernel
/-- FROM_FACE_IJ face=3 A=123456789, B=987654321 → OK. -/
theorem test_fromFaceIj_a :
    answer 0x00006010#32 0x00000000075BCD15#64 0x000000003ADE68B1#64 0#64 =
      some (.ok, [0x7FA6C56799769965#64]) := by decide +kernel
/-- FROM_FACE_IJ face=0 A=-1, B=0 → INVALID_INPUT. -/
theorem test_fromFaceIj_b :
    answer 0x00000010#32 0xFFFFFFFFFFFFFFFF#64 0#64 0#64 =
      some (.invalidInput, []) := by decide +kernel
/-- TO_FACE_IJO A=0x6370000000000000 → OK. -/
theorem test_toFaceIjo_a :
    answer 0x00000011#32 0x6370000000000000#64 0#64 0#64 =
      some (.ok, [0x3#64, 0xDFFFFFF#64, 0x19FFFFFF#64, 0x3#64]) := by decide +kernel
/-- TO_FACE_IJO A=0x7FA6C56799769965 → OK. -/
theorem test_toFaceIjo_b :
    answer 0x00000011#32 0x7FA6C56799769965#64 0#64 0#64 =
      some (.ok, [0x3#64, 0x75BCD15#64, 0x3ADE68B1#64, 0x1#64]) := by decide +kernel
/-- FROM_FACE_IJ_WRAP face=0 A=-1, B=5 → OK. -/
theorem test_fromFaceIjWrap_a :
    answer 0x00000012#32 0xFFFFFFFFFFFFFFFF#64 0x0000000000000005#64 0#64 =
      some (.ok, [0x9555555555555533#64]) := by decide +kernel
/-- FROM_FACE_IJ_WRAP face=2 A=-5000, B=-5000 → OK. -/
theorem test_fromFaceIjWrap_b :
    answer 0x00004012#32 0xFFFFFFFFFFFFEC78#64 0xFFFFFFFFFFFFEC78#64 0#64 =
      some (.ok, [0x3FFFFFFFFFFFFFFF#64]) := by decide +kernel
/-- FROM_FACE_IJ_SAME face=0 same=1 A=-1, B=5 → INVALID_INPUT. -/
theorem test_fromFaceIjSame_a :
    answer 0x00040013#32 0xFFFFFFFFFFFFFFFF#64 0x0000000000000005#64 0#64 =
      some (.invalidInput, []) := by decide +kernel
/-- FROM_FACE_IJ_SAME face=0 same=0 A=-1, B=5 → OK. -/
theorem test_fromFaceIjSame_b :
    answer 0x00000013#32 0xFFFFFFFFFFFFFFFF#64 0x0000000000000005#64 0#64 =
      some (.ok, [0x9555555555555533#64]) := by decide +kernel
/-- FROM_POINT A=0.3 (0x3FD3333333333333), B=-0.4 (0xBFD999999999999A), C=0.5 (0x3FE0000000000000) → OK. -/
theorem test_fromPoint_a :
    answer 0x00000014#32 0x3FD3333333333333#64 0xBFD999999999999A#64 0x3FE0000000000000#64 =
      some (.ok, [0x4B172B363C65CAD7#64]) := by decide +kernel
/-- FROM_POINT A=0.0 (0x0000000000000000), B=0.0 (0x0000000000000000), C=0.0 (0x0000000000000000) → INVALID_INPUT. -/
theorem test_fromPoint_b :
    answer 0x00000014#32 0#64 0#64 0#64 =
      some (.invalidInput, []) := by decide +kernel
/-- FROM_FACE_POS_LEVEL lvl=4 face=3 A=0x0370000000000000 → OK. -/
theorem test_fromFacePosLevel_a :
    answer 0x00006415#32 0x0370000000000000#64 0#64 0#64 =
      some (.ok, [0x6370000000000000#64]) := by decide +kernel
/-- FROM_FACE_POS_LEVEL lvl=31 face=7 A=0x4000000000000000 → INVALID_FACE. -/
theorem test_fromFacePosLevel_b :
    answer 0x0000FF15#32 0x4000000000000000#64 0#64 0#64 =
      some (.invalidFace, []) := by decide +kernel
/-- FROM_FACE face=5 → OK. -/
theorem test_fromFace_a :
    answer 0x0000A016#32 0#64 0#64 0#64 =
      some (.ok, [0xB000000000000000#64]) := by decide +kernel
/-- FROM_FACE face=7 → INVALID_FACE. -/
theorem test_fromFace_b :
    answer 0x0000E016#32 0#64 0#64 0#64 =
      some (.invalidFace, []) := by decide +kernel
/-- BEGIN lvl=4 → OK. -/
theorem test_beginAt_a :
    answer 0x00000417#32 0#64 0#64 0#64 =
      some (.ok, [0x10000000000000#64]) := by decide +kernel
/-- BEGIN lvl=31 → INVALID_LEVEL. -/
theorem test_beginAt_b :
    answer 0x00001F17#32 0#64 0#64 0#64 =
      some (.invalidLevel, []) := by decide +kernel
/-- END lvl=4 → OK. -/
theorem test_endAt_a :
    answer 0x00000418#32 0#64 0#64 0#64 =
      some (.ok, [0xC010000000000000#64]) := by decide +kernel
/-- END lvl=30 → OK. -/
theorem test_endAt_b :
    answer 0x00001E18#32 0#64 0#64 0#64 =
      some (.ok, [0xC000000000000001#64]) := by decide +kernel
/-- FACE_OF A=0xFFFFFFFFFFFFFFFF → OK. -/
theorem test_faceOf_a :
    answer 0x00000020#32 0xFFFFFFFFFFFFFFFF#64 0#64 0#64 =
      some (.ok, [0x7#64]) := by decide +kernel
/-- FACE_OF A=0xC010000000000000 → OK. -/
theorem test_faceOf_b :
    answer 0x00000020#32 0xC010000000000000#64 0#64 0#64 =
      some (.ok, [0x6#64]) := by decide +kernel
/-- POS_OF A=0x7FA6C56799769965 → OK. -/
theorem test_posOf_a :
    answer 0x00000021#32 0x7FA6C56799769965#64 0#64 0#64 =
      some (.ok, [0x1FA6C56799769965#64]) := by decide +kernel
/-- POS_OF A=0xFFFFFFFFFFFFFFFF → OK. -/
theorem test_posOf_b :
    answer 0x00000021#32 0xFFFFFFFFFFFFFFFF#64 0#64 0#64 =
      some (.ok, [0x1FFFFFFFFFFFFFFF#64]) := by decide +kernel
/-- LEVEL_OF A=0x6370000000000000 → OK. -/
theorem test_levelOf_a :
    answer 0x00000022#32 0x6370000000000000#64 0#64 0#64 =
      some (.ok, [0x4#64]) := by decide +kernel
/-- LEVEL_OF A=0x0000000000000002 → INVALID_CELL. -/
theorem test_levelOf_b :
    answer 0x00000022#32 0x0000000000000002#64 0#64 0#64 =
      some (.invalidCell, []) := by decide +kernel
/-- IS_LEAF A=0x7FA6C56799769965 → OK. -/
theorem test_isLeaf_a :
    answer 0x00000023#32 0x7FA6C56799769965#64 0#64 0#64 =
      some (.ok, [0x1#64]) := by decide +kernel
/-- IS_LEAF A=0x0000000000000000 → OK. -/
theorem test_isLeaf_b :
    answer 0x00000023#32 0#64 0#64 0#64 =
      some (.ok, [0x0#64]) := by decide +kernel
/-- IS_VALID A=0x6370000000000000 → OK. -/
theorem test_isValid_a :
    answer 0x00000024#32 0x6370000000000000#64 0#64 0#64 =
      some (.ok, [0x1#64]) := by decide +kernel
/-- IS_VALID A=0x0000000000000002 → OK. -/
theorem test_isValid_b :
    answer 0x00000024#32 0x0000000000000002#64 0#64 0#64 =
      some (.ok, [0x0#64]) := by decide +kernel
/-- PARENT lvl=2 A=0x6370000000000000 → OK. -/
theorem test_parent_a :
    answer 0x00000228#32 0x6370000000000000#64 0#64 0#64 =
      some (.ok, [0x6300000000000000#64]) := by decide +kernel
/-- PARENT lvl=31 A=0x0000000000000000 → INVALID_CELL. -/
theorem test_parent_b :
    answer 0x00001F28#32 0#64 0#64 0#64 =
      some (.invalidCell, []) := by decide +kernel
/-- IMM_PARENT A=0x6370000000000000 → OK. -/
theorem test_immParent_a :
    answer 0x00000029#32 0x6370000000000000#64 0#64 0#64 =
      some (.ok, [0x6340000000000000#64]) := by decide +kernel
/-- IMM_PARENT A=0x1000000000000000 → INVALID_LEVEL. -/
theorem test_immParent_b :
    answer 0x00000029#32 0x1000000000000000#64 0#64 0#64 =
      some (.invalidLevel, []) := by decide +kernel
/-- CHILD cpos=3 A=0x6370000000000000 → OK. -/
theorem test_child_a :
    answer 0x0003002A#32 0x6370000000000000#64 0#64 0#64 =
      some (.ok, [0x637C000000000000#64]) := by decide +kernel
/-- CHILD cpos=0 A=0x7FA6C56799769965 → INVALID_LEVEL. -/
theorem test_child_b :
    answer 0x0000002A#32 0x7FA6C56799769965#64 0#64 0#64 =
      some (.invalidLevel, []) := by decide +kernel
/-- CHILDREN A=0x7FA6C56799769964 → OK. -/
theorem test_children_a :
    answer 0x0000002B#32 0x7FA6C56799769964#64 0#64 0#64 =
      some (.ok, [0x7FA6C56799769961#64, 0x7FA6C56799769963#64, 0x7FA6C56799769965#64, 0x7FA6C56799769967#64]) := by decide +kernel
/-- CHILDREN A=0x1000000000000000 → OK. -/
theorem test_children_b :
    answer 0x0000002B#32 0x1000000000000000#64 0#64 0#64 =
      some (.ok, [0x400000000000000#64, 0xC00000000000000#64, 0x1400000000000000#64, 0x1C00000000000000#64]) := by decide +kernel
/-- CHILD_BEGIN A=0x6370000000000000 → OK. -/
theorem test_childBegin_a :
    answer 0x0000002C#32 0x6370000000000000#64 0#64 0#64 =
      some (.ok, [0x6364000000000000#64]) := by decide +kernel
/-- CHILD_BEGIN A=0x7FA6C56799769965 → INVALID_LEVEL. -/
theorem test_childBegin_b :
    answer 0x0000002C#32 0x7FA6C56799769965#64 0#64 0#64 =
      some (.invalidLevel, []) := by decide +kernel
/-- CHILD_END A=0x6370000000000000 → OK. -/
theorem test_childEnd_a :
    answer 0x0000002D#32 0x6370000000000000#64 0#64 0#64 =
      some (.ok, [0x6384000000000000#64]) := by decide +kernel
/-- CHILD_END A=0xB000000000000000 → OK. -/
theorem test_childEnd_b :
    answer 0x0000002D#32 0xB000000000000000#64 0#64 0#64 =
      some (.ok, [0xC400000000000000#64]) := by decide +kernel
/-- CHILD_BEGIN_AT lvl=6 A=0x6370000000000000 → OK. -/
theorem test_childBeginAt_a :
    answer 0x0000062E#32 0x6370000000000000#64 0#64 0#64 =
      some (.ok, [0x6361000000000000#64]) := by decide +kernel
/-- CHILD_BEGIN_AT lvl=3 A=0x6370000000000000 → INVALID_LEVEL. -/
theorem test_childBeginAt_b :
    answer 0x0000032E#32 0x6370000000000000#64 0#64 0#64 =
      some (.invalidLevel, []) := by decide +kernel
/-- CHILD_END_AT lvl=6 A=0x6370000000000000 → OK. -/
theorem test_childEndAt_a :
    answer 0x0000062F#32 0x6370000000000000#64 0#64 0#64 =
      some (.ok, [0x6381000000000000#64]) := by decide +kernel
/-- CHILD_END_AT lvl=3 A=0x6370000000000000 → INVALID_LEVEL. -/
theorem test_childEndAt_b :
    answer 0x0000032F#32 0x6370000000000000#64 0#64 0#64 =
      some (.invalidLevel, []) := by decide +kernel
/-- NEXT A=0xB000000000000000 → OK. -/
theorem test_nextCell_a :
    answer 0x00000030#32 0xB000000000000000#64 0#64 0#64 =
      some (.ok, [0xD000000000000000#64]) := by decide +kernel
/-- NEXT A=0xC010000000000000 → INVALID_CELL. -/
theorem test_nextCell_b :
    answer 0x00000030#32 0xC010000000000000#64 0#64 0#64 =
      some (.invalidCell, []) := by decide +kernel
/-- ADVANCE A=0x6370000000000000, B=-3 → OK. -/
theorem test_advance_a :
    answer 0x00000031#32 0x6370000000000000#64 0xFFFFFFFFFFFFFFFD#64 0#64 =
      some (.ok, [0x6310000000000000#64]) := by decide +kernel
/-- ADVANCE A=0x6370000000000000, B=9223372036854775807 → OK. -/
theorem test_advance_b :
    answer 0x00000031#32 0x6370000000000000#64 0x7FFFFFFFFFFFFFFF#64 0#64 =
      some (.ok, [0xC010000000000000#64]) := by decide +kernel
/-- RANGE_MIN A=0x6370000000000000 → OK. -/
theorem test_rangeMin_a :
    answer 0x00000032#32 0x6370000000000000#64 0#64 0#64 =
      some (.ok, [0x6360000000000001#64]) := by decide +kernel
/-- RANGE_MIN A=0x1000000000000000 → OK. -/
theorem test_rangeMin_b :
    answer 0x00000032#32 0x1000000000000000#64 0#64 0#64 =
      some (.ok, [0x1#64]) := by decide +kernel
/-- RANGE_MAX A=0x6370000000000000 → OK. -/
theorem test_rangeMax_a :
    answer 0x00000033#32 0x6370000000000000#64 0#64 0#64 =
      some (.ok, [0x637FFFFFFFFFFFFF#64]) := by decide +kernel
/-- RANGE_MAX A=0x1000000000000000 → OK. -/
theorem test_rangeMax_b :
    answer 0x00000033#32 0x1000000000000000#64 0#64 0#64 =
      some (.ok, [0x1FFFFFFFFFFFFFFF#64]) := by decide +kernel
/-- CONTAINS A=0x6370000000000000, B=0x6374000000000000 → OK. -/
theorem test_contains_a :
    answer 0x00000034#32 0x6370000000000000#64 0x6374000000000000#64 0#64 =
      some (.ok, [0x1#64]) := by decide +kernel
/-- CONTAINS A=0x0000000000000000, B=0x6370000000000000 → INVALID_CELL. -/
theorem test_contains_b :
    answer 0x00000034#32 0#64 0x6370000000000000#64 0#64 =
      some (.invalidCell, []) := by decide +kernel
/-- INTERSECTS A=0x6374000000000000, B=0x6370000000000000 → OK. -/
theorem test_intersects_a :
    answer 0x00000035#32 0x6374000000000000#64 0x6370000000000000#64 0#64 =
      some (.ok, [0x1#64]) := by decide +kernel
/-- INTERSECTS A=0x6370000000000000, B=0x0000000000000000 → INVALID_CELL. -/
theorem test_intersects_b :
    answer 0x00000035#32 0x6370000000000000#64 0#64 0#64 =
      some (.invalidCell, []) := by decide +kernel
/-- CHILD_POSITION lvl=3 A=0x6370000000000000 → OK. -/
theorem test_childPosition_a :
    answer 0x00000336#32 0x6370000000000000#64 0#64 0#64 =
      some (.ok, [0x2#64]) := by decide +kernel
/-- CHILD_POSITION lvl=0 A=0x6370000000000000 → INVALID_LEVEL. -/
theorem test_childPosition_b :
    answer 0x00000036#32 0x6370000000000000#64 0#64 0#64 =
      some (.invalidLevel, []) := by decide +kernel
/-- EDGE_NBRS A=0x6370000000000000 → OK. -/
theorem test_edgeNbrs_a :
    answer 0x00000038#32 0x6370000000000000#64 0#64 0#64 =
      some (.ok, [0x6390000000000000#64, 0x6490000000000000#64, 0x6350000000000000#64, 0x6310000000000000#64]) := by decide +kernel
/-- EDGE_NBRS A=0x9555555555555555 → OK. -/
theorem test_edgeNbrs_b :
    answer 0x00000038#32 0x9555555555555555#64 0#64 0#64 =
      some (.ok, [0x9555555555555557#64, 0xBFFFFFFFFFFFFFFF#64, 0x1#64, 0x9555555555555553#64]) := by decide +kernel
/-- VERTEX_NBRS lvl=2 A=0x6370000000000000 → OK. -/
theorem test_vertexNbrs_a :
    answer 0x00000239#32 0x6370000000000000#64 0#64 0#64 =
      some (.ok, [0x6300000000000000#64, 0x6500000000000000#64, 0x7D00000000000000#64, 0x7B00000000000000#64]) := by decide +kernel
/-- VERTEX_NBRS lvl=0 A=0x0400000000000000 → OK. -/
theorem test_vertexNbrs_b :
    answer 0x00000039#32 0x0400000000000000#64 0#64 0#64 =
      some (.ok, [0x1000000000000000#64, 0x9000000000000000#64, 0xB000000000000000#64]) := by decide +kernel
/-- ALL_NBRS lvl=4 A=0x6370000000000000 → OK. -/
theorem test_allNbrs_a :
    answer 0x0000043A#32 0x6370000000000000#64 0#64 0#64 =
      some (.ok, [0x63B0000000000000#64, 0x6470000000000000#64, 0x6390000000000000#64, 0x6350000000000000#64, 0x6310000000000000#64, 0x6490000000000000#64, 0x6330000000000000#64, 0x64B0000000000000#64]) := by decide +kernel
/-- ALL_NBRS lvl=30 A=0x0000000000000001 → OK. -/
theorem test_allNbrs_b :
    answer 0x00001E3A#32 0x0000000000000001#64 0#64 0#64 =
      some (.ok, [0xBFFFFFFFFFFFFFFF#64, 0xBFFFFFFFFFFFFFF9#64, 0xBFFFFFFFFFFFFFFF#64, 0x7#64, 0x9555555555555555#64, 0x3#64, 0x9555555555555553#64, 0x5#64]) := by decide +kernel
/-- raw CMD=0x00000000, A=0x6370000000000000 → ILLEGAL_OP. -/
theorem test_illegal_a :
    answer 0x00000000#32 0x6370000000000000#64 0#64 0#64 =
      some (.illegalOp, []) := by decide +kernel
/-- raw CMD=0x00010039, A=0x6370000000000000 → ILLEGAL_OP. -/
theorem test_illegal_b :
    answer 0x00010039#32 0x6370000000000000#64 0#64 0#64 =
      some (.illegalOp, []) := by decide +kernel

/-! ## The channel -/

/-- FROM_FACE face=0 ; CMD=0x00000016, stored where the next step fetches (log 7). -/
theorem test_withFetchWord_runs_next :
    decodeTableWord 32 0x16 = some (.fromFace 0) ∧
    (match step (State.reset.withFetchWord 32 0x16) with
      | .next t => t.inflight
      | .fault _ => none
      | .refused _ => none) = some (okWith [0x1000000000000000#64]) := by decide +kernel

/-- From reset, the first step initialises: STAT goes from 0 to 0b01 (R34, R38, R293). -/
theorem test_first_step_initialises :
    State.reset.stat = 0#32 ∧
    (match step State.reset with
      | .next t => t.stat
      | .fault _ => 0#32
      | .refused _ => 0#32) = 1#32 := by decide +kernel

/-- RSP_LAST on the header of a failing response, on the last data beat of two (R36). -/
theorem test_rsp_last :
    (failWith .invalidCell).beat = some (.header 3#4 true) ∧ (okWith [5#64, 7#64]).beat = some (.header 0#4 false) ∧
    ({ okWith [5#64, 7#64] with header := false }).beat = some (.data 5#64 false) ∧
    ({ okWith [7#64] with header := false }).beat = some (.data 7#64 true) := by decide

/-! ## Witnesses: for every statement with hypotheses, a state and operands that meet them all -/

/-- The ports of the idle core leave it operational. -/
theorem ports_operational (a b c : U64) : operational (ports a b c) := ⟨rfl, rfl, rfl⟩

/-- The idle core with a command word offered. -/
def offered (w : CmdWord) : State := { ports 0#64 0#64 0#64 with cmdValid := true, cmd := w }

/-- The initialised core with a response in flight. -/
def sending (r : InFlight) : State := { ports 0#64 0#64 0#64 with busy := true, inflight := some r }

/-- A well formed response in flight gives a state with the invariant. -/
theorem sending_inv {r : InFlight} (h : ResponseOk r) : Inv (sending r) :=
  ⟨rfl, (fun h => nomatch h), fun _ => ⟨rfl, rfl⟩, by simp [Memory.wf, sending, ports, State.initialise],
    fun r' e => by cases e; exact h, (fun h => nomatch h), fun _ => rfl, fun _ h => nomatch h⟩

/-- The core held in reset, and the core before READY, with a command offered early. -/
def early (rst : Bool) : State := { State.reset with rst := rst, cmdValid := true, cmd := 0x00000028#32 }

/-- Such a core has the invariant. -/
theorem early_inv (rst : Bool) : Inv (early rst) :=
  ⟨rfl, fun _ => rfl, (fun h => nomatch h), rfl, (fun _ h => nomatch h), (fun h => nomatch h), fun _ => rfl,
    fun _ h => nomatch h⟩

theorem test_witness_DecodeOfEncodeIsTheCommand :
    (Instr.fromFacePosLevel 7 31).wellFormed = true ∧ (Instr.child 3).wellFormed = true := by decide

theorem test_witness_EncodeOfDecodeIsTheWord : decode 0x0000FF15#32 = .ok (.fromFacePosLevel 7 31) := by decide

/-- One illegal word for each way to be illegal, and one that is not. -/
theorem test_witness_IllegalWordAnswersIllegalOp :
    (∀ w, accepting (offered w) ∧ (offered w).cmd = w) ∧
    (illegalWord 0x00000000#32 ∧ illegalWord 0x00000050#32 ∧ illegalWord 0x80000001#32 ∧ illegalWord 0x00000120#32 ∧
      illegalWord 0x00002020#32 ∧ illegalWord 0x00010039#32 ∧ illegalWord 0x00042010#32) ∧
    ¬ illegalWord 0x00042013#32 :=
  ⟨fun _ => ⟨⟨rfl, rfl, rfl, rfl⟩, rfl⟩, by refine ⟨?_, ?_, ?_, ?_, ?_, ?_, ?_⟩ <;> (unfold illegalWord; decide),
    by unfold illegalWord; decide⟩

/-- The core with a response in flight, a command word offered. -/
def offeredBehind (w : CmdWord) (queued : Option InFlight) : State :=
  { offered w with busy := true, inflight := some (okWith [1#64]), queued := queued }

/-- A command on the idle core; a legal and an illegal one behind a response; one that CMD_READY = 0 keeps waiting. -/
theorem test_witness_StepRunsTheDecodedCommand :
    (accepting (offered 0x00000228#32) ∧ decode (offered 0x00000228#32).cmd = .ok (.parent 2)) ∧
    (∀ w, (offeredBehind w none).rst = false ∧ (offeredBehind w none).ready = true ∧
      (offeredBehind w none).inflight = some (okWith [1#64]) ∧ (offeredBehind w none).queued = none ∧
      (offeredBehind w none).cmdValid = true ∧ (offeredBehind w none).cmd = w) ∧
    decode 0x00000228#32 = .ok (.parent 2) ∧ illegalWord 0x00000050#32 ∧
    (offeredBehind 0#32 (some (okWith []))).cmdValid = true ∧ (offeredBehind 0#32 (some (okWith []))).cmdReady = false :=
  ⟨⟨⟨rfl, rfl, rfl, rfl⟩, by decide⟩, fun _ => ⟨rfl, rfl, rfl, rfl, rfl, rfl⟩, by decide, by unfold illegalWord; decide,
    rfl, rfl⟩

theorem test_witness_OfferIsHeldUntilAccepted :
    (early false).cmdValid = true ∧ (early false).cmdReady = false := by decide

theorem test_witness_EarlyCommandWaitsForReady :
    ∀ rst, Inv (early rst) ∧ (early rst).ready = false ∧ (early rst).cmdValid = true :=
  fun rst => ⟨early_inv rst, rfl, rfl⟩

theorem test_witness_InitialisationWritesTheGeneratorValues :
    State.reset.rst = false ∧ State.reset.ready = false ∧ ⟨.lookupPos, 0, 0⟩ ∈ generatorWrites := by decide +kernel

theorem test_witness_GeneratorWritesEveryIndexOnce : ⟨.lookupIJ, 0x3FF, 0x3C3⟩ ∈ generatorWrites := by decide +kernel

theorem test_witness_ReadyAndTablesStayUntilReset :
    (ports 0#64 0#64 0#64).rst = false ∧ (ports 0#64 0#64 0#64).ready = true := ⟨rfl, rfl⟩

theorem test_witness_ResetHoldsTheCore : (early true).rst = true := rfl

/-- A failing response, a finite one and one of the ALL_NBRS loop (a leaf cell, one iteration to go). -/
theorem test_witness_EveryResponseIsDeliveredWhole :
    ∀ r ∈ [failWith .invalidCell, okWith [1#64, 3#64],
        { status := .ok, header := true, words := [5#64, 7#64],
          loop := some { face := 5, i := 0, j := 1073741823, size := 1, ns := 1, level := 30, k := 1 } }],
      Inv (sending r) ∧ (sending r).rst = false ∧ (sending r).rspReady = true ∧ (sending r).cmdValid = false ∧
      (sending r).script = [] ∧
      (sending r).inflight = some r ∧ r.header = true := by
  intro r hr
  simp only [List.mem_cons, List.not_mem_nil, or_false] at hr
  obtain rfl | rfl | rfl := hr
  · exact ⟨sending_inv ⟨nofun, fun _ => ⟨rfl, rfl, rfl⟩, nofun⟩, rfl, rfl, rfl, rfl, rfl, rfl⟩
  · exact ⟨sending_inv ⟨nofun, fun h => absurd rfl h, nofun⟩, rfl, rfl, rfl, rfl, rfl, rfl⟩
  · refine ⟨sending_inv ⟨nofun, fun h => absurd rfl h, ?_⟩, rfl, rfl, rfl, rfl, rfl, rfl⟩
    intro l e
    cases e
    exact ⟨by simp, by constructor <;> decide⟩

/-- With no command offered, and with one that CMD_READY = 0 keeps waiting. -/
theorem test_witness_UntakenBeatStallsTheCore :
    (∃ (s : State) (r : InFlight), s.rst = false ∧ s.ready = true ∧ s.inflight = some r ∧ s.rspReady = false ∧
      s.cmdValid = false ∧ s.script = []) ∧
    ∃ (s : State) (r : InFlight), s.rst = false ∧ s.ready = true ∧ s.inflight = some r ∧ s.rspReady = false ∧
      s.cmdValid = true ∧ s.cmdReady = false ∧ s.script = [] :=
  ⟨⟨{ sending (okWith [1#64]) with rspReady := false }, okWith [1#64], rfl, rfl, rfl, rfl, rfl, rfl⟩,
    ⟨{ offeredBehind 0#32 (some (okWith [])) with rspReady := false }, okWith [1#64], rfl, rfl, rfl, rfl, rfl, rfl, rfl⟩⟩

theorem test_witness_ResponseDependsOnlyOnCommandAndPorts :
    operational (sending (okWith [])) ∧ operational (ports 0#64 0#64 0#64) ∧
    (sending (okWith [])).opa = (ports 0#64 0#64 0#64).opa ∧ (sending (okWith [])).opb = (ports 0#64 0#64 0#64).opb ∧
    (sending (okWith [])).opc = (ports 0#64 0#64 0#64).opc :=
  ⟨⟨rfl, rfl, rfl⟩, ports_operational _ _ _, rfl, rfl, rfl⟩

theorem test_witness_InvariantIsKeptByEveryStep : ∃ t, Inv (early false) ∧ step (early false) = .next t :=
  ⟨_, early_inv false, rfl⟩

theorem test_witness_StatusRegisterIsLegal : Inv (sending (okWith [1#64])) ∧ (sending (okWith [1#64])).rst = false :=
  ⟨sending_inv ⟨nofun, fun h => absurd rfl h, nofun⟩, rfl⟩

theorem test_witness_InvalidIdAnswersInvalidCell :
    takesCell (.parent 31) = true ∧ valid (ports 0#64 2#64 0#64).opa = false ∧ valid (ports 0#64 2#64 0#64).opb = false := by
  decide

theorem test_witness_FaceOutOfRangeAnswersInvalidFace :
    faceArgument (.fromFacePosLevel 6 31) = some 6 ∧ faceArgument (.fromFace 7) = some 7 := by decide

theorem test_witness_LevelThirtyOneAnswersInvalidLevel :
    levelArgument (.fromFacePosLevel 5 31) = some 31 ∧ faceArgument (.fromFacePosLevel 5 31) = some 5 ∧
    takesCell (.fromFacePosLevel 5 31) = false ∧
    levelArgument (.allNbrs 31) = some 31 ∧ faceArgument (.allNbrs 31) = none ∧ valid (ports 1#64 0#64 0#64).opa = true := by
  decide

/-- A level-4 cell for the relations that a level below or above breaks, a face cell and a leaf for the ends. -/
theorem test_witness_LevelRelationAnswersInvalidLevel :
    valid 0x6370000000000000#64 = true ∧ level 0x6370000000000000#64 = 4 ∧
    valid 0x1000000000000000#64 = true ∧ level 0x1000000000000000#64 = 0 ∧ valid 1#64 = true ∧ level 1#64 = 30 := by decide

/-- Each numeric operand just outside its domain. -/
theorem test_witness_OperandOutOfDomainAnswersInvalidInput :
    (5 : Nat) < 6 ∧ (30 : Nat) ≤ 30 ∧ 1023 < (0x400#64).toNat ∧ Binary64.isNaN 0x7FF0000000000001#64 = true ∧
    ¬ vectorInDomain (ports 0#64 0x8000000000000000#64 0#64) ∧ ¬ vectorInDomain (ports 0x7FF0000000000000#64 0#64 0#64) ∧
    (-1#64).toInt < 0 ∧ 2 ^ 30 < (0x40000001#64).toInt ∧ ¬ (0x40000000#64).toInt < 2 ^ 30 ∧
    2 ^ 61 ≤ (0x2000000000000000#64).toNat := by
  unfold vectorInDomain; decide

theorem test_witness_TableReadsAnswerTheGeneratorValues :
    operational (ports 0x3FF#64 0#64 0#64) ∧ (ports 0x3FF#64 0#64 0#64).opa.toNat ≤ 1023 :=
  ⟨ports_operational _ _ _, by decide⟩

theorem test_witness_ChunkedInterleaveIsTheBitSerialOne :
    (5 : Nat) < 6 ∧ (0 : Int) ≤ 2 ^ 30 - 1 ∧ (2 ^ 30 - 1 : Int) < 2 ^ 30 := by decide

theorem test_witness_FromFaceIjAnswersTheLeaf :
    operational (ports 0x3FFFFFFF#64 0#64 0#64) ∧ (5 : Nat) < 6 ∧ 0 ≤ (0x3FFFFFFF#64).toInt ∧ (0x3FFFFFFF#64).toInt < 2 ^ 30 ∧
    0 ≤ (0#64).toInt ∧ (0#64).toInt < 2 ^ 30 := ⟨ports_operational _ _ _, by decide⟩

theorem test_witness_ToFaceIjoInvertsTheLeaf :
    operational (ports 0xBFFFFFFFFFFFFFFF#64 0#64 0#64) ∧ valid (ports 0xBFFFFFFFFFFFFFFF#64 0#64 0#64).opa = true :=
  ⟨ports_operational _ _ _, by decide⟩

theorem test_witness_FaceUvToXyzAnswersTheFaceTable :
    Binary64.isNaN 0x7FF0000000000000#64 = false ∧ Binary64.isNaN 0x8000000000000000#64 = false := by decide

theorem test_witness_XyzToFaceUvTakesTheLargestAxis :
    vectorInDomain (ports 0xBFF0000000000000#64 0xBFF0000000000000#64 0x8000000000000000#64) ∧
    vectorInDomain (ports 0#64 0#64 1#64) := by unfold vectorInDomain; decide

theorem test_witness_ProjectionRoundTripIsExact :
    (5 : Nat) < 6 ∧ Binary64.isFinite 0x3FEFFFFFFFFFFFFF#64 = true ∧ Binary64.isFinite 0x8000000000000000#64 = true ∧
    |exactValue 0x3FEFFFFFFFFFFFFF#64| < 1 ∧ |exactValue 0x8000000000000000#64| < 1 := by decide +kernel

theorem test_witness_WarpsAnswerTheirFormulas :
    Binary64.isNaN 0xFFF0000000000000#64 = false ∧ Binary64.isNaN 0x3FE0000000000000#64 = false := by decide

theorem test_witness_StToIjClampsTheExactFloor :
    Binary64.isFinite 0x7FEFFFFFFFFFFFFF#64 = true ∧ Binary64.isFinite 0x8000000000000001#64 = true := by decide

theorem test_witness_IjToStMinIsExact : 0 ≤ (0x40000000#64).toInt ∧ (0x40000000#64).toInt ≤ 2 ^ 30 := by decide

theorem test_witness_TransformPropertiesHold : (0 : Int) ≤ 2 ^ 30 - 1 ∧ (2 ^ 30 - 1 : Int) ≤ 2 ^ 30 - 1 := by decide

/-- The largest and the smallest magnitudes; two pairs whose sum or difference is an exact zero. -/
theorem test_witness_SumIsCorrectlyRounded :
    Binary64.isFinite 0x7FEFFFFFFFFFFFFF#64 = true ∧ Binary64.isFinite 0x0000000000000001#64 = true ∧
    Binary64.isFinite 0x8000000000000000#64 = true ∧
    exactValue 0x0000000000000001#64 - exactValue 0x0000000000000001#64 = 0 ∧
    exactValue 0x8000000000000000#64 + exactValue 0x8000000000000000#64 = 0 := by decide +kernel

/-- A product and a quotient at the ends of the range, and a quotient by zero. -/
theorem test_witness_ProductAndQuotientAreCorrectlyRounded :
    Binary64.isFinite 0x7FEFFFFFFFFFFFFF#64 = true ∧ Binary64.isFinite 0x0000000000000001#64 = true ∧
    Binary64.isZero 0x0000000000000001#64 = false ∧ Binary64.isFinite 0x8000000000000000#64 = true ∧
    Binary64.isZero 0x8000000000000000#64 = true := by decide

theorem test_witness_SquareRootIsCorrectlyRounded :
    Binary64.isFinite 0x4000000000000000#64 = true ∧ 0 ≤ exactValue 0x4000000000000000#64 ∧
    Binary64.isZero 0x4000000000000000#64 = false ∧ Binary64.isFinite 0x8000000000000000#64 = true ∧
    0 ≤ exactValue 0x8000000000000000#64 ∧ Binary64.isZero 0x8000000000000000#64 = true := by decide +kernel

theorem test_witness_WrapAnswersAValidLeaf : operational (ports (-1#64) 5#64 0#64) ∧ (5 : Nat) < 6 ∧
    operational (ports 0x7FFFFFFFFFFFFFFF#64 0x8000000000000000#64 0#64) :=
  ⟨ports_operational _ _ _, by decide, ports_operational _ _ _⟩

theorem test_witness_WrapAgreesOnTheGrid :
    (5 : Nat) < 6 ∧ 0 ≤ (ports 0#64 0x3FFFFFFF#64 0#64).opa.toInt ∧ (ports 0#64 0x3FFFFFFF#64 0#64).opa.toInt < 2 ^ 30 ∧
    0 ≤ (ports 0#64 0x3FFFFFFF#64 0#64).opb.toInt ∧ (ports 0#64 0x3FFFFFFF#64 0#64).opb.toInt < 2 ^ 30 := by decide

theorem test_witness_FromPointAnswersAValidLeaf :
    operational (ports 0#64 0#64 0xBFF0000000000000#64) ∧ vectorInDomain (ports 0#64 0#64 0xBFF0000000000000#64) :=
  ⟨ports_operational _ _ _, by unfold vectorInDomain; decide⟩

theorem test_witness_FromFacePosLevelTruncates :
    (5 : Nat) < 6 ∧ (30 : Nat) ≤ 30 ∧ (ports 0x1FFFFFFFFFFFFFFF#64 0#64 0#64).opa.toNat < 2 ^ 61 := by decide

theorem test_witness_FaceBeginAndEndAnswerTheirIds : (5 : Nat) < 6 ∧ (30 : Nat) ≤ 30 := by decide

/-- A valid id, and three that are not: NONE, End(0) and an id whose lowest bit is at an odd place. -/
theorem test_witness_IsValidAnswersTheValidityPredicate :
    ((0x6370000000000000#64 >>> 61).toNat < 6 ∧
      (0x6370000000000000#64 &&& -0x6370000000000000#64) &&& 0x1555555555555555#64 ≠ 0#64) ∧
    ¬ ((0#64 >>> 61).toNat < 6 ∧ (0#64 &&& -0#64) &&& 0x1555555555555555#64 ≠ 0#64) ∧
    ¬ (0xD000000000000000#64 >>> 61).toNat < 6 ∧
    ¬ (2#64 &&& -2#64) &&& 0x1555555555555555#64 ≠ 0#64 := by decide

theorem test_witness_LevelOfReadsTheLayout :
    valid (ports 0xBFFFFFFFFFFFFFFF#64 0#64 0#64).opa = true ∧
    (5 : Nat) < 6 ∧ (30 : Nat) ≤ 30 ∧ 4 ^ 30 - 1 < 4 ^ 30 := by decide

/-- A level-4 cell at its own level and one level up. -/
theorem test_witness_ParentIsTheAncestor :
    valid (ports 0x6370000000000000#64 0#64 0#64).opa = true ∧ 4 ≤ level (ports 0x6370000000000000#64 0#64 0#64).opa ∧
    3 + 1 = level (ports 0x6370000000000000#64 0#64 0#64).opa := by decide

/-- A cell of level 29 with its last child; the state on whose port that child stands. -/
theorem test_witness_ChildLeadsBackToItsParent :
    valid (ports 0x7FA6C56799769964#64 0#64 0#64).opa = true ∧ level (ports 0x7FA6C56799769964#64 0#64 0#64).opa < 30 ∧
    (3 : Nat) < 4 ∧ (ports 0x7FA6C56799769967#64 0#64 0#64).opa = child 0x7FA6C56799769964#64 3 := by decide

theorem test_witness_ChildPositionIsTheSelector :
    valid (ports 0x6370000000000000#64 0#64 0#64).opa = true ∧ 1 ≤ 4 ∧
    4 ≤ level (ports 0x6370000000000000#64 0#64 0#64).opa := by decide

theorem test_witness_ChildrenPartitionTheirParent :
    valid (ports 0x1000000000000000#64 0#64 0#64).opa = true ∧ level (ports 0x1000000000000000#64 0#64 0#64).opa < 30 := by
  decide

theorem test_witness_IterationFromChildBeginReachesChildEnd :
    valid (ports 0xB000000000000000#64 0#64 0#64).opa = true ∧ level (ports 0xB000000000000000#64 0#64 0#64).opa < 30 := by
  decide

/-- A level-4 cell down to its own level and down to the leaves. -/
theorem test_witness_ChildBeginAtAndEndAtBoundTheSubtree :
    valid (ports 0x6370000000000000#64 0#64 0#64).opa = true ∧ level (ports 0x6370000000000000#64 0#64 0#64).opa = 4 ∧
    (4 : Nat) ≤ 30 ∧ (30 : Nat) ≤ 30 := by decide

/-- The last leaf, after which comes End(30). -/
theorem test_witness_NextIsTheSuccessor : valid (ports 0xBFFFFFFFFFFFFFFF#64 0#64 0#64).opa = true := by decide

theorem test_witness_AdvanceMovesTheClampedIndex :
    valid (ports 0xBFFFFFFFFFFFFFFF#64 0x7FFFFFFFFFFFFFFF#64 0#64).opa = true ∧
    level (ports 0xBFFFFFFFFFFFFFFF#64 0x7FFFFFFFFFFFFFFF#64 0#64).opa = 30 := by decide

theorem test_witness_AdvanceComposes :
    valid 0x6370000000000000#64 = true ∧ ((0 : Int) ≤ 7 ∧ (0 : Int) ≤ 2 ^ 63 ∨ (7 : Int) ≤ 0 ∧ (2 ^ 63 : Int) ≤ 0) ∧
    ((0 : Int) ≤ -7 ∧ (0 : Int) ≤ -2 ^ 63 ∨ (-7 : Int) ≤ 0 ∧ (-2 ^ 63 : Int) ≤ 0) := by decide

theorem test_witness_RangeBoundsAreLeaves : valid (ports 0xB000000000000000#64 0#64 0#64).opa = true := by decide

theorem test_witness_ContainmentIsConsistent :
    valid (ports 0x6370000000000000#64 0x637FFFFFFFFFFFFF#64 0#64).opa = true ∧
    valid (ports 0x6370000000000000#64 0x637FFFFFFFFFFFFF#64 0#64).opb = true := by decide

theorem test_witness_BeginAndEndBoundTheLevel : isCellAt 0xBFFFFFFFFFFFFFFF#64 30 ∧ isCellAt 0x1000000000000000#64 0 := by
  unfold isCellAt; decide

/-- A leaf at a cube corner, and an interior cell, all of whose four neighbours stay on the face. -/
theorem test_witness_EdgeNeighboursAreCellsOfTheLevel :
    operational (ports 1#64 0#64 0#64) ∧ valid (ports 1#64 0#64 0#64).opa = true ∧
    operational (ports 0x6370000000000000#64 0#64 0#64) ∧ valid (ports 0x6370000000000000#64 0#64 0#64).opa = true ∧
    (toFaceIJO generatedEntry 0x6370000000000000#64).i + 2 ^ 26 < 2 ^ 30 ∧
    0 ≤ (toFaceIJO generatedEntry 0x6370000000000000#64).i - 2 ^ 26 ∧
    (toFaceIJO generatedEntry 0x6370000000000000#64).j + 2 ^ 26 < 2 ^ 30 ∧
    0 ≤ (toFaceIJO generatedEntry 0x6370000000000000#64).j - 2 ^ 26 :=
  ⟨ports_operational _ _ _, by decide, ports_operational _ _ _, by decide, by decide +kernel⟩

/-- The leaf at a cube corner, whose level-29 ancestor has 2 neighbours at its corner vertex, and a cell inside its face. -/
theorem test_witness_VertexNeighboursAreCellsOfTheLevel :
    operational (ports 1#64 0#64 0#64) ∧ valid (ports 1#64 0#64 0#64).opa = true ∧
    29 < level (ports 1#64 0#64 0#64).opa ∧ (vertexNbrs generatedEntry 1#64 29).length = 3 ∧
    operational (ports 0x6370000000000000#64 0#64 0#64) ∧ valid (ports 0x6370000000000000#64 0#64 0#64).opa = true ∧
    2 < level (ports 0x6370000000000000#64 0#64 0#64).opa ∧ (vertexNbrs generatedEntry 0x6370000000000000#64 2).length = 4 :=
  ⟨ports_operational _ _ _, by decide, by decide, by decide +kernel, ports_operational _ _ _, by decide, by decide,
    by decide +kernel⟩

theorem test_witness_AllNeighboursStreamTheList :
    operational (ports 0x1000000000000000#64 0#64 0#64) ∧ valid (ports 0x1000000000000000#64 0#64 0#64).opa = true ∧
    level (ports 0x1000000000000000#64 0#64 0#64).opa ≤ 0 ∧ level (ports 0x1000000000000000#64 0#64 0#64).opa ≤ 30 :=
  ⟨ports_operational _ _ _, by decide, by decide, by decide⟩

end Sys2Proof.Tests
end

