-- ==== Sys2Proof/Proofs/Binary64Patterns.lean ====
section
/-! SUPPORT. What the fields of a binary64 pattern are and which number a finite pattern stands for (R11, R53). -/

namespace Sys2Proof.Machine.Binary64

/-! ## The sign of a number -/

/-- The factor that a sign bit stands for. -/
def signFactor (n : Bool) : ℝ := if n then -1 else 1

@[simp] theorem signFactor_false : signFactor false = 1 := rfl
@[simp] theorem signFactor_true : signFactor true = -1 := rfl

theorem signFactor_not (n : Bool) : signFactor (!n) = -signFactor n := by cases n <;> simp

theorem signFactor_xor (n₁ n₂ : Bool) : signFactor (n₁ ^^ n₂) = signFactor n₁ * signFactor n₂ := by
  cases n₁ <;> cases n₂ <;> simp

@[simp] theorem signFactor_mul_self (n : Bool) : signFactor n * signFactor n = 1 := by cases n <;> simp

theorem signFactor_ne_zero (n : Bool) : signFactor n ≠ 0 := by cases n <;> simp

@[simp] theorem inv_signFactor (n : Bool) : (signFactor n)⁻¹ = signFactor n := by cases n <;> simp

@[simp] theorem abs_signFactor_mul (n : Bool) (a : ℝ) : |signFactor n * a| = |a| := by cases n <;> simp

theorem signFactor_mul_neg_iff (n : Bool) {a : ℝ} (ha : 0 < a) : signFactor n * a < 0 ↔ n = true := by
  cases n <;> simp [ha, ha.le]

/-! ## Fields -/

theorem exponentField_eq (x : U64) : exponentField x = x.toNat / 2 ^ 52 % 2 ^ 11 := by
  simp [exponentField, BitVec.extractLsb'_toNat, Nat.shiftRight_eq_div_pow]

theorem fractionField_eq (x : U64) : fractionField x = x.toNat % 2 ^ 52 := by
  simp [fractionField, BitVec.extractLsb'_toNat]

theorem fractionField_lt (x : U64) : fractionField x < 2 ^ 52 := by
  rw [fractionField_eq]; omega

/-- The pattern with a sign bit and the number `M` in the 63 bits below. -/
def pattern (n : Bool) (M : Nat) : U64 := signBit n ||| BitVec.ofNat 64 M

theorem zero_eq_pattern (n : Bool) : zero n = pattern n 0 := by simp [zero, pattern]

theorem infinity_eq_pattern (n : Bool) : infinity n = pattern n (2047 * 2 ^ 52) := rfl

theorem pattern_toNat (n : Bool) {M : Nat} (hM : M < 2 ^ 63) :
    (pattern n M).toNat = (if n then 2 ^ 63 else 0) + M := by
  have hM' : M % 2 ^ 64 = M := Nat.mod_eq_of_lt (by omega)
  cases n with
  | false => simpa [pattern, signBit] using hM'
  | true =>
    have h := Nat.two_pow_add_eq_or_of_lt hM 1
    simp only [pattern, signBit, if_true, BitVec.toNat_or, BitVec.toNat_ofNat, hM']
    simpa using h.symm

theorem msb_pattern (n : Bool) {M : Nat} (hM : M < 2 ^ 63) : (pattern n M).msb = n := by
  rw [BitVec.msb_eq_decide, pattern_toNat n hM]
  cases n <;> simp
  omega

theorem exponentField_pattern (n : Bool) {M : Nat} (hM : M < 2 ^ 63) :
    exponentField (pattern n M) = M / 2 ^ 52 := by
  rw [exponentField_eq, pattern_toNat n hM]
  cases n <;> simp <;> omega

theorem fractionField_pattern (n : Bool) {M : Nat} (hM : M < 2 ^ 63) :
    fractionField (pattern n M) = M % 2 ^ 52 := by
  rw [fractionField_eq, pattern_toNat n hM]
  cases n <;> simp
  omega

/-- The last bit of a pattern is the parity of the number in it. -/
theorem getLsbD_zero_pattern (n : Bool) {M : Nat} (hM : M < 2 ^ 63) (hEven : M % 2 = 0) :
    (pattern n M).getLsbD 0 = false := by
  rw [BitVec.getLsbD, pattern_toNat n hM, Nat.testBit_zero]
  cases n <;> simp <;> omega

@[simp] theorem exponentField_neg (x : U64) : exponentField (neg x) = exponentField x := by
  unfold exponentField neg
  congr 1
  ext i hi
  have : (0x8000000000000000#64).getLsbD (52 + i) = false := by
    interval_cases i <;> rfl
  simp [this]

@[simp] theorem fractionField_neg (x : U64) : fractionField (neg x) = fractionField x := by
  unfold fractionField neg
  rw [BitVec.extractLsb'_xor]
  exact congrArg BitVec.toNat (BitVec.xor_zero)

@[simp] theorem msb_neg (x : U64) : (neg x).msb = !x.msb := by
  simp [neg, BitVec.msb_xor, show (0x8000000000000000#64).msb = true from rfl]

/-! ## The number of a pattern -/

theorem isFinite_iff (x : U64) : isFinite x = true ↔ exponentField x ≠ 2047 := by simp [isFinite]

theorem isZero_iff (x : U64) : isZero x = true ↔ exponentField x = 0 ∧ fractionField x = 0 := by simp [isZero]

/-- A finite pattern unpacks to its own sign, at most 53 bits and an exponent of -1074 or more. -/
theorem exists_unpack_of_isFinite {x : U64} (hx : isFinite x = true) :
    ∃ m e, unpack x = .finite x.msb m e ∧ m < 2 ^ 53 ∧ -1074 ≤ e ∧ (isZero x = true ↔ m = 0) := by
  have hlt := fractionField_lt x
  have hexp := (isFinite_iff x).1 hx
  by_cases h0 : exponentField x = 0
  · exact ⟨fractionField x, -1074, by simp [unpack, h0], by omega, le_rfl, by simp [isZero_iff, h0]⟩
  · exact ⟨fractionField x + 2 ^ 52, exponentField x - 1075, by simp [unpack, h0, hexp], by omega, by omega,
      by simp [isZero_iff, h0]⟩

theorem unpack_infinity (n : Bool) : unpack (infinity n) = .infinite n := by cases n <;> decide

theorem exactValue_of_unpack {x : U64} {n : Bool} {m : Nat} {e : Int} (h : unpack x = .finite n m e) :
    (exactValue x : ℝ) = signFactor n * (m * 2 ^ e) := by
  cases n <;> simp [exactValue, h]

theorem exactValue_zero (n : Bool) : exactValue (zero n) = 0 := by cases n <;> decide +kernel

theorem eq_zero_of_isZero {x : U64} (h : isZero x = true) : x = zero x.msb := by
  obtain ⟨hexp, hfrac⟩ := (isZero_iff x).1 h
  rw [exponentField_eq] at hexp
  rw [fractionField_eq] at hfrac
  have hmsb := BitVec.msb_eq_decide x
  apply BitVec.eq_of_toNat_eq
  rw [zero_eq_pattern, pattern_toNat _ (by norm_num), hmsb]
  have := x.isLt
  simp only [decide_eq_true_eq]
  split_ifs <;> omega

theorem unpack_neg {x : U64} {n : Bool} {m : Nat} {e : Int} (h : unpack x = .finite n m e) :
    unpack (neg x) = .finite (!n) m e := by
  simp only [unpack, exponentField_neg, fractionField_neg, msb_neg] at h ⊢
  split_ifs at h ⊢ <;> simp_all

theorem isFinite_neg (x : U64) : isFinite (neg x) = isFinite x := by simp [isFinite]

theorem neg_infinity (n : Bool) : neg (infinity n) = infinity !n := by cases n <;> decide

theorem exactValue_neg {x : U64} (hx : isFinite x = true) : exactValue (neg x) = -exactValue x := by
  obtain ⟨m, e, h, -⟩ := exists_unpack_of_isFinite hx
  have hcast : (exactValue (neg x) : ℝ) = ((-exactValue x : ℚ) : ℝ) := by
    rw [Rat.cast_neg, exactValue_of_unpack h, exactValue_of_unpack (unpack_neg h), signFactor_not, neg_mul]
  exact_mod_cast hcast

/-- A pattern below the infinities holds the exponent `T` and the significand `k` as `T · 2^52 + k`. `k` has 53 bits, or fewer
at `T = 0`, and `k = 2^53` carries into the exponent. -/
theorem exactValue_pattern (n : Bool) {T k : Nat} (hk : T = 0 ∨ 2 ^ 52 ≤ k) (hk' : k ≤ 2 ^ 53)
    (hM : T * 2 ^ 52 + k < 2047 * 2 ^ 52) :
    isFinite (pattern n (T * 2 ^ 52 + k)) = true ∧
    (exactValue (pattern n (T * 2 ^ 52 + k)) : ℝ) = signFactor n * (k * 2 ^ ((T : ℤ) - 1074)) := by
  have hM63 : T * 2 ^ 52 + k < 2 ^ 63 := by omega
  have hexp := exponentField_pattern n hM63
  have hfrac := fractionField_pattern n hM63
  have hmsb := msb_pattern n hM63
  have hfin : isFinite (pattern n (T * 2 ^ 52 + k)) = true := by rw [isFinite_iff, hexp]; omega
  refine ⟨hfin, ?_⟩
  rcases Nat.lt_or_ge k (2 ^ 52) with hsmall | hlarge
  · -- below 2^52 the pattern is subnormal
    have hunpack : unpack (pattern n (T * 2 ^ 52 + k)) = .finite n k (-1074) := by
      rw [unpack, if_neg (by omega), if_pos (by omega), hmsb, hfrac]
      congr 1; omega
    rw [exactValue_of_unpack hunpack, show T = 0 by omega]
    simp
  · rcases Nat.lt_or_ge k (2 ^ 53) with hnormal | hcarry
    · have hunpack : unpack (pattern n (T * 2 ^ 52 + k)) = .finite n k (T - 1074) := by
        rw [unpack, if_neg (by omega), if_neg (by omega), hmsb, hfrac, hexp]
        congr 1 <;> omega
      exact exactValue_of_unpack hunpack
    · have hunpack : unpack (pattern n (T * 2 ^ 52 + k)) = .finite n (2 ^ 52) (T - 1074 + 1) := by
        rw [unpack, if_neg (by omega), if_neg (by omega), hmsb, hfrac, hexp]
        congr 1 <;> omega
      rw [exactValue_of_unpack hunpack, show k = 2 ^ 53 by omega, zpow_add₀ two_ne_zero]
      push_cast; ring

end Sys2Proof.Machine.Binary64
end

