-- ==== Sys2Proof/Proofs/Binary64Rounding.lean ====
section
/-! SUPPORT. `round` of the model rounds correctly, also when it is given a significand with a sticky bit in place of a number
that is not exact (R11, R100). -/

namespace Sys2Proof.Machine.Binary64

/-! ## The nearest integer -/

/-- `k` is the integer nearest to `y`, the even one of two that are equally near. -/
def NearestEven (y : ℝ) (k : Nat) : Prop := |(k : ℝ) - y| ≤ 1 / 2 ∧ (|(k : ℝ) - y| = 1 / 2 → k % 2 = 0)

theorem nearestEven_of_lt {y : ℝ} {k : Nat} (hlow : (k : ℝ) - 1 / 2 < y) (hhigh : y < k + 1 / 2) : NearestEven y k := by
  have hlt : |(k : ℝ) - y| < 1 / 2 := abs_lt.2 ⟨by linarith, by linarith⟩
  exact ⟨hlt.le, fun heq => absurd heq hlt.ne⟩

theorem nearestEven_self (k : Nat) : NearestEven k k := by simp [NearestEven]

theorem nearestEven_tie (q : Nat) : NearestEven (q + 1 / 2) (q + q % 2) := by
  refine ⟨?_, fun _ => by omega⟩
  push_cast
  rcases Nat.mod_two_eq_zero_or_one q with h | h <;> rw [h] <;> norm_num

/-- No integer is nearer to `y` than `k`, and another that is equally near leaves `k` even. -/
theorem NearestEven.abs_sub_le_int {y : ℝ} {k : Nat} (h : NearestEven y k) (j : ℤ) :
    |(k : ℝ) - y| ≤ |(j : ℝ) - y| ∧ (|(k : ℝ) - y| = |(j : ℝ) - y| → (j : ℝ) ≠ k → k % 2 = 0) := by
  obtain ⟨hhalf, heven⟩ := h
  by_cases hjk : (j : ℝ) = k
  · exact ⟨(congrArg (|· - y|) hjk).ge, fun _ hne => absurd hjk hne⟩
  have hone : (1 : ℝ) ≤ |(j : ℝ) - k| := by
    have : j - k ≠ 0 := fun h0 => hjk (by exact_mod_cast sub_eq_zero.1 h0)
    exact_mod_cast Int.one_le_abs this
  have htri : |(j : ℝ) - k| ≤ |(j : ℝ) - y| + |(k : ℝ) - y| := by
    rw [abs_sub_comm (k : ℝ) y]; exact abs_sub_le _ _ _
  exact ⟨by linarith, fun heq _ => heven (by linarith)⟩

/-- From 2^52 on, a number below 2^52 is farther from `y` than `k` is. -/
theorem NearestEven.abs_sub_lt_of_lt {y w : ℝ} {k : Nat} (h : NearestEven y k) (hy : 2 ^ 52 ≤ y) (hw : w < 2 ^ 52) :
    |(k : ℝ) - y| < |w - y| := by
  have hle := (h.abs_sub_le_int (2 ^ 52)).1
  rw [Int.cast_pow, Int.cast_ofNat] at hle
  rw [abs_of_nonpos (by linarith : (2 : ℝ) ^ 52 - y ≤ 0)] at hle
  rw [abs_of_neg (by linarith : w - y < 0)]
  linarith

/-- In units of the last place `2^t`, with 53 bits in `y` unless `t` is the least exponent: no number of at most 53 bits is
nearer to `y` than `k`. -/
theorem NearestEven.abs_sub_le_finite {y : ℝ} {k : Nat} (h : NearestEven y k) {t s i : ℤ} (hy : t = -1074 ∨ 2 ^ 52 ≤ y)
    (hs : -1074 ≤ s) (hi : |i| < 2 ^ 53) :
    |(k : ℝ) - y| ≤ |(i : ℝ) * 2 ^ (s - t) - y| ∧
    (|(k : ℝ) - y| = |(i : ℝ) * 2 ^ (s - t) - y| → (i : ℝ) * 2 ^ (s - t) ≠ k → k % 2 = 0) := by
  rcases le_or_gt t s with hts | hst
  · -- a multiple of the last place
    have hint : (i : ℝ) * 2 ^ (s - t) = ((i * 2 ^ (s - t).toNat : ℤ) : ℝ) := by
      rw [show s - t = ((s - t).toNat : ℤ) by omega, zpow_natCast]; push_cast; rfl
    rw [hint]
    exact h.abs_sub_le_int _
  · -- a finer number, which lies below 2^52
    have hy52 : (2 : ℝ) ^ 52 ≤ y := hy.resolve_left (by omega)
    have hlt : (i : ℝ) * 2 ^ (s - t) < 2 ^ 52 := by
      have hi' : (i : ℝ) < 2 ^ 53 := by exact_mod_cast lt_of_abs_lt hi
      have hpow : (2 : ℝ) ^ (s - t) ≤ 2 ^ (-1 : ℤ) := zpow_le_zpow_right₀ one_le_two (by omega)
      have hpos : (0 : ℝ) < 2 ^ (s - t) := by positivity
      norm_num at hpow hi' ⊢
      nlinarith
    have hfar := h.abs_sub_lt_of_lt hy52 hlt
    exact ⟨hfar.le, fun heq => absurd heq hfar.ne⟩

/-! ## A significand in place of an exact number -/

/-- The significand `m` stands for the number `x`: it is `x`, or it is odd, of 55 bits at least and within less than 1 of `x`
(its last bit is a sticky bit). -/
def Represents (m : Nat) (x : ℝ) : Prop := x = m ∨ 2 ^ 54 ≤ m ∧ m % 2 = 1 ∧ (m : ℝ) - 1 < x ∧ x < m + 1

theorem represents_self (m : Nat) : Represents m m := .inl rfl

/-- Twice a number with at least 54 bits before the point, cut off at the point and with a sticky bit for what is cut off. -/
theorem represents_sticky {q rem : Nat} {x : ℝ} (hq : 2 ^ 53 ≤ q) (hexact : rem = 0 → x = q)
    (hinexact : rem ≠ 0 → (q : ℝ) < x ∧ x < q + 1) : Represents (2 * q + sticky rem) (2 * x) := by
  by_cases hrem : rem = 0
  · left; simp [sticky, hrem, hexact hrem]
  · obtain ⟨hlow, hhigh⟩ := hinexact hrem
    right
    simp only [sticky, if_neg hrem]
    push_cast
    exact ⟨by omega, by omega, by linarith, by linarith⟩

theorem Represents.sub_one_lt {m : Nat} {x : ℝ} (h : Represents m x) : (m : ℝ) - 1 < x := by
  rcases h with rfl | ⟨-, -, hgt, -⟩ <;> linarith

/-- The number lies on the same side of an even integer as the significand: a sticky bit never reaches a tie. -/
theorem Represents.even_lt {m c : Nat} {x : ℝ} (h : Represents m x) (hc : x ≠ m → c % 2 = 0) (hcm : c < m) : (c : ℝ) < x := by
  rcases h with rfl | ⟨-, -, hgt, -⟩
  · exact_mod_cast hcm
  · have : (c : ℝ) + 1 ≤ m := by exact_mod_cast hcm
    linarith

theorem Represents.lt_even {m c : Nat} {x : ℝ} (h : Represents m x) (hc : x ≠ m → c % 2 = 0) (hmc : m < c) : x < c := by
  rcases h with rfl | ⟨-, -, -, hlt⟩
  · exact_mod_cast hmc
  · have : (m : ℝ) + 1 ≤ c := by exact_mod_cast hmc
    linarith

/-- A number has as many bits before the point as the significand that stands for it. -/
theorem Represents.log2_bounds {m : Nat} {x : ℝ} (h : Represents m x) (hm : m ≠ 0) :
    (2 : ℝ) ^ m.log2 ≤ x ∧ x < 2 ^ (m.log2 + 1) := by
  have hlow : 2 ^ m.log2 ≤ m := Nat.log2_self_le hm
  have hhigh : m < 2 ^ (m.log2 + 1) := Nat.lt_log2_self
  rcases h with rfl | ⟨hlarge, hodd, hgt, hlt⟩
  · exact_mod_cast And.intro hlow hhigh
  · have hlog : m.log2 ≠ 0 := fun h0 => by rw [h0] at hhigh; omega
    obtain ⟨l, hl⟩ := Nat.exists_eq_succ_of_ne_zero hlog
    have hlow' : 2 ^ m.log2 + 1 ≤ m := by rw [hl, Nat.succ_eq_add_one, pow_succ] at hlow ⊢; omega
    have hlowR : (2 : ℝ) ^ m.log2 + 1 ≤ m := by exact_mod_cast hlow'
    have hhighR : (m : ℝ) + 1 ≤ 2 ^ (m.log2 + 1) := by exact_mod_cast hhigh
    exact ⟨by linarith, by linarith⟩

/-- Below a sticky bit the last place leaves room: it is two bits or more above the sticky bit. -/
theorem add_two_le_lastPlace {m : Nat} (hm : 2 ^ 54 ≤ m) (e : Int) : e + 2 ≤ lastPlace m e := by
  have : 54 ≤ m.log2 := (Nat.le_log2 (by omega)).2 hm
  unfold lastPlace; omega

/-- What is left of the unit `2^d` decides: more than half of it rounds up, less rounds down, half goes to the even side. -/
theorem nearestEven_shiftRight {m d : Nat} {x : ℝ} (hd : 1 ≤ d) (h : Represents m x) (hsticky : x ≠ m → 2 ≤ d) :
    NearestEven (x / 2 ^ d) (shiftRightNearestEven m d) := by
  obtain ⟨c, rfl⟩ : ∃ c, d = c + 1 := ⟨d - 1, by omega⟩
  set P := 2 ^ c with hP
  set q := m / (2 * P) with hq
  have hpow : 2 ^ (c + 1) = 2 * P := by rw [hP, pow_succ]; ring
  have hpowR : (2 : ℝ) ^ (c + 1) = 2 * P := by exact_mod_cast hpow
  have hPpos : 0 < P := by positivity
  have hPR : (1 : ℝ) ≤ P := by exact_mod_cast hPpos
  have hsplit : q * (2 * P) + m % (2 * P) = m := by rw [hq, mul_comm]; exact Nat.div_add_mod m _
  have hrem : m % (2 * P) < 2 * P := Nat.mod_lt _ (by omega)
  have heven : x ≠ m → (q * (2 * P) + P) % 2 = 0 := fun hx => by
    obtain ⟨b, rfl⟩ : ∃ b, c = b + 1 := ⟨c - 1, by have := hsticky hx; omega⟩
    rw [show q * (2 * P) + P = 2 * (q * P + 2 ^ b) by rw [hP, pow_succ]; ring]
    omega
  simp only [shiftRightNearestEven, Nat.shiftRight_eq_div_pow, hpow, ← hq, Nat.add_sub_cancel, ← hP, hpowR]
  have hlow := h.sub_one_lt
  rcases lt_trichotomy P (m % (2 * P)) with hgt | heq | hlt
  · rw [if_pos hgt]
    have hmid := h.even_lt heven (by omega : q * (2 * P) + P < m)
    have hnext := h.lt_even (c := (q + 1) * (2 * P)) (fun _ => by rw [mul_left_comm]; omega) (by rw [add_mul]; omega)
    push_cast at hmid hnext
    apply nearestEven_of_lt
    · rw [lt_div_iff₀ (by linarith)]; push_cast; linarith
    · rw [div_lt_iff₀ (by linarith)]; push_cast; linarith
  · rw [if_neg (by omega), if_pos heq.symm]
    have hm : m = q * (2 * P) + P := by omega
    have hexact : x = m := by
      by_contra hx
      have hodd : m % 2 = 1 := (h.resolve_left hx).2.1
      have := heven hx
      omega
    have hy : x / (2 * P) = q + 1 / 2 := by
      rw [div_eq_iff (by positivity), hexact, hm]; push_cast; ring
    rw [hy]
    exact nearestEven_tie q
  · rw [if_neg (by omega), if_neg (by omega)]
    have hmid := h.lt_even heven (by omega : m < q * (2 * P) + P)
    have hge : (q : ℝ) * (2 * P) ≤ m := by exact_mod_cast (by omega : q * (2 * P) ≤ m)
    push_cast at hmid
    apply nearestEven_of_lt
    · rw [lt_div_iff₀ (by linarith)]; linarith
    · rw [div_lt_iff₀ (by linarith)]; linarith

/-! ## The last place -/

theorem two_pow_mul_zpow {a c : Nat} {b : ℤ} (h : a + b = c) : (2 : ℝ) ^ a * 2 ^ b = 2 ^ c := by
  rw [← zpow_natCast, ← zpow_natCast, ← zpow_add₀ two_ne_zero, h]

theorem neg_1074_le_lastPlace (m : Nat) (e : Int) : -1074 ≤ lastPlace m e := le_max_right _ _

/-- The significand of the result is the number in units of the last place, rounded to the nearest integer. -/
theorem Represents.nearestEven_roundedSignificand {m : Nat} {x : ℝ} (h : Represents m x) (e : Int) :
    NearestEven (x * 2 ^ (e - lastPlace m e)) (roundedSignificand m e) := by
  have hsticky : x ≠ m → e + 2 ≤ lastPlace m e := fun hx => add_two_le_lastPlace (h.resolve_left hx).1 e
  rw [roundedSignificand]
  by_cases hle : lastPlace m e ≤ e
  · have hexact : x = m := by
      by_contra hx
      have := hsticky hx
      omega
    have hshift : x * 2 ^ (e - lastPlace m e) = ((m <<< (e - lastPlace m e).toNat : Nat) : ℝ) := by
      rw [Nat.shiftLeft_eq, hexact, Nat.cast_mul, Nat.cast_pow, Nat.cast_ofNat, ← zpow_natCast,
        Int.toNat_of_nonneg (by omega)]
    rw [if_pos hle, hshift]
    exact nearestEven_self _
  · have hshift : x * 2 ^ (e - lastPlace m e) = x / 2 ^ (lastPlace m e - e).toNat := by
      rw [div_eq_mul_inv, ← zpow_natCast, ← zpow_neg]
      congr 2; omega
    rw [if_neg hle, hshift]
    exact nearestEven_shiftRight (by omega) h fun hx => by have := hsticky hx; omega

/-- In units of the last place the number has at most 53 bits before the point, and exactly 53 unless the exponent is the
least one. -/
theorem Represents.lastPlace_bounds {m : Nat} {x : ℝ} (h : Represents m x) (hm : m ≠ 0) (e : Int) :
    (lastPlace m e = -1074 ∨ 2 ^ 52 ≤ x * 2 ^ (e - lastPlace m e)) ∧ x * 2 ^ (e - lastPlace m e) < 2 ^ 53 := by
  obtain ⟨hlow, hhigh⟩ := h.log2_bounds hm
  have hscale : (0 : ℝ) < 2 ^ (e - lastPlace m e) := by positivity
  constructor
  · by_cases ht : lastPlace m e = -1074
    · exact .inl ht
    · right
      have hlast : (e - lastPlace m e) = 52 - m.log2 := by unfold lastPlace at ht ⊢; omega
      calc (2 : ℝ) ^ 52 = 2 ^ m.log2 * 2 ^ (e - lastPlace m e) := by
            rw [hlast, two_pow_mul_zpow (c := 52) (by push_cast; ring)]
        _ ≤ _ := by gcongr
  · have hlast : (e - lastPlace m e) ≤ 52 - m.log2 := by unfold lastPlace; omega
    calc x * 2 ^ (e - lastPlace m e) < 2 ^ (m.log2 + 1) * 2 ^ (e - lastPlace m e) := by gcongr
      _ ≤ 2 ^ (m.log2 + 1) * 2 ^ (52 - m.log2 : ℤ) := by gcongr; exact one_le_two
      _ = 2 ^ 53 := two_pow_mul_zpow (by push_cast; ring)

/-! ## Overflow -/

/-- The border of overflow in units of the last place of the largest finite pattern. -/
theorem overflow_border : (2 : ℝ) ^ 1024 - 2 ^ 970 = (2 ^ 53 - 1 / 2) * 2 ^ (971 : ℤ) := by
  have h1024 : (2 : ℝ) ^ 53 * 2 ^ (971 : ℤ) = 2 ^ 1024 := two_pow_mul_zpow (by norm_num)
  have h970 : (1 / 2 : ℝ) * 2 ^ (971 : ℤ) = 2 ^ 970 := by
    rw [one_div, ← zpow_neg_one, ← zpow_add₀ two_ne_zero, show (-1 + 971 : ℤ) = 970 by norm_num, zpow_ofNat]
  rw [sub_mul, h1024, h970]

theorem NearestEven.le_two_pow_53 {y : ℝ} {k : Nat} (h : NearestEven y k) (hy : y < 2 ^ 53) : k ≤ 2 ^ 53 := by
  have hk : (k : ℝ) < (2 ^ 53 + 1 : ℕ) := by
    have := (abs_le.1 h.1).2
    push_cast; linarith
  exact Nat.lt_succ_iff.1 (by exact_mod_cast hk)

theorem NearestEven.two_pow_52_le {y : ℝ} {k : Nat} (h : NearestEven y k) (hy : 2 ^ 52 ≤ y) : 2 ^ 52 ≤ k := by
  have hk : ((2 ^ 52 : ℕ) : ℝ) < (k + 1 : ℕ) := by
    have := (abs_le.1 h.1).1
    push_cast; linarith
  exact Nat.lt_succ_iff.1 (by exact_mod_cast hk)

/-- The magnitude reaches the pattern of the infinities exactly when the number reaches the border of overflow. -/
theorem NearestEven.overflow_iff {y : ℝ} {k T : Nat} (h : NearestEven y k) (hlow : T = 0 ∨ 2 ^ 52 ≤ y) (hhigh : y < 2 ^ 53) :
    2047 * 2 ^ 52 ≤ T * 2 ^ 52 + k ↔ (2 : ℝ) ^ 1024 - 2 ^ 970 ≤ y * 2 ^ ((T : ℤ) - 1074) := by
  have hk53 := h.le_two_pow_53 hhigh
  have hunit : (0 : ℝ) < 2 ^ (971 : ℤ) := by positivity
  obtain ⟨hdown, hup⟩ := abs_le.1 h.1
  rw [overflow_border]
  rcases lt_trichotomy T 2045 with hT | rfl | hT
  · -- the last place is too small
    refine iff_of_false (by omega) (not_le.2 ?_)
    calc y * 2 ^ ((T : ℤ) - 1074) ≤ 2 ^ 53 * 2 ^ (970 : ℤ) := by
          gcongr
          · exact one_le_two
          · omega
      _ = 2 ^ 52 * 2 ^ (971 : ℤ) := by rw [show (971 : ℤ) = 970 + 1 by norm_num, zpow_add₀ two_ne_zero]; ring
      _ < _ := by gcongr; norm_num
  · -- the last place of the largest finite pattern
    rw [show ((2045 : ℕ) : ℤ) - 1074 = 971 by norm_num, mul_le_mul_iff_left₀ hunit]
    constructor
    · intro hM
      have hk : (k : ℝ) = 2 ^ 53 := by exact_mod_cast (by omega : k = 2 ^ 53)
      linarith
    · intro hborder
      by_contra hM
      have hk : (k : ℝ) + 1 ≤ 2 ^ 53 := by exact_mod_cast (by omega : k + 1 ≤ 2 ^ 53)
      have htie : |(k : ℝ) - y| = 1 / 2 := by rw [abs_of_neg (by linarith)]; linarith
      have hodd : k = 2 ^ 53 - 1 := by
        have : (2 : ℝ) ^ 53 ≤ (k + 1 : ℕ) := by push_cast; linarith
        have : 2 ^ 53 ≤ k + 1 := by exact_mod_cast this
        omega
      have := h.2 htie
      omega
  · -- the last place is too large
    have hy := hlow.resolve_left (by omega)
    have hk52 := h.two_pow_52_le hy
    refine iff_of_true (by omega) ?_
    calc (2 ^ 53 - 1 / 2) * (2 : ℝ) ^ (971 : ℤ) ≤ 2 ^ 53 * 2 ^ (971 : ℤ) := by gcongr; norm_num
      _ = 2 ^ 52 * 2 ^ (972 : ℤ) := by rw [show (972 : ℤ) = 971 + 1 by norm_num, zpow_add₀ two_ne_zero]; ring
      _ ≤ _ := by
          gcongr
          · exact one_le_two
          · omega

/-! ## `round` -/

theorem signed_cast (n : Bool) (m : Nat) : (signed n m : ℝ) = signFactor n * m := by cases n <;> simp [signed]

/-- A finite pattern, its sign taken relative to `n`, is an integer of at most 53 bits times a power of 2. -/
theorem exists_int_of_isFinite (n : Bool) {z : U64} (hz : isFinite z = true) :
    ∃ i s : ℤ, |i| < 2 ^ 53 ∧ -1074 ≤ s ∧ signFactor n * (exactValue z : ℝ) = i * 2 ^ s := by
  obtain ⟨m, s, hunpack, hm, hs, -⟩ := exists_unpack_of_isFinite hz
  refine ⟨signed (n ^^ z.msb) m, s, ?_, hs, ?_⟩
  · cases n ^^ z.msb <;> simpa [signed] using (by exact_mod_cast hm)
  · rw [exactValue_of_unpack hunpack, signed_cast, signFactor_xor]; ring

/-- Distances to a number are distances in units of the last place. -/
theorem abs_sub_scaled {n : Bool} {a w y u : ℝ} (hu : 0 < u) (h : signFactor n * a = w * u) :
    |a - signFactor n * (y * u)| = |w - y| * u := by
  have ha : a = signFactor n * (w * u) := by rw [← h, ← mul_assoc, signFactor_mul_self, one_mul]
  rw [ha, ← mul_sub, abs_signFactor_mul, ← sub_mul, abs_mul, abs_of_pos hu]

/-- The pattern of the exponent `T` and the nearest significand is the correctly rounded number. -/
theorem NearestEven.roundsTo_pattern {y : ℝ} {k T : Nat} (h : NearestEven y k) (n : Bool) (hnonneg : 0 ≤ y)
    (hlow : T = 0 ∨ 2 ^ 52 ≤ y) (hhigh : y < 2 ^ 53) :
    roundsTo (signFactor n * (y * 2 ^ ((T : ℤ) - 1074)))
      (if 2047 * 2 ^ 52 ≤ T * 2 ^ 52 + k then infinity n else pattern n (T * 2 ^ 52 + k)) := by
  have hover := h.overflow_iff hlow hhigh
  set u : ℝ := 2 ^ ((T : ℤ) - 1074) with hu
  have hupos : 0 < u := by positivity
  have habs : |signFactor n * (y * u)| = y * u := by rw [abs_signFactor_mul, abs_of_nonneg (by positivity)]
  by_cases hM : 2047 * 2 ^ 52 ≤ T * 2 ^ 52 + k
  · have hborder := hover.1 hM
    have hpos : 0 < y * u := by
      refine lt_of_lt_of_le ?_ hborder
      rw [overflow_border]
      have : (0 : ℝ) < 2 ^ (971 : ℤ) := by positivity
      norm_num
    rw [if_pos hM]
    exact .inr ⟨by simp [signFactor_mul_neg_iff n hpos], by rwa [habs]⟩
  · rw [if_neg hM]
    have hk : T = 0 ∨ 2 ^ 52 ≤ k := hlow.imp_right h.two_pow_52_le
    obtain ⟨hfin, hvalue⟩ := exactValue_pattern n hk (h.le_two_pow_53 hhigh) (not_le.1 hM)
    set r := pattern n (T * 2 ^ 52 + k) with hr
    have hr' : signFactor n * (exactValue r : ℝ) = k * u := by
      rw [hvalue, ← mul_assoc, signFactor_mul_self, one_mul]
    refine .inl ⟨hfin, by rw [habs]; exact not_le.1 fun hb => hM (hover.2 hb), fun z hz => ?_⟩
    obtain ⟨i, s, hi, hs, hz'⟩ := exists_int_of_isFinite n hz
    have hz'' : signFactor n * (exactValue z : ℝ) = i * 2 ^ (s - ((T : ℤ) - 1074)) * u := by
      rw [hz', hu, mul_assoc, ← zpow_add₀ two_ne_zero, sub_add_cancel]
    have hlow' : (T : ℤ) - 1074 = -1074 ∨ 2 ^ 52 ≤ y := hlow.imp_left (by omega)
    obtain ⟨hle, heven⟩ := h.abs_sub_le_finite hlow' hs hi
    rw [abs_sub_scaled hupos hr', abs_sub_scaled hupos hz'']
    refine ⟨by gcongr, fun heq hne => ?_⟩
    have hk_even : k % 2 = 0 := heven (mul_right_cancel₀ hupos.ne' heq) fun hsame => hne (by
      rw [hsame, ← hr'] at hz''
      exact_mod_cast mul_left_cancel₀ (signFactor_ne_zero n) hz'')
    exact getLsbD_zero_pattern n (by omega) (by omega)

theorem round_eq_pattern (n : Bool) {m : Nat} (hm : m ≠ 0) (e : Int) :
    round n m e = (if 2047 * 2 ^ 52 ≤ (lastPlace m e + 1074).toNat * 2 ^ 52 + roundedSignificand m e then infinity n
      else pattern n ((lastPlace m e + 1074).toNat * 2 ^ 52 + roundedSignificand m e)) := by
  simp only [round, if_neg hm, Nat.shiftLeft_eq]; rfl

/-- `round` answers the correctly rounded number for which the significand stands. -/
theorem Represents.roundsTo_round {m : Nat} {x : ℝ} (h : Represents m x) (n : Bool) (e : Int) :
    roundsTo (signFactor n * (x * 2 ^ e)) (round n m e) := by
  by_cases hm : m = 0
  · have hx : x = 0 := by
      rcases h with rfl | ⟨hlarge, -⟩
      · exact_mod_cast hm
      · omega
    have hzero := (nearestEven_self 0).roundsTo_pattern (T := 0) n (by simp) (.inl rfl) (by simp)
    rw [round, if_pos hm, zero_eq_pattern, hx]
    simpa using hzero
  · have hlast : (((lastPlace m e + 1074).toNat : ℕ) : ℤ) - 1074 = lastPlace m e := by
      have := neg_1074_le_lastPlace m e
      omega
    obtain ⟨hlow, hhigh⟩ := h.lastPlace_bounds hm e
    have hpos : 0 < x := lt_of_lt_of_le (by positivity) (h.log2_bounds hm).1
    have hpattern := (h.nearestEven_roundedSignificand e).roundsTo_pattern (T := (lastPlace m e + 1074).toNat) n
      (by positivity) (hlow.imp_left (by omega)) hhigh
    rwa [hlast, mul_assoc, ← zpow_add₀ two_ne_zero, sub_add_cancel, ← round_eq_pattern n hm] at hpattern

theorem roundsTo_zero (n : Bool) : roundsTo 0 (zero n) := by
  simpa [round] using (represents_self 0).roundsTo_round n 0

theorem msb_infinity (n : Bool) : (infinity n).msb = n := msb_pattern n (by norm_num)

theorem msb_round (n : Bool) (m : Nat) (e : Int) : (round n m e).msb = n := by
  by_cases hm : m = 0
  · rw [round, if_pos hm, zero_eq_pattern, msb_pattern n (by norm_num)]
  · rw [round_eq_pattern n hm]
    split_ifs with h
    · exact msb_infinity n
    · exact msb_pattern n (by omega)

end Sys2Proof.Machine.Binary64
end

