-- ==== Sys2Proof/Proofs/Binary64Arithmetic.lean ====
section
/-! SUPPORT. What the five operations answer on finite and infinite patterns, and the statements about them (R11, R100, R101). -/

namespace Sys2Proof.Machine.Binary64

/-! ## Addition and subtraction -/

theorem signed_shiftLeft_cast (n : Bool) (m : Nat) {e l : Int} (hl : l ≤ e) :
    (signed n (m <<< (e - l).toNat) : ℝ) * 2 ^ l = signFactor n * (m * 2 ^ e) := by
  have hpow : ((2 : ℝ) ^ (e - l).toNat) * 2 ^ l = 2 ^ e := by
    rw [← zpow_natCast, ← zpow_add₀ two_ne_zero]
    congr 1; omega
  rw [signed_cast, Nat.shiftLeft_eq, ← hpow]
  push_cast; ring

/-- The exact sum is the sum of the two values, in units of the smaller last place. -/
theorem exactSum_cast (n₁ n₂ : Bool) (m₁ m₂ : Nat) (e₁ e₂ : Int) :
    (exactSum n₁ m₁ e₁ n₂ m₂ e₂ : ℝ) * 2 ^ min e₁ e₂ = signFactor n₁ * (m₁ * 2 ^ e₁) + signFactor n₂ * (m₂ * 2 ^ e₂) := by
  rw [exactSum, Int.cast_add, add_mul, signed_shiftLeft_cast n₁ m₁ (min_le_left _ _),
    signed_shiftLeft_cast n₂ m₂ (min_le_right _ _)]

theorem signFactor_mul_natAbs (n : ℤ) : signFactor (decide (n < 0)) * (n.natAbs : ℝ) = n := by
  rw [Nat.cast_natAbs, Int.cast_abs]
  rcases lt_or_ge n 0 with h | h
  · rw [abs_of_neg (by exact_mod_cast h)]; simp [h]
  · rw [abs_of_nonneg (by exact_mod_cast h)]; simp [not_lt.2 h]

/-- A sum of finite patterns is correctly rounded, and an exact zero is -0 only if both terms are negative. -/
theorem add_finite {x y : U64} (hx : isFinite x = true) (hy : isFinite y = true) :
    roundsTo ((exactValue x + exactValue y : ℚ) : ℝ) (add x y) ∧
    (exactValue x + exactValue y = 0 → add x y = zero (x.msb && y.msb)) := by
  obtain ⟨m₁, e₁, h₁, -⟩ := exists_unpack_of_isFinite hx
  obtain ⟨m₂, e₂, h₂, -⟩ := exists_unpack_of_isFinite hy
  set N := exactSum x.msb m₁ e₁ y.msb m₂ e₂ with hN
  have hsum : ((exactValue x + exactValue y : ℚ) : ℝ) = N * 2 ^ min e₁ e₂ := by
    rw [Rat.cast_add, exactValue_of_unpack h₁, exactValue_of_unpack h₂, hN, exactSum_cast]
  have hadd : add x y = if N = 0 then zero (x.msb && y.msb) else round (decide (N < 0)) N.natAbs (min e₁ e₂) := by
    simp only [add, h₁, h₂]; rfl
  by_cases h0 : N = 0
  · rw [hadd, if_pos h0, hsum, h0, Int.cast_zero, zero_mul]
    exact ⟨roundsTo_zero _, fun _ => rfl⟩
  · rw [hadd, if_neg h0, hsum, ← signFactor_mul_natAbs, mul_assoc]
    refine ⟨(represents_self _).roundsTo_round _ _, fun hzero => absurd ?_ h0⟩
    rw [hzero, Rat.cast_zero, eq_comm, mul_eq_zero] at hsum
    exact_mod_cast hsum.resolve_right (by positivity)

theorem add_infinity_finite (n : Bool) {x : U64} (hx : isFinite x = true) : add (infinity n) x = infinity n := by
  obtain ⟨m, e, h, -⟩ := exists_unpack_of_isFinite hx
  simp only [add, unpack_infinity, h]

theorem add_finite_infinity (n : Bool) {x : U64} (hx : isFinite x = true) : add x (infinity n) = infinity n := by
  obtain ⟨m, e, h, -⟩ := exists_unpack_of_isFinite hx
  simp only [add, unpack_infinity, h]

theorem add_infinity_self (n : Bool) : add (infinity n) (infinity n) = infinity n := by
  simp [add, unpack_infinity]

theorem sub_finite {x y : U64} (hx : isFinite x = true) (hy : isFinite y = true) :
    roundsTo ((exactValue x - exactValue y : ℚ) : ℝ) (sub x y) ∧
    (exactValue x - exactValue y = 0 → sub x y = zero (x.msb && !y.msb)) := by
  have h := add_finite hx ((isFinite_neg y).trans hy)
  rwa [exactValue_neg hy, ← sub_eq_add_neg, msb_neg] at h

/-- Settles O35: the sum is an integer in units of the smaller last place, rounded once; subtraction adds the negation. -/
theorem sumIsCorrectlyRounded : Obligations.SumIsCorrectlyRounded := by
  refine ⟨fun x y hx hy => ?_, fun n x hx => ?_, fun n => ?_⟩
  · obtain ⟨hadd, hadd0⟩ := add_finite hx hy
    obtain ⟨hsub, hsub0⟩ := sub_finite hx hy
    exact ⟨hadd, hsub, hadd0, hsub0⟩
  · refine ⟨add_infinity_finite n hx, add_finite_infinity n hx, add_infinity_finite n ((isFinite_neg x).trans hx), ?_⟩
    rw [sub, neg_infinity, add_finite_infinity _ hx]
  · refine ⟨add_infinity_self n, ?_⟩
    rw [sub, neg_infinity, Bool.not_not, add_infinity_self]

/-! ## Multiplication -/

theorem mul_finite {x y : U64} (hx : isFinite x = true) (hy : isFinite y = true) :
    roundsTo ((exactValue x * exactValue y : ℚ) : ℝ) (mul x y) ∧ (mul x y).msb = (x.msb ^^ y.msb) := by
  obtain ⟨m₁, e₁, h₁, -⟩ := exists_unpack_of_isFinite hx
  obtain ⟨m₂, e₂, h₂, -⟩ := exists_unpack_of_isFinite hy
  have hprod : ((exactValue x * exactValue y : ℚ) : ℝ) =
      signFactor (x.msb ^^ y.msb) * ((m₁ * m₂ : ℕ) * 2 ^ (e₁ + e₂)) := by
    rw [Rat.cast_mul, exactValue_of_unpack h₁, exactValue_of_unpack h₂, signFactor_xor, zpow_add₀ two_ne_zero]
    push_cast; ring
  have hmul : mul x y = round (x.msb ^^ y.msb) (m₁ * m₂) (e₁ + e₂) := by simp only [mul, h₁, h₂]
  rw [hprod, hmul]
  exact ⟨(represents_self _).roundsTo_round _ _, msb_round _ _ _⟩

theorem mul_infinity_finite (n : Bool) {x : U64} (hx : isFinite x = true) (h0 : isZero x = false) :
    mul (infinity n) x = infinity (n ^^ x.msb) ∧ mul x (infinity n) = infinity (x.msb ^^ n) := by
  obtain ⟨m, e, h, -, -, hzero⟩ := exists_unpack_of_isFinite hx
  have hm : m ≠ 0 := fun hm => by simp [hzero.2 hm] at h0
  simp only [mul, unpack_infinity, h, if_neg hm, and_self]

theorem mul_infinity_infinity (n m : Bool) : mul (infinity n) (infinity m) = infinity (n ^^ m) := by
  simp only [mul, unpack_infinity]

/-! ## Division -/

/-- The quotient with a sticky bit stands for twice the exact quotient. -/
theorem represents_quotient {a b : Nat} (hb : b ≠ 0) (hq : 2 ^ 53 ≤ a / b) :
    Represents (2 * (a / b) + sticky (a % b)) (2 * ((a : ℝ) / b)) := by
  have hbpos : (0 : ℝ) < b := by exact_mod_cast Nat.pos_of_ne_zero hb
  have hsplit : (b : ℝ) * (a / b : ℕ) + (a % b : ℕ) = a := by exact_mod_cast Nat.div_add_mod a b
  have hrem : ((a % b : ℕ) : ℝ) < b := by exact_mod_cast Nat.mod_lt a (Nat.pos_of_ne_zero hb)
  refine represents_sticky hq (fun h0 => ?_) fun h0 => ?_
  · rw [h0, Nat.cast_zero, add_zero] at hsplit
    rw [div_eq_iff hbpos.ne', ← hsplit, mul_comm]
  · have hpos : (0 : ℝ) < (a % b : ℕ) := by exact_mod_cast Nat.pos_of_ne_zero h0
    rw [lt_div_iff₀ hbpos, div_lt_iff₀ hbpos]
    constructor <;> linarith

theorem div_finite {x y : U64} (hx : isFinite x = true) (hy : isFinite y = true) (h0 : isZero y = false) :
    roundsTo ((exactValue x / exactValue y : ℚ) : ℝ) (div x y) ∧ (div x y).msb = (x.msb ^^ y.msb) := by
  obtain ⟨m₁, e₁, h₁, -⟩ := exists_unpack_of_isFinite hx
  obtain ⟨m₂, e₂, h₂, hlt₂, -, hzero⟩ := exists_unpack_of_isFinite hy
  have hm₂ : m₂ ≠ 0 := fun hm => by simp [hzero.2 hm] at h0
  have hdiv : div x y = round (x.msb ^^ y.msb) (2 * ((m₁ <<< 110) / m₂) + sticky ((m₁ <<< 110) % m₂)) (e₁ - e₂ - 111) := by
    simp only [div, h₁, h₂, if_neg hm₂]
  have hquot : ((exactValue x / exactValue y : ℚ) : ℝ) =
      signFactor (x.msb ^^ y.msb) * (2 * (((m₁ <<< 110 : ℕ) : ℝ) / m₂) * 2 ^ (e₁ - e₂ - 111)) := by
    rw [Rat.cast_div, exactValue_of_unpack h₁, exactValue_of_unpack h₂, signFactor_xor, Nat.shiftLeft_eq,
      zpow_sub₀ two_ne_zero, zpow_sub₀ two_ne_zero, div_eq_mul_inv, mul_inv, inv_signFactor]
    push_cast
    field_simp
    norm_num
  have hrep : Represents (2 * ((m₁ <<< 110) / m₂) + sticky ((m₁ <<< 110) % m₂)) (2 * (((m₁ <<< 110 : ℕ) : ℝ) / m₂)) := by
    rcases Nat.eq_zero_or_pos m₁ with rfl | hm₁
    · left; simp [sticky]
    · refine represents_quotient hm₂ ((Nat.le_div_iff_mul_le (Nat.pos_of_ne_zero hm₂)).2 ?_)
      rw [Nat.shiftLeft_eq]
      nlinarith
  rw [hdiv, hquot]
  exact ⟨hrep.roundsTo_round _ _, msb_round _ _ _⟩

theorem div_finite_zero {x y : U64} (hx : isFinite x = true) (hy : isFinite y = true) (hy0 : isZero y = true)
    (hx0 : isZero x = false) : div x y = infinity (x.msb ^^ y.msb) := by
  obtain ⟨m₁, e₁, h₁, -, -, hzero₁⟩ := exists_unpack_of_isFinite hx
  obtain ⟨m₂, e₂, h₂, -, -, hzero₂⟩ := exists_unpack_of_isFinite hy
  have hm₁ : m₁ ≠ 0 := fun hm => by simp [hzero₁.2 hm] at hx0
  simp only [div, h₁, h₂, if_pos (hzero₂.1 hy0), if_neg hm₁]

theorem div_infinity_finite (n : Bool) {x : U64} (hx : isFinite x = true) :
    div (infinity n) x = infinity (n ^^ x.msb) ∧ div x (infinity n) = zero (x.msb ^^ n) := by
  obtain ⟨m, e, h, -⟩ := exists_unpack_of_isFinite hx
  simp only [div, unpack_infinity, h, and_self]

/-- Settles O36: a product is exact before its one rounding; a quotient is cut off far below the last place, with a sticky
bit. -/
theorem productAndQuotientAreCorrectlyRounded : Obligations.ProductAndQuotientAreCorrectlyRounded := by
  refine ⟨fun x y hx hy => ?_, fun n x hx => ?_, mul_infinity_infinity⟩
  · obtain ⟨hmul, hsign⟩ := mul_finite hx hy
    exact ⟨hmul, hsign, div_finite hx hy, div_finite_zero hx hy⟩
  · obtain ⟨hleft, hright⟩ := div_infinity_finite n hx
    exact ⟨mul_infinity_finite n hx, hleft, hright⟩

/-! ## The square root -/

/-- The root by bits keeps `r² ≤ n < (r + 2^b)²`. -/
theorem isqrtFrom_bounds {n b r : Nat} (hlow : r * r ≤ n) (hhigh : n < (r + 2 ^ b) * (r + 2 ^ b)) :
    isqrtFrom n b r * isqrtFrom n b r ≤ n ∧ n < (isqrtFrom n b r + 1) * (isqrtFrom n b r + 1) := by
  induction b generalizing r with
  | zero => exact ⟨hlow, by simpa [isqrtFrom] using hhigh⟩
  | succ b ih =>
    rw [isqrtFrom]
    split
    next hle => exact ih hle (by rwa [add_assoc, ← two_mul, ← pow_succ'])
    next hgt => exact ih hlow (not_le.1 hgt)

theorem isqrt_bounds {n : Nat} (hn : n < 2 ^ 180) : isqrt n * isqrt n ≤ n ∧ n < (isqrt n + 1) * (isqrt n + 1) :=
  isqrtFrom_bounds (by omega) (by norm_num; omega)

/-- The integer root with a sticky bit stands for twice the exact root. -/
theorem represents_root {a : Nat} (hlow : 2 ^ 106 ≤ a) (hhigh : a < 2 ^ 180) :
    Represents (2 * isqrt a + sticky (a - isqrt a * isqrt a)) (2 * Real.sqrt a) := by
  obtain ⟨hle, hlt⟩ := isqrt_bounds hhigh
  set r := isqrt a
  have hr : 2 ^ 53 ≤ r := by nlinarith
  refine represents_sticky hr (fun h0 => ?_) fun h0 => ⟨?_, ?_⟩
  · rw [show a = r * r by omega, Nat.cast_mul, Real.sqrt_mul_self (by positivity)]
  · rw [Real.lt_sqrt (by positivity), pow_two]
    exact_mod_cast (by omega : r * r < a)
  · rw [Real.sqrt_lt' (by positivity), pow_two]
    exact_mod_cast hlt

/-- A number with an even exponent: half the exponent comes out of the root, and 60 more bits go in. -/
theorem sqrt_scaled (m : Nat) (e : Int) :
    Real.sqrt (m * 2 ^ e) = 2 * Real.sqrt ((m <<< ((e % 2).toNat + 120) : ℕ) : ℝ) * 2 ^ ((e - e % 2) / 2 - 61) := by
  have hpow : ((m <<< ((e % 2).toNat + 120) : ℕ) : ℝ) = m * 2 ^ e * (2 ^ (60 - (e - e % 2) / 2)) ^ 2 := by
    rw [Nat.shiftLeft_eq, mul_assoc, ← zpow_natCast, ← zpow_mul, ← zpow_add₀ two_ne_zero]
    push_cast
    rw [← zpow_natCast]
    congr 2
    push_cast
    omega
  have hback : (2 : ℝ) * 2 ^ (60 - (e - e % 2) / 2) * 2 ^ ((e - e % 2) / 2 - 61) = 1 := by
    rw [← zpow_one_add₀ two_ne_zero, ← zpow_add₀ two_ne_zero, ← zpow_zero 2]
    congr 1; ring
  rw [hpow, Real.sqrt_mul (x := m * 2 ^ e) (by positivity), Real.sqrt_sq (by positivity)]
  linear_combination (-Real.sqrt (m * 2 ^ e)) * hback

theorem root_operand_bounds {m : Nat} (hm : 0 < m) (hlt : m < 2 ^ 53) (e : Int) :
    2 ^ 106 ≤ m <<< ((e % 2).toNat + 120) ∧ m <<< ((e % 2).toNat + 120) < 2 ^ 180 := by
  have hodd : (e % 2).toNat = 0 ∨ (e % 2).toNat = 1 := by omega
  rw [Nat.shiftLeft_eq]
  rcases hodd with h | h <;> rw [h] <;> omega

theorem sqrt_of_unpack {x : U64} {m : Nat} {e : Int} (h : unpack x = .finite false m e) (hm : m ≠ 0) :
    sqrt x = round false (2 * isqrt (m <<< ((e % 2).toNat + 120)) +
      sticky (m <<< ((e % 2).toNat + 120) - isqrt (m <<< ((e % 2).toNat + 120)) * isqrt (m <<< ((e % 2).toNat + 120))))
      ((e - e % 2) / 2 - 61) := by
  simp only [sqrt, h, if_neg hm, Bool.false_eq_true, if_false]

theorem sqrt_zero {x : U64} (hx : isFinite x = true) (h0 : isZero x = true) : sqrt x = x := by
  obtain ⟨m, e, h, -, -, hzero⟩ := exists_unpack_of_isFinite hx
  simp only [sqrt, h, if_pos (hzero.1 h0)]

theorem sqrt_positive {x : U64} (hx : isFinite x = true) (h0 : isZero x = false) (hnonneg : 0 ≤ exactValue x) :
    roundsTo (Real.sqrt (exactValue x : ℝ)) (sqrt x) ∧ (sqrt x).msb = false := by
  obtain ⟨m, e, h, hlt, -, hzero⟩ := exists_unpack_of_isFinite hx
  have hm : 0 < m := Nat.pos_of_ne_zero fun hm => by simp [hzero.2 hm] at h0
  have hvalue := exactValue_of_unpack h
  have hsign : x.msb = false := by
    by_contra hneg
    have hR : (0 : ℝ) ≤ exactValue x := by exact_mod_cast hnonneg
    have hpos : (0 : ℝ) < m * 2 ^ e := by positivity
    rw [hvalue] at hR
    exact not_lt.2 hR ((signFactor_mul_neg_iff _ hpos).2 (by simpa using hneg))
  rw [hsign] at h hvalue
  obtain ⟨hlow, hhigh⟩ := root_operand_bounds hm hlt e
  have hround := (represents_root hlow hhigh).roundsTo_round false ((e - e % 2) / 2 - 61)
  rw [signFactor_false, one_mul, ← sqrt_scaled] at hround
  rw [sqrt_of_unpack h hm.ne', hvalue, signFactor_false, one_mul]
  exact ⟨hround, msb_round _ _ _⟩

/-- Settles O37: the root of the significand at an even exponent is cut off far below the last place, with a sticky bit. -/
theorem squareRootIsCorrectlyRounded : Obligations.SquareRootIsCorrectlyRounded := by
  refine ⟨fun x hx hnonneg => ?_, ?_⟩
  · cases h0 : isZero x with
    | true =>
      have hroot := sqrt_zero hx h0
      have hx0 : exactValue x = 0 := by rw [eq_zero_of_isZero h0, exactValue_zero]
      refine ⟨?_, fun _ => hroot, fun h => absurd h (by simp)⟩
      rw [hroot, hx0, Rat.cast_zero, Real.sqrt_zero, eq_zero_of_isZero h0]
      exact roundsTo_zero _
    | false =>
      obtain ⟨hround, hsign⟩ := sqrt_positive hx h0 hnonneg
      exact ⟨hround, fun h => absurd h (by simp), fun _ => hsign⟩
  · simp [sqrt, unpack_infinity]

end Sys2Proof.Machine.Binary64
end

