-- ==== Sys2Proof/Proofs/StartedResponses.lean ====
section
/-! SUPPORT. Which response a command starts, said once for all forty commands, and that it is well formed and stays so from
beat to beat (R36, R236, R262, R264). -/

namespace Sys2Proof.Machine

/-! ## What a command starts -/

/-- The three kinds of response a command starts: an OK response of given words, a failing one, and the stream of ALL_NBRS
for a cell and a level that have passed its checks (R36, R236, R262). -/
inductive Started (rd : TableReader) : InFlight → Prop
  | okWith (words : List U64) : Started rd (okWith words)
  | failWith {st : Status} (h : st ≠ .ok) : Started rd (failWith st)
  | stream {x : U64} {lvl : Nat} (hvalid : valid x = true) (hle : level x ≤ lvl) (hlvl : lvl ≤ 30) :
      Started rd (streamFrom rd true (allNbrsStart rd x lvl))

namespace Started

variable {rd : TableReader} {r : InFlight}

/-- A check starts its failure or what comes after it. -/
theorem require {c : Bool} {st : Status} (hst : st ≠ .ok) (h : c = true → Started rd r) : Started rd (require c st r) := by
  obtain ⟨hc, e⟩ | ⟨-, e⟩ := require_cases c st r
  · rw [e]; exact h hc
  · rw [e]; exact .failWith hst

theorem face {f : Nat} (h : Started rd r) : Started rd (requireFace f r) := require nofun fun _ => h

theorem level {lvl : Nat} (h : lvl ≤ 30 → Started rd r) : Started rd (requireLevel lvl r) :=
  require nofun fun hc => h (of_decide_eq_true hc)

theorem relation {c : Bool} (h : c = true → Started rd r) : Started rd (requireRelation c r) := require nofun h

theorem input {c : Bool} (h : Started rd r) : Started rd (requireInput c r) := require nofun fun _ => h

theorem cell {x : U64} (h : valid x = true → Started rd r) : Started rd (requireCell x r) := require nofun h

theorem parentCell {x : U64} (h : Started rd r) : Started rd (requireParentCell x r) := cell fun _ => relation fun _ => h

theorem grid {i j : Int} (h : Started rd r) : Started rd (requireGrid i j r) := input (input h)

theorem vector {p : Vec3} (h : Started rd r) : Started rd (requireVector p r) := input (input h)

theorem number {x : U64} (h : Started rd r) : Started rd (requireNumber x r) := input h

theorem header_eq (h : Started rd r) : r.header = true := by cases h <;> rfl

end Started

open Started in
/-- Every command starts one of these responses and changes nothing else. -/
theorem exec_starts (i : Instr) (s : State) :
    ∃ r, exec i s = .next (s.beginResponse r) ∧ Started s.tblRead r := by
  cases i with
  | tblPos | tblIj => exact ⟨_, rfl, input (.okWith _)⟩
  | faceUvToXyz face => exact ⟨_, rfl, .face (number (number (.okWith _)))⟩
  | xyzToFaceUv | fromPoint => exact ⟨_, rfl, vector (.okWith _)⟩
  | stToUv | uvToSt | stToIj => exact ⟨_, rfl, number (.okWith _)⟩
  | ijToStMin => exact ⟨_, rfl, input (.okWith _)⟩
  | fromFaceIj face => exact ⟨_, rfl, .face (grid (.okWith _))⟩
  | toFaceIjo | levelOf => exact ⟨_, rfl, cell fun _ => .okWith _⟩
  | fromFaceIjWrap face | fromFace face => exact ⟨_, rfl, .face (.okWith _)⟩
  | fromFaceIjSame face same =>
    refine ⟨_, rfl, .face ?_⟩
    cases same
    · exact .okWith _
    · exact grid (.okWith _)
  | fromFacePosLevel face lvl => exact ⟨_, rfl, .face (.level fun _ => input (.okWith _))⟩
  | beginAt lvl | endAt lvl => exact ⟨_, rfl, .level fun _ => .okWith _⟩
  | faceOf | posOf | isLeaf | isValid => exact ⟨_, rfl, .okWith _⟩
  | parent lvl | childBeginAt lvl | childEndAt lvl | childPosition lvl | vertexNbrs lvl =>
    exact ⟨_, rfl, cell fun _ => .level fun _ => relation fun _ => .okWith _⟩
  | immParent => exact ⟨_, rfl, cell fun _ => relation fun _ => .okWith _⟩
  | child cpos => exact ⟨_, rfl, parentCell (.okWith _)⟩
  | children | childBegin | childEnd => exact ⟨_, rfl, parentCell (.okWith _)⟩
  | nextCell | advance | rangeMin | rangeMax | edgeNbrs => exact ⟨_, rfl, cell fun _ => .okWith _⟩
  | contains | intersects => exact ⟨_, rfl, cell fun _ => cell fun _ => .okWith _⟩
  | allNbrs lvl => exact ⟨_, rfl, cell fun hv => .level fun hl => relation fun hle =>
    .stream hv (of_decide_eq_true hle) hl⟩

/-- The acceptance of a command starts its response, or ILLEGAL_OP, and ends the offer (R33, R76). -/
theorem accept_starts (s : State) :
    ∃ r, accept s = .next (s.beginResponse r).endOffer ∧ Started s.tblRead r := by
  unfold accept
  split
  · next i _ =>
    obtain ⟨r, hexec, hstart⟩ := exec_starts i s
    exact ⟨r, by rw [hexec, andThen_next], hstart⟩
  · exact ⟨_, rfl, .failWith nofun⟩

/-! ## The grid coordinates of a decoded cell -/

/-- The coordinates so far leave room for `k` more chunks below a bound (R135). -/
def RoomFor (bound : Int) (k : Nat) (acc : Int × Int × Orientation) : Prop :=
  (0 ≤ acc.1 ∧ acc.1 + 2 ^ (4 * k) ≤ bound) ∧ (0 ≤ acc.2.1 ∧ acc.2.1 + 2 ^ (4 * k) ≤ bound)

/-- A chunk of 4 bits uses up the room of one chunk. -/
theorem RoomFor.decodeChunk {bound : Int} {k : Nat} {acc : Int × Int × Orientation} (rd : TableReader) (x : U64)
    (h : RoomFor bound (k + 1) acc) : RoomFor bound k (decodeChunk rd x acc k) := by
  have hstep : ∀ (a : Int) (c : BitVec 4), 0 ≤ a ∧ a + 2 ^ (4 * (k + 1)) ≤ bound →
      0 ≤ a + (c.toNat : Int) * 2 ^ (4 * k) ∧ a + (c.toNat : Int) * 2 ^ (4 * k) + 2 ^ (4 * k) ≤ bound := by
    intro a c ⟨hnonneg, hroom⟩
    have hpow : (2 : Int) ^ (4 * (k + 1)) = 16 * 2 ^ (4 * k) := by rw [Nat.mul_succ, pow_add]; ring
    have hc : (c.toNat : Int) ≤ 15 := by have := c.isLt; omega
    have hpos : (0 : Int) < 2 ^ (4 * k) := by positivity
    exact ⟨by positivity, by nlinarith⟩
  exact ⟨hstep _ _ h.1, hstep _ _ h.2⟩

/-- The first lookup of a decode reads 4 position bits below four zeros, under an orientation that is not inverted, and its
chunks of i and j are below 4 (R133, R135). -/
theorem ijEntry_top_lt (q : BitVec 4) (o : Orientation) :
    ((ijEntry (q.setWidth 8 ++ (o &&& Config.swapMask))).extractLsb' 6 4).toNat < 4 ∧
    ((ijEntry (q.setWidth 8 ++ (o &&& Config.swapMask))).extractLsb' 2 4).toNat < 4 := by
  revert q o
  decide +kernel

/-- The first chunk leaves room for seven more below 2^30. -/
theorem roomFor_first_chunk {rd : TableReader} (hrd : ∀ idx, rd .lookupIJ idx = ijEntry idx) (x : U64) :
    RoomFor (2 ^ 30) 7 (decodeChunk rd x (0, 0, faceOrientation (faceField x)) 7) := by
  obtain ⟨hi, hj⟩ := ijEntry_top_lt (x.extractLsb' 57 4) (BitVec.ofNat 2 (faceField x))
  simp only [RoomFor, decodeChunk, hrd, positionChunk, faceOrientation, if_true]
  omega

/-- With initialised tables a cell decodes to coordinates of the grid (R135, R152). -/
theorem hilbertDecode_on_grid {rd : TableReader} (hrd : ∀ idx, rd .lookupIJ idx = ijEntry idx) (x : U64) :
    RoomFor (2 ^ 30) 0 (hilbertDecode rd x) := by
  have h7 := roomFor_first_chunk hrd x
  exact ((((((h7.decodeChunk rd x).decodeChunk rd x).decodeChunk rd x).decodeChunk rd x).decodeChunk rd x).decodeChunk
    rd x).decodeChunk rd x

/-! ## The ALL_NBRS loop -/

theorem sizeIJ_pos (lvl : Nat) : 0 < sizeIJ lvl := by unfold sizeIJ; positivity

theorem sizeIJ_dvd {a b : Nat} (h : a ≤ b) : sizeIJ b ∣ sizeIJ a := pow_dvd_pow 2 (by omega)

/-- A grid coordinate rounded down to a multiple of a size leaves a square of that size on the face. -/
theorem floor_size_on_face {a size : Int} (hpos : 0 < size) (hdvd : size ∣ 2 ^ 30) (hnonneg : 0 ≤ a)
    (hlt : a < 2 ^ 30) : 0 ≤ a - a % size ∧ a - a % size + size ≤ 2 ^ 30 := by
  obtain ⟨n, hn⟩ := hdvd
  have hfloor : a - a % size = size * (a / size) := by have := Int.mul_ediv_add_emod a size; omega
  have hquot : a / size + 1 ≤ n := Int.ediv_lt_of_lt_mul hpos (by rw [mul_comm, ← hn]; exact hlt)
  rw [hfloor]
  exact ⟨mul_nonneg hpos.le (Int.ediv_nonneg hnonneg hpos.le), by nlinarith⟩

theorem faceField_lt_of_valid {x : U64} (h : valid x = true) : faceField x < 6 := by
  simp only [valid, Bool.and_eq_true, decide_eq_true_eq] at h
  exact h.1

/-- The loop of a cell and a level is well formed after its first iteration (R234). -/
theorem loopOk_after_start {rd : TableReader} (hrd : ∀ idx, rd .lookupIJ idx = ijEntry idx) {x : U64} {lvl : Nat}
    (hvalid : valid x = true) (hle : level x ≤ lvl) (hlvl : lvl ≤ 30) :
    LoopOk { allNbrsStart rd x lvl with k := 0 } := by
  obtain ⟨⟨hi, hi'⟩, hj, hj'⟩ := hilbertDecode_on_grid hrd x
  have hsize : sizeIJ (level x) ∣ 2 ^ 30 := sizeIJ_dvd (Nat.zero_le _)
  have hfloor := fun a => floor_size_on_face (a := a) (sizeIJ_pos (level x)) hsize
  exact
    { face_lt := faceField_lt_of_valid hvalid
      level_le := hlvl
      ns_pos := sizeIJ_pos lvl
      ns_dvd_size := sizeIJ_dvd hle
      ns_dvd_k := dvd_zero _
      k_nonneg := le_refl _
      k_le := (sizeIJ_pos _).le
      i_nonneg := (hfloor _ hi hi').1
      i_le := (hfloor _ hi hi').2
      j_nonneg := (hfloor _ hj hj').1
      j_le := (hfloor _ hj hj').2 }

theorem loopNext_start (rd : TableReader) (x : U64) (lvl : Nat) :
    loopNext (allNbrsStart rd x lvl) = some { allNbrsStart rd x lvl with k := 0 } := by
  have hneg : ¬ (allNbrsStart rd x lvl).size ≤ (allNbrsStart rd x lvl).k :=
    not_le.mpr ((neg_neg_of_pos (sizeIJ_pos lvl)).trans (sizeIJ_pos _))
  rw [loopNext, if_neg hneg]
  simp [allNbrsStart]

/-- An iteration that is not the last one moves k on by ns, not beyond size. -/
theorem LoopOk.loopNext {l : NbrLoop} (h : LoopOk l) :
    (l.k = l.size ∧ loopNext l = none) ∨
    (l.k + l.ns ≤ l.size ∧ loopNext l = some { l with k := l.k + l.ns } ∧ LoopOk { l with k := l.k + l.ns }) := by
  unfold Machine.loopNext
  rcases h.k_le.eq_or_lt with hk | hk
  · exact .inl ⟨hk, if_pos hk.ge⟩
  · have hgap : l.ns ≤ l.size - l.k := Int.le_of_dvd (sub_pos.mpr hk) (dvd_sub h.ns_dvd_size h.ns_dvd_k)
    have hk' : l.k + l.ns ≤ l.size := by omega
    have hnonneg : 0 ≤ l.k + l.ns := add_nonneg h.k_nonneg h.ns_pos.le
    exact .inr ⟨hk', if_neg (not_le.mpr hk),
      { h with ns_dvd_k := dvd_add_self_right.mpr h.ns_dvd_k, k_nonneg := hnonneg, k_le := hk' }⟩

theorem loopWords_ne_nil (rd : TableReader) (l : NbrLoop) : loopWords rd l ≠ [] := by simp [loopWords]

/-! ## Well-formed responses -/

theorem responseOk_okWith (words : List U64) : ResponseOk (okWith words) := ⟨nofun, fun h => absurd rfl h, nofun⟩

theorem responseOk_failWith (st : Status) : ResponseOk (failWith st) := ⟨nofun, fun _ => ⟨rfl, rfl, rfl⟩, nofun⟩

/-- An iteration's response is well formed when the loop that follows it is. -/
theorem responseOk_streamFrom {rd : TableReader} {header : Bool} {l : NbrLoop}
    (h : ∀ l', loopNext l = some l' → LoopOk l') : ResponseOk (streamFrom rd header l) :=
  ⟨fun _ => loopWords_ne_nil rd l, fun hst => absurd rfl hst, fun l' e => ⟨loopWords_ne_nil rd l, h l' e⟩⟩

/-- With initialised tables every response that a command starts is well formed. -/
theorem Started.responseOk {rd : TableReader} {r : InFlight} (hrd : ∀ idx, rd .lookupIJ idx = ijEntry idx)
    (h : Started rd r) : ResponseOk r := by
  cases h with
  | okWith words => exact responseOk_okWith words
  | failWith _ => exact responseOk_failWith _
  | stream hvalid hle hlvl =>
    refine responseOk_streamFrom fun l' e => ?_
    rw [loopNext_start] at e
    cases e
    exact loopOk_after_start hrd hvalid hle hlvl

/-- What a beat leaves of a well-formed response: nothing of a header alone, the words after a header, the words after a word,
nothing of a final word, the next iteration after the last word of one (R36, R236). -/
theorem ResponseOk.afterBeat_cases {r : InFlight} (h : ResponseOk r) (rd : TableReader) :
    (r.header = true ∧ r.words = [] ∧ r.loop = none ∧ r.afterBeat rd = none) ∨
    (r.header = true ∧ r.words ≠ [] ∧ r.afterBeat rd = some { r with header := false }) ∨
    (∃ w w' ws, r.header = false ∧ r.words = w :: w' :: ws ∧ r.afterBeat rd = some { r with words := w' :: ws }) ∨
    (∃ w, r.header = false ∧ r.words = [w] ∧ r.loop = none ∧ r.afterBeat rd = none) ∨
    (∃ w l, r.header = false ∧ r.words = [w] ∧ r.loop = some l ∧ r.afterBeat rd = some (streamFrom rd false l)) := by
  obtain ⟨st, header, words, loop⟩ := r
  match header, words, loop with
  | true, [], none => exact .inl ⟨rfl, rfl, rfl, rfl⟩
  | true, [], some l => exact absurd rfl (h.iterating l rfl).1
  | true, w :: ws, loop => exact .inr (.inl ⟨rfl, nofun, by simp [InFlight.afterBeat]⟩)
  | false, [], _ => exact absurd rfl (h.word_at_hand rfl)
  | false, w :: w' :: ws, _ => exact .inr (.inr (.inl ⟨w, w', ws, rfl, rfl, rfl⟩))
  | false, [w], none => exact .inr (.inr (.inr (.inl ⟨w, rfl, rfl, rfl, rfl⟩)))
  | false, [w], some l => exact .inr (.inr (.inr (.inr ⟨w, l, rfl, rfl, rfl, rfl⟩)))

/-- A response stays well formed from beat to beat. -/
theorem ResponseOk.afterBeat {r r' : InFlight} {rd : TableReader} (h : ResponseOk r) (e : r.afterBeat rd = some r') :
    ResponseOk r' := by
  rcases h.afterBeat_cases rd with ⟨-, -, -, e'⟩ | ⟨-, hw, e'⟩ | ⟨w, w', ws, hh, -, e'⟩ | ⟨-, -, -, -, e'⟩ |
    ⟨w, l, -, -, hl, e'⟩ <;> rw [e'] at e <;> cases e
  · exact ⟨fun _ => hw, fun hst => absurd (h.failing hst).2.1 hw, h.iterating⟩
  · refine ⟨nofun, fun hst => absurd (h.failing hst).1 (by simp [hh]), fun l hl => ⟨nofun, (h.iterating l hl).2⟩⟩
  · refine responseOk_streamFrom fun l' e => ?_
    rcases (h.iterating l hl).2.loopNext with ⟨-, e'⟩ | ⟨-, e', hok⟩ <;> rw [e'] at e <;> cases e
    exact hok

end Sys2Proof.Machine
end

