-- ==== Sys2Proof/Proofs/CoreEvents.lean ====
section
/-! SUPPORT. The events of the core, said once, and the statements about every step: the invariant, READY and the tables, STAT
(R30, R34, R38, R264, R290 to R296). -/

namespace Sys2Proof.Machine

/-! ## One event of the core -/

/-- What the core's own event can be and the state it leaves (R33, R36, R290 to R296). -/
inductive CoreEvent (s : State) : State → Prop
  | reset (hrst : s.rst = true) : CoreEvent s s.holdInReset
  | initialise (hrst : s.rst = false) (hready : s.ready = false) : CoreEvent s s.initialise
  | beat {r : InFlight} (hrst : s.rst = false) (hready : s.ready = true) (hr : s.inflight = some r) :
      CoreEvent s (s.transferBeat r)
  | accept {r : InFlight} (h : accepting s) (hstart : Started s.tblRead r) : CoreEvent s (s.beginResponse r).endOffer
  | acceptBehind {r r' : InFlight} (hrst : s.rst = false) (hready : s.ready = true) (hr : s.inflight = some r)
      (hoverlap : Config.overlap = true) (hstart : Started s.tblRead r') :
      CoreEvent s ((s.responseAside.beginResponse r').endOffer.queueBehind s.inflight)
  | idle (hrst : s.rst = false) (hready : s.ready = true) (hr : s.inflight = none) : CoreEvent s s

/-- The core always has one of these events: nothing stops it (R264). -/
theorem coreStep_event (s : State) : ∃ t, coreStep s = .next t ∧ CoreEvent s t := by
  cases hrst : s.rst with
  | true => exact ⟨_, coreStep_rst hrst, .reset hrst⟩
  | false =>
  cases hready : s.ready with
  | false => exact ⟨_, coreStep_init hrst hready, .initialise hrst hready⟩
  | true =>
  cases hr : s.inflight with
  | none =>
    cases hcmd : s.cmdValid with
    | false => exact ⟨s, coreStep_idle hrst hready hr hcmd, .idle hrst hready hr⟩
    | true =>
      have hacc : accepting s := ⟨hrst, hready, hr, hcmd⟩
      obtain ⟨r, haccept, hstart⟩ := accept_starts s
      exact ⟨_, (coreStep_accept hacc).trans haccept, .accept hacc hstart⟩
  | some r =>
    by_cases hbehind : s.cmdValid = true ∧ s.queued = none ∧ Config.overlap = true
    · obtain ⟨hcmd, hqueued, hoverlap⟩ := hbehind
      obtain ⟨r', haccept, hstart⟩ := accept_starts s.responseAside
      refine ⟨_, ?_, .acceptBehind hrst hready hr hoverlap hstart⟩
      rw [coreStep_overlap hrst hready hr hcmd hqueued, if_pos hoverlap, acceptBehind, haccept, andThen_next]
    · refine ⟨_, ?_, .beat hrst hready hr⟩
      simp only [coreStep, hrst, hready, hr, Bool.not_true, Bool.false_eq_true, if_false]
      exact if_neg (by simpa [and_assoc] using hbehind)

/-- Every step is an event of the core and the user's move. -/
theorem step_event (s : State) : ∃ u, step s = .next u.userMove ∧ CoreEvent s u := by
  obtain ⟨u, hcore, hevent⟩ := coreStep_event s
  exact ⟨u, by rw [step, hcore, andThen_next], hevent⟩

/-! ## The invariant -/

theorem tblRead_lookupIJ {s : State} (h : tablesInitialised s) (idx : Entry) : s.tblRead .lookupIJ idx = ijEntry idx :=
  s.tblRead_of_initialised h .lookupIJ idx

theorem Inv.quiet_queue {s : State} (h : Inv s) (hr : s.inflight = none) : s.queued = none := by
  cases hq : s.queued with
  | none => rfl
  | some q => exact absurd (h.behind (by simp [hq])) (by simp [hr])

theorem Inv.ready_of_inflight {s : State} {r : InFlight} (h : Inv s) (hr : s.inflight = some r) : s.ready = true := by
  cases hready : s.ready with
  | true => rfl
  | false => exact absurd (h.quiet hready) (by simp [hr])

theorem inv_holdInReset (s : State) : Inv s.holdInReset :=
  ⟨rfl, fun _ => rfl, nofun, memory_wf_holdInReset s, nofun, nofun, fun _ => rfl, nofun⟩

theorem Inv.initialise {s : State} (h : Inv s) : Inv s.initialise :=
  { h with quiet := nofun, tables := fun _ => ⟨rfl, rfl⟩, memory := memory_wf_initialise s }

theorem Inv.endOffer {s : State} (h : Inv s) : Inv s.endOffer := { h with }

theorem Inv.userMove {s : State} (h : Inv s) : Inv s.userMove where
  busy_iff := by simpa using h.busy_iff
  quiet := by simpa using h.quiet
  tables := by simpa [tablesInitialised] using h.tables
  memory := by simpa [Memory.wf] using h.memory
  response := by simpa using h.response
  behind := by simpa using h.behind
  overlapping := by simpa using h.overlapping
  queuedResponse := by simpa using h.queuedResponse

/-- With the invariant, a response's end leaves the queued one in flight and BUSY telling of it. -/
theorem Inv.endResponse_eq {s : State} {r : InFlight} (h : Inv s) (hr : s.inflight = some r) :
    s.endResponse = { s with inflight := s.queued, queued := none, busy := s.queued.isSome } := by
  have hbusy : s.busy = true := by rw [h.busy_iff, hr]; rfl
  rcases s.endResponse_cases with ⟨q, hq, e⟩ | ⟨hq, e⟩ <;> rw [e, hq]
  · simp [← hbusy]
  · rfl

theorem Inv.endResponse {s : State} {r : InFlight} (h : Inv s) (hr : s.inflight = some r) : Inv s.endResponse := by
  rw [h.endResponse_eq hr]
  exact
    { h with
      busy_iff := rfl
      quiet := fun hready => absurd (h.ready_of_inflight hr) (by simpa using hready)
      response := fun q hq => (h.queuedResponse q hq).1
      behind := nofun
      overlapping := fun _ => rfl
      queuedResponse := nofun }

/-- The response in flight may be replaced by another well-formed one. -/
theorem Inv.withInflight {s : State} {r r' : InFlight} (h : Inv s) (hr : s.inflight = some r) (hr' : ResponseOk r') :
    Inv { s with inflight := some r' } :=
  { h with
    busy_iff := by rw [h.busy_iff, hr]; rfl
    quiet := fun hready => absurd (h.ready_of_inflight hr) (by simpa using hready)
    response := fun _ e => by cases e; exact hr'
    behind := fun _ => rfl }

theorem Inv.transferBeat {s : State} {r : InFlight} (h : Inv s) (hr : s.inflight = some r) : Inv (s.transferBeat r) := by
  rcases s.transferBeat_cases r with ⟨-, e⟩ | ⟨-, r', hafter, e⟩ | ⟨-, -, e⟩ <;> rw [e]
  · exact h
  · exact h.withInflight hr ((h.response r hr).afterBeat hafter)
  · exact h.endResponse hr

theorem Inv.beginResponse {s : State} {r : InFlight} (h : Inv s) (hready : s.ready = true) (hr : ResponseOk r) :
    Inv (s.beginResponse r) :=
  { h with
    busy_iff := rfl
    quiet := fun hn => absurd hready (by simpa using hn)
    response := fun _ e => by cases e; exact hr
    behind := fun _ => rfl }

/-- A command accepted behind the response in flight leaves its response queued. -/
theorem Inv.queueBehind {s : State} {r r' : InFlight} (h : Inv s) (hr : s.inflight = some r)
    (hoverlap : Config.overlap = true) (hr' : ResponseOk r') (hheader : r'.header = true) :
    Inv ((s.responseAside.beginResponse r').endOffer.queueBehind s.inflight) :=
  { h with
    busy_iff := by rw [hr]; rfl
    behind := fun _ => by rw [hr]; rfl
    overlapping := fun hn => absurd hoverlap (by simp [hn])
    queuedResponse := fun _ e => by cases e; exact ⟨hr', hheader⟩ }

/-- Every event of the core keeps the invariant. -/
theorem CoreEvent.inv {s t : State} (e : CoreEvent s t) (h : Inv s) : Inv t := by
  cases e with
  | reset => exact inv_holdInReset s
  | initialise => exact h.initialise
  | beat _ _ hr => exact h.transferBeat hr
  | accept hacc hstart =>
    obtain ⟨-, hready, -, -⟩ := hacc
    exact (h.beginResponse hready (hstart.responseOk (tblRead_lookupIJ (h.tables hready)))).endOffer
  | acceptBehind _ hready hr hoverlap hstart =>
    exact h.queueBehind hr hoverlap (hstart.responseOk (tblRead_lookupIJ (h.tables hready))) hstart.header_eq
  | idle => exact h

/-- Settles O16: no event of the core stops it, and each of them and the user's move keep the invariant. -/
theorem invariantIsKeptByEveryStep : Obligations.InvariantIsKeptByEveryStep := by
  refine ⟨fun s => ?_, fun s t hinv hstep => ?_⟩
  · obtain ⟨u, hu, -⟩ := step_event s
    exact ⟨_, hu⟩
  · obtain ⟨u, hu, hevent⟩ := step_event s
    obtain rfl : u.userMove = t := by simpa [hu] using hstep
    exact (hevent.inv hinv).userMove

/-- Settles O17. -/
theorem invariantHoldsAfterReset : Obligations.InvariantHoldsAfterReset :=
  ⟨⟨rfl, fun _ => rfl, nofun, memory_wf_reset, nofun, nofun, fun _ => rfl, nofun⟩, rfl, rfl, rfl, rfl, rfl, rfl, rfl⟩

/-! ## READY, the tables and STAT -/

/-- A beat leaves READY, the tables and the user's script alone. -/
theorem State.transferBeat_frame (s : State) (r : InFlight) :
    (s.transferBeat r).ready = s.ready ∧ (s.transferBeat r).lookupPos = s.lookupPos ∧
    (s.transferBeat r).lookupIJ = s.lookupIJ ∧ (s.transferBeat r).resets = s.resets ∧
    (s.transferBeat r).script = s.script := by
  rcases s.transferBeat_cases r with ⟨-, e⟩ | ⟨-, r', -, e⟩ | ⟨-, -, e⟩
  · simp [e]
  · simp [e]
  · rcases s.endResponse_cases with ⟨q, -, e'⟩ | ⟨-, e'⟩ <;> simp [e, e']

/-- Out of reset, no event of an initialised core writes a table or clears READY. -/
theorem CoreEvent.keeps_tables {s t : State} (e : CoreEvent s t) (hrst : s.rst = false) (hready : s.ready = true) :
    t.ready = true ∧ t.lookupPos = s.lookupPos ∧ t.lookupIJ = s.lookupIJ ∧ t.resets = s.resets := by
  cases e with
  | reset h => simp [hrst] at h
  | initialise _ h => simp [hready] at h
  | @beat r =>
    obtain ⟨hr, hpos, hij, hresets, -⟩ := s.transferBeat_frame r
    exact ⟨hr.trans hready, hpos, hij, hresets⟩
  | accept | acceptBehind | idle => exact ⟨hready, rfl, rfl, rfl⟩

/-- Settles O10. -/
theorem readyAndTablesStayUntilReset : Obligations.ReadyAndTablesStayUntilReset := by
  intro s hrst hready
  obtain ⟨u, hstep, hevent⟩ := step_event s
  obtain ⟨hr, hpos, hij, hresets⟩ := hevent.keeps_tables hrst hready
  refine ⟨_, hstep, by simpa using hr, by simpa using hpos, by simpa using hij, fun T idx => ?_⟩
  rw [State.tblRead_congr (s := u.userMove) (t := s) (by simpa using hpos) (by simpa using hij) (by simpa using hresets)]

/-- Settles O18: BUSY without READY, the fourth value, would be a response in flight before READY. -/
theorem statusRegisterIsLegal : Obligations.StatusRegisterIsLegal := by
  intro s h
  have hbusy : s.busy = true → s.ready = true := fun hb => by
    obtain ⟨r, hr⟩ := Option.isSome_iff_exists.mp (h.busy_iff ▸ hb)
    exact h.ready_of_inflight hr
  refine ⟨fun hrst => ?_, fun n hn => ?_, ?_⟩
  · simp [State.stat, hrst]
  · have h0 : n ≠ 0 := by omega
    have h1 : n - 1 ≠ 0 := by omega
    simp [State.stat, BitVec.getLsbD_ofBool, h0, h1]
  · cases hrst : s.rst with
    | true => exact .inl (by simp [State.stat, hrst])
    | false =>
      cases hb : s.busy with
      | true => exact .inr (.inr (by simp [State.stat, hrst, hb, hbusy hb]))
      | false =>
        cases hr : s.ready with
        | true => exact .inr (.inl (by simp [State.stat, hrst, hb, hr]))
        | false => exact .inl (by simp [State.stat, hrst, hb, hr])

end Sys2Proof.Machine
end

