-- ==== Sys2Proof/Proofs/AcceptedCommands.lean ====
section
/-! SUPPORT. A word that R72 and R76 call illegal has no command, and what a step runs when a command is offered (R33, R74,
R76, R296). -/

namespace Sys2Proof.Machine

/-! ## Illegal words -/

/-- The mask of a row asks for all the bits of a field (R74). -/
def maskCovers (row : OpcodeRow) (start len : Nat) : Bool := row.mask.extractLsb' start len == BitVec.allOnes len

/-- A word that matches its row is 0 in every field above the opcode that the row's mask covers. -/
theorem extract_eq_zero_of_maskCovers {row : OpcodeRow} {w : CmdWord} {start len : Nat}
    (hmatch : w &&& row.mask = row.opcode.setWidth 32) (hstart : 6 ≤ start) (hcovers : maskCovers row start len = true) :
    w.extractLsb' start len = 0#len := by
  have hmask : row.mask.extractLsb' start len = BitVec.allOnes len := eq_of_beq hcovers
  have hopcode : (row.opcode.setWidth 32).extractLsb' start len = 0#len := by
    ext n hn
    simp [BitVec.getLsbD_of_ge row.opcode (start + n) (by omega)]
  calc w.extractLsb' start len = w.extractLsb' start len &&& row.mask.extractLsb' start len := by simp [hmask]
    _ = 0#len := by rw [← BitVec.extractLsb'_and, hmatch, hopcode]

/-- A row has an assigned opcode, and its mask covers the reserved fields and each field that its opcode does not use. -/
def rowLegal (row : OpcodeRow) : Bool :=
  !unassignedOpcodes.contains row.opcode.toNat && maskCovers row 6 2 && maskCovers row 19 13 &&
    (lvlOpcodes.contains row.opcode.toNat || maskCovers row 8 5) &&
    (faceOpcodes.contains row.opcode.toNat || maskCovers row 13 3) &&
    (cposOpcodes.contains row.opcode.toNat || maskCovers row 16 2) &&
    (sameOpcodes.contains row.opcode.toNat || maskCovers row 18 1)

theorem opcodeMap_legal : ∀ row ∈ opcodeMap, rowLegal row = true := by decide

/-- A word that is decoded matches a row of the opcode map. -/
theorem exists_row_of_decode_eq_ok {w : CmdWord} {i : Instr} (h : decode w = .ok i) :
    ∃ row ∈ opcodeMap, row.opcode = opcodeField w ∧ w &&& row.mask = row.opcode.setWidth 32 := by
  unfold decode at h
  split at h
  · cases h
  · next row hrow =>
    split at h
    · next hmatch =>
      exact ⟨row, List.mem_of_find?_eq_some hrow, by simpa using List.find?_some hrow, hmatch⟩
    · cases h

/-- A word that matches a row is not illegal. -/
theorem not_illegalWord_of_row {w : CmdWord} {row : OpcodeRow} (hlegal : rowLegal row = true)
    (hopcode : row.opcode = opcodeField w) (hmatch : w &&& row.mask = row.opcode.setWidth 32) : ¬ illegalWord w := by
  have hzero : ∀ {start len}, 6 ≤ start → maskCovers row start len = true → w.extractLsb' start len = 0#len :=
    fun hs hc => extract_eq_zero_of_maskCovers hmatch hs hc
  simp only [rowLegal, hopcode, opcodeField, Bool.and_eq_true, Bool.or_eq_true, Bool.not_eq_true',
    List.contains_eq_mem, decide_eq_true_eq, decide_eq_false_iff_not] at hlegal
  obtain ⟨⟨⟨⟨⟨⟨hassigned, hlow⟩, hhigh⟩, hlvl⟩, hface⟩, hcpos⟩, hsame⟩ := hlegal
  rintro (h | h | h | ⟨hn, h⟩ | ⟨hn, h⟩ | ⟨hn, h⟩ | ⟨hn, h⟩)
  · exact hassigned h
  · exact h (hzero (by decide) hlow)
  · exact h (hzero (by decide) hhigh)
  · exact h (hzero (by decide) (hlvl.resolve_left hn))
  · exact h (hzero (by decide) (hface.resolve_left hn))
  · exact h (hzero (by decide) (hcpos.resolve_left hn))
  · exact h (hzero (by decide) (hsame.resolve_left hn))

/-- An illegal word has no command (R76). -/
theorem decode_of_illegalWord {w : CmdWord} (h : illegalWord w) : ∃ e, decode w = .error e := by
  cases hdecode : decode w with
  | error e => exact ⟨e, rfl⟩
  | ok i =>
    obtain ⟨row, hmem, hopcode, hmatch⟩ := exists_row_of_decode_eq_ok hdecode
    exact absurd h (not_illegalWord_of_row (opcodeMap_legal row hmem) hopcode hmatch)

/-! ## Acceptance -/

theorem andThen_andThen (o : Host.Outcome State Fault Refusal) (f g : State → State) :
    andThen (andThen o f) g = andThen o (fun s => g (f s)) := by cases o <;> rfl

theorem accept_of_decode {s : State} {i : Instr} (h : decode s.cmd = .ok i) :
    accept s = andThen (exec i s) State.endOffer := by simp only [accept, h]

theorem accept_of_illegalWord {s : State} (h : illegalWord s.cmd) :
    accept s = .next (s.beginResponse (failWith .illegalOp)).endOffer := by
  obtain ⟨e, he⟩ := decode_of_illegalWord h
  simp only [accept, he, State.respond_eq, andThen_next]

theorem step_of_accepting {s : State} {i : Instr} (h : accepting s) (hi : decode s.cmd = .ok i) :
    step s = andThen (exec i s) (fun t => t.endOffer.userMove) := by
  rw [step, coreStep_accept h, accept_of_decode hi, andThen_andThen]

section Behind

variable {s : State} {r : InFlight} (hrst : s.rst = false) (hready : s.ready = true) (hr : s.inflight = some r)
include hrst hready hr

/-- A command offered behind a response in flight is accepted, or waits while a beat of that response goes (R296). -/
theorem step_behind (hcmd : s.cmdValid = true) (hqueued : s.queued = none) :
    step s =
      if Config.overlap then andThen (accept s.responseAside) (fun t => (t.queueBehind (some r)).userMove)
      else .next (s.transferBeat r).userMove := by
  rw [step, coreStep_overlap hrst hready hr hcmd hqueued]
  split
  · rw [acceptBehind, andThen_andThen, hr]
  · rfl

/-- With no command that the core can accept, a step is a beat of the response in flight (R36, R298). -/
theorem step_beat (h : s.cmdValid = false ∨ s.cmdReady = false) : step s = .next (s.transferBeat r).userMove := by
  have hcore : coreStep s = .next (s.transferBeat r) := by
    cases hcmd : s.cmdValid with
    | false => exact coreStep_beat hrst hready hr hcmd
    | true =>
      cases hqueued : s.queued with
      | some q => exact coreStep_queued hrst hready hr hqueued
      | none =>
        have hoverlap : Config.overlap = false := by simpa [State.cmdReady, hcmd, hrst, hready, hr, hqueued] using h
        simp [coreStep_overlap hrst hready hr hcmd hqueued, hoverlap]
  rw [step, hcore, andThen_next]

end Behind

/-- Settles O5. -/
theorem stepRunsTheDecodedCommand : Obligations.StepRunsTheDecodedCommand := by
  refine ⟨fun s i => step_of_accepting, fun s r hrst hready hr hqueued hcmd => ⟨fun i hi => ?_, fun hillegal => ?_⟩,
    fun s r => step_beat⟩
  · rw [step_behind hrst hready hr hcmd hqueued, accept_of_decode (s := s.responseAside) hi, andThen_andThen]
  · rw [step_behind hrst hready hr hcmd hqueued, accept_of_illegalWord (s := s.responseAside) hillegal, ← hr]
    rfl

end Sys2Proof.Machine
end

