-- ==== Sys2Proof/Proofs/Delivery.lean ====
section
/-! SUPPORT. The beats a response still has to deliver, one to a step, and the statement that every response is delivered whole
(R36, R236, R264, R296). -/

namespace Sys2Proof.Machine

/-! ## The words of a loop -/

theorem loopDrain_ne_nil (rd : TableReader) (l : NbrLoop) : loopDrain rd (loopLeft l) l ≠ [] := by
  simp [loopLeft, loopDrain, loopWords_ne_nil]

/-- The words a loop still produces are those of its current iteration and those of the rest. -/
theorem loopDrain_loopLeft (rd : TableReader) {l : NbrLoop} (h : LoopOk l) (header : Bool) :
    loopDrain rd (loopLeft l) l = pendingWords rd (streamFrom rd header l) := by
  rcases h.loopNext with ⟨-, e⟩ | ⟨hk, e, -⟩
  · simp [loopLeft, loopDrain, pendingWords, streamFrom, e]
  · have hquot : (l.size - (l.k + l.ns)) / l.ns = (l.size - l.k) / l.ns - 1 := by
      rw [← Int.sub_mul_ediv_right _ 1 h.ns_pos.ne', one_mul, sub_add_eq_sub_sub]
    have hnonneg : 0 ≤ (l.size - (l.k + l.ns)) / l.ns := Int.ediv_nonneg (by omega) h.ns_pos.le
    have hleft : loopLeft l = loopLeft { l with k := l.k + l.ns } + 1 := by simp only [loopLeft]; omega
    rw [hleft]
    simp [loopDrain, pendingWords, streamFrom, e]

/-! ## The beats due -/

/-- The beats a response still has to deliver: the whole response, or the data beats once its header has gone. -/
def InFlight.beatsDue (rd : TableReader) (r : InFlight) : List Beat :=
  if r.header then responseBeats r.status (pendingWords rd r) else dataBeats (pendingWords rd r)

/-- RSP_LAST tells that no words are left (R36). -/
theorem isEmpty_pendingWords (rd : TableReader) (r : InFlight) :
    (r.words.isEmpty && r.loop.isNone) = (pendingWords rd r).isEmpty := by
  obtain ⟨st, header, words, loop⟩ := r
  match words, loop with
  | _ :: _, _ => rfl
  | [], none => rfl
  | [], some l => simp [pendingWords, loopDrain_ne_nil]

theorem pendingWords_cons {rd : TableReader} {r : InFlight} {w : U64} {ws : List U64} (h : r.words = w :: ws) :
    pendingWords rd r = w :: pendingWords rd { r with words := ws } := by simp [pendingWords, h]

theorem beatsDue_of_header {r : InFlight} (rd : TableReader) (h : r.header = true) :
    r.beatsDue rd = .header r.status.code (pendingWords rd r).isEmpty :: dataBeats (pendingWords rd r) ∧
    r.beat = some (.header r.status.code (pendingWords rd r).isEmpty) := by
  refine ⟨by rw [InFlight.beatsDue, if_pos h, responseBeats], ?_⟩
  rw [← isEmpty_pendingWords]
  simp only [InFlight.beat, h]

theorem beatsDue_of_no_header {r : InFlight} (rd : TableReader) (h : r.header = false) :
    r.beatsDue rd = dataBeats (pendingWords rd r) := by simp [InFlight.beatsDue, h]

theorem beatsDue_of_word {r : InFlight} {w : U64} {ws : List U64} (rd : TableReader) (h : r.header = false)
    (hw : r.words = w :: ws) :
    r.beatsDue rd = .data w (pendingWords rd { r with words := ws }).isEmpty ::
      dataBeats (pendingWords rd { r with words := ws }) ∧
    r.beat = some (.data w (pendingWords rd { r with words := ws }).isEmpty) := by
  refine ⟨by rw [beatsDue_of_no_header rd h, pendingWords_cons hw, dataBeats], ?_⟩
  rw [← isEmpty_pendingWords]
  simp only [InFlight.beat, h, hw]

/-- A response offers the first of the beats due; after it the rest of them are due, or there were no others and the response
ends. -/
theorem ResponseOk.beatsDue_eq_cons {r : InFlight} (h : ResponseOk r) (rd : TableReader) :
    ∃ b bs, r.beatsDue rd = b :: bs ∧ r.beat = some b ∧
      ((bs = [] ∧ r.afterBeat rd = none) ∨ ∃ r', r.afterBeat rd = some r' ∧ r'.beatsDue rd = bs) := by
  rcases h.afterBeat_cases rd with ⟨hh, hw, hl, e⟩ | ⟨hh, hw, e⟩ | ⟨w, w', ws, hh, hw, e⟩ | ⟨w, hh, hw, hl, e⟩ |
    ⟨w, l, hh, hw, hl, e⟩
  · obtain ⟨hdue, hbeat⟩ := beatsDue_of_header rd hh
    exact ⟨_, _, hdue, hbeat, .inl ⟨by simp [pendingWords, hw, hl, dataBeats], e⟩⟩
  · obtain ⟨hdue, hbeat⟩ := beatsDue_of_header rd hh
    exact ⟨_, _, hdue, hbeat, .inr ⟨_, e, beatsDue_of_no_header rd rfl⟩⟩
  · obtain ⟨hdue, hbeat⟩ := beatsDue_of_word rd hh hw
    exact ⟨_, _, hdue, hbeat, .inr ⟨_, e, beatsDue_of_no_header rd hh⟩⟩
  · obtain ⟨hdue, hbeat⟩ := beatsDue_of_word rd hh hw
    exact ⟨_, _, hdue, hbeat, .inl ⟨by simp [pendingWords, hl, dataBeats], e⟩⟩
  · obtain ⟨hdue, hbeat⟩ := beatsDue_of_word rd hh hw
    have hrest : pendingWords rd { r with words := [] } = pendingWords rd (streamFrom rd false l) := by
      rw [← loopDrain_loopLeft rd (h.iterating l hl).2]
      simp [pendingWords, hl]
    exact ⟨_, _, hdue, hbeat, .inr ⟨_, e, by rw [hrest, beatsDue_of_no_header rd rfl]⟩⟩

/-! ## Runs -/

theorem delivered_succ {s t : State} {b : Beat} (hready : s.rspReady = true) (hbeat : s.beat = some b)
    (hstep : step s = .next t) (n : Nat) : delivered (n + 1) s = b :: delivered n t := by
  simp [delivered, hready, hbeat, hstep]

theorem run_succ {s t : State} (hstep : step s = .next t) (n : Nat) :
    Host.Core.run Sys2Proof.core (n + 1) s = Host.Core.run Sys2Proof.core n t := by
  have hcore : Sys2Proof.core.step s = .next t := hstep
  simp only [Host.Core.run, hcore]

/-- The core is out of reset with a response in flight; its user takes every beat and does nothing else. -/
structure Delivering (s : State) (r : InFlight) : Prop where
  inv : Inv s
  rst : s.rst = false
  rspReady : s.rspReady = true
  cmdValid : s.cmdValid = false
  script : s.script = []
  inflight : s.inflight = some r

namespace Delivering

variable {s : State} {r : InFlight} (h : Delivering s r)
include h

theorem responseOk : ResponseOk r := h.inv.response r h.inflight

theorem beat_eq : s.beat = r.beat := by simp [State.beat, h.rst, h.inflight]

theorem step_eq : step s = .next (s.transferBeat r) := by
  obtain ⟨-, -, -, -, hscript⟩ := s.transferBeat_frame r
  rw [step_beat h.rst (h.inv.ready_of_inflight h.inflight) h.inflight (.inl h.cmdValid),
    State.userMove_nil (hscript.trans h.script)]

/-- A beat that is not the last one goes on with the rest of the response. -/
theorem step_next {r' : InFlight} (e : r.afterBeat s.tblRead = some r') :
    step s = .next { s with inflight := some r' } ∧ Delivering { s with inflight := some r' } r' :=
  ⟨by simp [h.step_eq, State.transferBeat, h.rspReady, e],
    { h with inv := h.inv.withInflight h.inflight (h.responseOk.afterBeat e), inflight := rfl }⟩

/-- The last beat ends the response. -/
theorem step_last (e : r.afterBeat s.tblRead = none) :
    step s = .next { s with inflight := s.queued, queued := none, busy := s.queued.isSome } := by
  simp [h.step_eq, State.transferBeat, h.rspReady, e, h.inv.endResponse_eq h.inflight]

end Delivering

/-- As many steps as there are beats due deliver them and end the response. -/
theorem delivered_beatsDue {s : State} {r : InFlight} (h : Delivering s r) {bs : List Beat}
    (hdue : r.beatsDue s.tblRead = bs) :
    delivered bs.length s = bs ∧
    Host.Core.run Sys2Proof.core bs.length s =
      .next { s with inflight := s.queued, queued := none, busy := s.queued.isSome } := by
  induction bs generalizing s r with
  | nil =>
    obtain ⟨b, bs, hcons, -⟩ := h.responseOk.beatsDue_eq_cons s.tblRead
    simp [hcons] at hdue
  | cons b bs ih =>
    obtain ⟨b', bs', hcons, hbeat, hrest⟩ := h.responseOk.beatsDue_eq_cons s.tblRead
    obtain ⟨rfl, rfl⟩ : b' = b ∧ bs' = bs := by simpa [hcons] using hdue
    rw [← h.beat_eq] at hbeat
    rcases hrest with ⟨rfl, e⟩ | ⟨r', e, hdue'⟩
    · have hstep := h.step_last e
      exact ⟨delivered_succ h.rspReady hbeat hstep 0, run_succ hstep 0⟩
    · obtain ⟨hstep, h'⟩ := h.step_next e
      obtain ⟨hdelivered, hrun⟩ := ih h' hdue'
      exact ⟨by rw [List.length_cons, delivered_succ h.rspReady hbeat hstep, hdelivered],
        by rw [List.length_cons, run_succ hstep, hrun]⟩

theorem length_dataBeats (ws : List U64) : (dataBeats ws).length = ws.length := by
  induction ws with
  | nil => rfl
  | cons w ws ih => simp [dataBeats, ih]

/-- Settles O12: what is due of a response whose header is still to go is the whole response. -/
theorem everyResponseIsDeliveredWhole : Obligations.EveryResponseIsDeliveredWhole := by
  intro s r hinv hrst hrspReady hcmd hscript hr hheader
  have hdue : r.beatsDue s.tblRead = responseBeats r.status (pendingWords s.tblRead r) := if_pos hheader
  have hdelivered := delivered_beatsDue ⟨hinv, hrst, hrspReady, hcmd, hscript, hr⟩ hdue
  rwa [responseBeats, List.length_cons, length_dataBeats] at hdelivered

end Sys2Proof.Machine
end

