-- ==== Sys2Proof/Proofs/CellLayout.lean ====
section
/-! SUPPORT. The cells of a level as numbers: the cell of level L and index m is (2m + 1) · 2^(2(30 − L)), for m < 6 · 4^L (R24
to R27, R201), and the statements that read this layout. -/

namespace Sys2Proof.Machine

/-! ## The lowest set bit -/

theorem testBit_odd_mul_two_pow (m n i : Nat) :
    ((2 * m + 1) * 2 ^ n).testBit i = (decide (i = n) || (decide (n < i) && m.testBit (i - n - 1))) := by
  rw [mul_comm, Nat.testBit_two_pow_mul]
  rcases lt_trichotomy i n with h | rfl | h
  · simp [h.ne, h.not_gt, h.not_ge]
  · simp
  · obtain ⟨j, rfl⟩ := Nat.exists_eq_add_of_lt h
    have hj : n + j + 1 - n = j + 1 := by omega
    have hhalf : (2 * m + 1) / 2 = m := by omega
    have hne : n + j + 1 ≠ n := by omega
    have hle : n ≤ n + j + 1 := by omega
    simp [hj, hne, hle, Nat.testBit_add_one, hhalf]

/-- An odd multiple of a power of two shares with its negative the one bit of that power. -/
theorem and_two_pow_sub_odd {m n k : Nat} (hm : m < 2 ^ k) :
    (2 * m + 1) * 2 ^ n &&& (2 * (2 ^ k - (m + 1)) + 1) * 2 ^ n = 2 ^ n := by
  refine Nat.eq_of_testBit_eq fun i => ?_
  rw [Nat.testBit_and, testBit_odd_mul_two_pow, testBit_odd_mul_two_pow, Nat.testBit_two_pow_sub_succ hm,
    Nat.testBit_two_pow]
  rcases lt_trichotomy i n with h | rfl | h
  · simp [h.ne, h.ne', h.not_gt]
  · simp
  · cases m.testBit (i - n - 1) <;> simp [h.ne, h.ne']

/-- `lsb` of an odd multiple of a power of two is that power (R13). -/
theorem lsb_of_odd {x : U64} {m n : Nat} (h : x.toNat = (2 * m + 1) * 2 ^ n) : (lsb x).toNat = 2 ^ n ∧ n < 64 := by
  have hx := x.isLt
  have hn : n < 64 := by
    refine (Nat.pow_lt_pow_iff_right (by decide : 1 < 2)).mp (lt_of_le_of_lt ?_ hx)
    rw [h]
    exact Nat.le_mul_of_pos_left _ (by omega)
  have hpow : (2 : Nat) ^ 64 = 2 * (2 ^ (63 - n) * 2 ^ n) := by
    rw [← pow_add, ← pow_succ']
    congr 1
    omega
  have hm : m < 2 ^ (63 - n) := by
    by_contra hge
    have := Nat.mul_le_mul_right (2 ^ n) (not_lt.mp hge)
    have := Nat.two_pow_pos n
    have : (2 * m + 1) * 2 ^ n = 2 * (m * 2 ^ n) + 2 ^ n := by ring
    omega
  have hadd : x.toNat + (2 * (2 ^ (63 - n) - (m + 1)) + 1) * 2 ^ n = 2 ^ 64 := by
    obtain ⟨c, hc⟩ := Nat.exists_eq_add_of_lt hm
    rw [h, hpow, hc, show m + c + 1 - (m + 1) = c by omega]
    ring
  have hneg : (-x).toNat = (2 * (2 ^ (63 - n) - (m + 1)) + 1) * 2 ^ n := by
    rw [BitVec.toNat_neg, ← hadd, Nat.add_sub_cancel_left, hadd, Nat.mod_eq_of_lt]
    have : 0 < (2 * m + 1) * 2 ^ n := by positivity
    omega
  rw [lsb, BitVec.toNat_and, hneg, h]
  exact ⟨and_two_pow_sub_odd hm, hn⟩

theorem validLsbMask_getLsbD (n : Nat) : Config.validLsbMask.getLsbD n = decide (n % 2 = 0 ∧ n ≤ 60) := by
  by_cases h : n < 64
  · exact (by decide : ∀ n < 64, Config.validLsbMask.getLsbD n = decide (n % 2 = 0 ∧ n ≤ 60)) n h
  · rw [BitVec.getLsbD_of_ge _ _ (by omega)]
    simp
    omega

theorem faceField_eq (x : U64) : faceField x = x.toNat / 2 ^ 61 := by
  simp [faceField, Nat.shiftRight_eq_div_pow]

/-- Validity, read from an id's odd part and its power of two (R25). -/
theorem valid_iff_of_odd {x : U64} {m n : Nat} (h : x.toNat = (2 * m + 1) * 2 ^ n) :
    valid x = true ↔ x.toNat < 6 * 2 ^ 61 ∧ n % 2 = 0 ∧ n ≤ 60 := by
  obtain ⟨hlsb, hn⟩ := lsb_of_odd h
  have htwoPow : lsb x = BitVec.twoPow 64 n := by
    apply BitVec.eq_of_toNat_eq
    rw [hlsb, BitVec.toNat_twoPow, Nat.mod_eq_of_lt (Nat.pow_lt_pow_right (by decide) hn)]
  have hbit : (lsb x &&& Config.validLsbMask) ≠ 0#64 ↔ n % 2 = 0 ∧ n ≤ 60 := by
    have hnonzero : BitVec.twoPow 64 n ≠ 0#64 := fun e => by simpa [hn] using congrArg (·.getLsbD n) e
    simp [htwoPow, BitVec.twoPow_and, validLsbMask_getLsbD, hnonzero]
  rw [valid, Bool.and_eq_true, bne_iff_ne, hbit, decide_eq_true_eq, faceField_eq,
    Nat.div_lt_iff_lt_mul (by decide), Config.numFaces]

theorem level_of_odd {x : U64} {m n : Nat} (h : x.toNat = (2 * m + 1) * 2 ^ n) : level x = 30 - n / 2 := by
  rw [level, ctz, (lsb_of_odd h).1, Nat.log2_two_pow, Config.maxLevel]

/-! ## The index of a cell -/

/-- `x` is the cell of index `m` among the 6 · 4^L cells of its level (R26, R195). -/
structure CellIndex (x : U64) (lvl m : Nat) : Prop where
  level_le : lvl ≤ 30
  index_lt : m < 6 * 4 ^ lvl
  toNat_eq : x.toNat = (2 * m + 1) * 2 ^ (2 * (30 - lvl))

/-- The 4^L cells of a level, each as wide as two of its lowest set bits, fill one face (R201). -/
theorem cells_fill_face {lvl : Nat} (h : lvl ≤ 30) : 2 * (4 ^ lvl * 2 ^ (2 * (30 - lvl))) = 2 ^ 61 := by
  rw [show (4 : Nat) = 2 ^ 2 from rfl, ← pow_mul, ← pow_add, ← pow_succ']
  congr 1
  omega

theorem index_lt_iff {lvl m : Nat} (h : lvl ≤ 30) :
    (2 * m + 1) * 2 ^ (2 * (30 - lvl)) < 6 * 2 ^ 61 ↔ m < 6 * 4 ^ lvl := by
  have hfill := cells_fill_face h
  rw [← hfill, ← mul_assoc 2, ← mul_assoc 6, Nat.mul_lt_mul_right (Nat.two_pow_pos _)]
  omega

theorem CellIndex.isCellAt {x : U64} {lvl m : Nat} (h : CellIndex x lvl m) : isCellAt x lvl := by
  obtain ⟨hlvl, hm, hx⟩ := h
  refine ⟨(valid_iff_of_odd hx).mpr ⟨?_, by omega, by omega⟩, by rw [level_of_odd hx]; omega⟩
  rw [hx]
  exact (index_lt_iff hlvl).mpr hm

theorem exists_cellIndex {x : U64} {lvl : Nat} (h : isCellAt x lvl) : ∃ m, CellIndex x lvl m := by
  obtain ⟨hvalid, rfl⟩ := h
  have hx : x.toNat ≠ 0 := by
    intro h0
    obtain rfl : x = 0#64 := BitVec.eq_of_toNat_eq h0
    exact absurd hvalid (by decide)
  obtain ⟨n, q, ⟨m, rfl⟩, hn⟩ := Nat.exists_eq_two_pow_mul_odd hx
  rw [mul_comm] at hn
  obtain ⟨hlt, heven, hle⟩ := (valid_iff_of_odd hn).mp hvalid
  have hlevel := level_of_odd hn
  have hexp : 2 * (30 - level x) = n := by omega
  have hle : level x ≤ 30 := by omega
  refine ⟨m, hle, (index_lt_iff hle).mp ?_, ?_⟩ <;> rw [hexp]
  · rwa [← hn]
  · exact hn

/-- Each index below 6 · 4^L has its cell. -/
theorem cellIndex_ofNat {lvl m : Nat} (hlvl : lvl ≤ 30) (hm : m < 6 * 4 ^ lvl) :
    CellIndex (BitVec.ofNat 64 ((2 * m + 1) * 2 ^ (2 * (30 - lvl)))) lvl m := by
  have hlt := (index_lt_iff hlvl).mpr hm
  exact ⟨hlvl, hm, by rw [BitVec.toNat_ofNat, Nat.mod_eq_of_lt (hlt.trans (by decide))]⟩

/-! ## The statements about the layout -/

theorem requireCell_of_valid {x : U64} (r : InFlight) (h : valid x = true) : requireCell x r = r := by
  rw [requireCell, h, require_true]

/-- A cell's face and its index on the face, from its index. -/
theorem layout_eq {lvl : Nat} (h : lvl ≤ 30) (f k : Nat) :
    f * 2 ^ 61 + k * 2 ^ (2 * (30 - lvl) + 1) + 2 ^ (2 * (30 - lvl)) =
      (2 * (4 ^ lvl * f + k) + 1) * 2 ^ (2 * (30 - lvl)) := by
  rw [← cells_fill_face h, pow_succ]
  ring

/-- Settles O45: face and index on the face are quotient and remainder of the index by 4^L. -/
theorem levelOfReadsTheLayout : Obligations.LevelOfReadsTheLayout := by
  refine ⟨fun s hvalid => ?_, fun f k lvl hf hlvl hk => ?_⟩
  · obtain ⟨m, hlvl, hm, hx⟩ := exists_cellIndex ⟨hvalid, rfl⟩
    refine ⟨m / 4 ^ level s.opa, m % 4 ^ level s.opa, level s.opa, Nat.div_lt_of_lt_mul (by omega), hlvl,
      Nat.mod_lt _ (by positivity), ?_, ?_⟩
    · rw [layout_eq hlvl, Nat.div_add_mod, hx]
    · change Host.Outcome.next (s.beginResponse (requireCell s.opa _)) = _
      rw [requireCell_of_valid _ hvalid]
      rfl
  · rw [layout_eq hlvl]
    exact (cellIndex_ofNat hlvl (by nlinarith)).isCellAt

/-- Settles O57: Begin(L) has index 0 and End(L) would have index 6 · 4^L. -/
theorem beginAndEndBoundTheLevel : Obligations.BeginAndEndBoundTheLevel := by
  intro x lvl h
  obtain ⟨m, hlvl, hm, hx⟩ := exists_cellIndex h
  have hlt := (index_lt_iff hlvl).mpr hm
  have hpos := Nat.two_pow_pos (2 * (30 - lvl))
  have hle : 2 ^ (2 * (30 - lvl)) ≤ x.toNat := hx ▸ Nat.le_mul_of_pos_left _ (by omega)
  omega

theorem valid_iff (x : U64) :
    valid x = true ↔ (x >>> 61).toNat < 6 ∧ (x &&& -x) &&& 0x1555555555555555#64 ≠ 0#64 := by
  simp [valid, faceField, lsb, Config.numFaces, Config.validLsbMask]

theorem toNat_lt_of_valid {x : U64} (h : valid x = true) : x.toNat < 6 * 2 ^ 61 := by
  have hface := faceField_lt_of_valid h
  rw [faceField_eq] at hface
  omega

/-- Settles O44: End(L) is beyond the last face, NONE has no lowest bit and SENTINEL's face is 7. -/
theorem isValidAnswersTheValidityPredicate : Obligations.IsValidAnswersTheValidityPredicate := by
  have hexec (s : State) : exec .isValid s = .next (replied s .ok [wordOfBool (valid s.opa)]) := rfl
  refine ⟨fun s h => ?_, fun s h => ?_, by decide, by decide, fun lvl hlvl => ?_⟩
  · rw [hexec, (valid_iff s.opa).mpr h]; rfl
  · rw [hexec, Bool.eq_false_iff.mpr (mt (valid_iff s.opa).mp h)]; rfl
  · refine Bool.eq_false_iff.mpr fun hvalid => ?_
    have hlt := toNat_lt_of_valid hvalid
    have hpow : 2 ^ (2 * (30 - lvl)) ≤ 2 ^ 60 := Nat.pow_le_pow_right (by decide) (by omega)
    have hpos := Nat.two_pow_pos (2 * (30 - lvl))
    rw [BitVec.toNat_ofNat] at hlt
    omega

end Sys2Proof.Machine
end

