-- ==== Sys2Proof/Proofs/Children.lean ====
section
/-! SUPPORT. The range of a cell and its four children, from its index: the children of index m have the indices 4m to 4m + 3,
and the statement that they partition their parent (R28, R188, R189, R196, R197, R202). -/

namespace Sys2Proof.Machine

theorem CellIndex.lsb_toNat {x : U64} {lvl m : Nat} (h : CellIndex x lvl m) : (lsb x).toNat = 2 ^ (2 * (30 - lvl)) :=
  (lsb_of_odd h.toNat_eq).1

theorem CellIndex.lsb_sub_one_toNat {x : U64} {lvl m : Nat} (h : CellIndex x lvl m) :
    (lsb x - 1#64).toNat + 1 = 2 ^ (2 * (30 - lvl)) := by
  have hpos := Nat.two_pow_pos (2 * (30 - lvl))
  have hlsb := h.lsb_toNat
  bv_omega

/-- The first leaf of the cell of index m comes after m cells with their gaps (R196). -/
theorem CellIndex.rangeMin_toNat {x : U64} {lvl m : Nat} (h : CellIndex x lvl m) :
    (rangeMin x).toNat = 2 * m * 2 ^ (2 * (30 - lvl)) + 1 := by
  have hx := h.toNat_eq
  have hlsb := h.lsb_sub_one_toNat
  rw [add_mul, one_mul] at hx
  rw [rangeMin]
  bv_omega

/-- The last leaf of the cell of index m comes before the gap that ends m + 1 cells with their gaps (R197). -/
theorem CellIndex.rangeMax_toNat {x : U64} {lvl m : Nat} (h : CellIndex x lvl m) :
    (rangeMax x).toNat + 1 = 2 * (m + 1) * 2 ^ (2 * (30 - lvl)) := by
  have hx := h.toNat_eq
  have hlsb := h.lsb_sub_one_toNat
  have hlt := toNat_lt_of_valid h.isCellAt.1
  have hle : 2 ^ (2 * (30 - lvl)) ≤ 2 ^ 60 := Nat.pow_le_pow_right (by decide) (by omega)
  rw [add_mul, one_mul] at hx
  rw [rangeMax, mul_add, add_mul, mul_one, two_mul (2 ^ _)]
  bv_omega

theorem four_mul_next_lsb {lvl : Nat} (h : lvl < 30) : 4 * 2 ^ (2 * (30 - (lvl + 1))) = 2 ^ (2 * (30 - lvl)) := by
  rw [show 2 * (30 - lvl) = 2 + 2 * (30 - (lvl + 1)) by omega, pow_add]
  rfl

/-- Child `p` of the cell of index `m` has index `4m + p`, one level down (R188). -/
theorem CellIndex.child {x : U64} {lvl m p : Nat} (h : CellIndex x lvl m) (hlvl : lvl < 30) (hp : p < 4) :
    CellIndex (child x p) (lvl + 1) (4 * m + p) := by
  have hm := h.index_lt
  have hquarter : (lsb x >>> 2).toNat = 2 ^ (2 * (30 - (lvl + 1))) := by
    rw [BitVec.toNat_ushiftRight, h.lsb_toNat, ← four_mul_next_lsb hlvl, Nat.shiftRight_eq_div_pow]
    omega
  have hx : x = BitVec.ofInt 64 ((2 * m + 1) * (4 * 2 ^ (2 * (30 - (lvl + 1)))) : Nat) := by
    rw [four_mul_next_lsb hlvl, ← h.toNat_eq, BitVec.ofInt_natCast, BitVec.ofNat_toNat, BitVec.setWidth_eq]
  have hchild : Machine.child x p = BitVec.ofNat 64 ((2 * (4 * m + p) + 1) * 2 ^ (2 * (30 - (lvl + 1)))) := by
    rw [Machine.child, hquarter, wordOfInt, hx, ← BitVec.ofInt_add, ← BitVec.ofInt_natCast]
    congr 1
    push_cast
    ring
  rw [hchild]
  exact cellIndex_ofNat (by omega) (by rw [pow_succ]; omega)

/-- The last leaf of a cell and the first leaf of the next cell of its level are neighbouring ids (R28). -/
theorem CellIndex.rangeMax_add_two {x y : U64} {lvl m : Nat} (hx : CellIndex x lvl m) (hy : CellIndex y lvl (m + 1)) :
    (rangeMax x).toNat + 2 = (rangeMin y).toNat := by
  rw [hy.rangeMin_toNat, ← hx.rangeMax_toNat]

/-- Settles O49: the children's indices 4m, …, 4m + 3 follow each other, and begin and end where the parent's range does. -/
theorem childrenPartitionTheirParent : Obligations.ChildrenPartitionTheirParent := by
  intro s hvalid hlvl
  obtain ⟨m, hm⟩ := exists_cellIndex ⟨hvalid, rfl⟩
  have hexec : exec .children s =
      .next (replied s .ok [child s.opa 0, child s.opa 1, child s.opa 2, child s.opa 3]) := by
    change Host.Outcome.next (s.beginResponse (requireCell s.opa (requireRelation (decide (level s.opa < 30)) _))) = _
    rw [requireCell_of_valid _ hvalid, requireRelation, decide_eq_true hlvl, require_true]
    rfl
  have h0 := hm.child hlvl (p := 0) (by decide)
  have h1 := hm.child hlvl (p := 1) (by decide)
  have h2 := hm.child hlvl (p := 2) (by decide)
  have h3 := hm.child hlvl (p := 3) (by decide)
  refine ⟨_, _, _, _, hexec, h0.isCellAt, h1.isCellAt, h2.isCellAt, h3.isCellAt, ?_, h0.rangeMax_add_two h1,
    h1.rangeMax_add_two h2, h2.rangeMax_add_two h3, ?_⟩
  · apply BitVec.eq_of_toNat_eq
    rw [h0.rangeMin_toNat, hm.rangeMin_toNat, ← four_mul_next_lsb hlvl]
    ring
  · apply BitVec.eq_of_toNat_eq
    have hmax : (rangeMax (child s.opa 3)).toNat + 1 = (rangeMax s.opa).toNat + 1 := by
      rw [h3.rangeMax_toNat, hm.rangeMax_toNat, ← four_mul_next_lsb hlvl]
      ring
    exact Nat.succ.inj hmax

end Sys2Proof.Machine
end

