-- ==== Sys2Proof/Proofs/TableContents.lean ====
section
/-! SUPPORT. The entries of the tables index by index are writes of the generator's recursion, and the statement that the
diagnostic reads answer them (R51, R133, R137, R138). An entry is a descent of four levels of the curve, from a position or from
I and J; the recursion takes that descent as one of its branches. -/

namespace Sys2Proof.Machine

/-! ## Numbers built up by shifts -/

/-- `n` more groups of `k` bits can be shifted into `x` from the right without a carry out of its `w` bits. -/
def ShiftRoom {w : Nat} (k n : Nat) (x : BitVec w) : Prop := (x.toNat + 1) * 2 ^ (k * n) ≤ 2 ^ w

/-- Shifting in one group that fits `k` bits is arithmetic on numbers and uses up the room for one group. -/
theorem ShiftRoom.shift_in {w m k n : Nat} {x : BitVec w} {y : BitVec m} (h : ShiftRoom k (n + 1) x)
    (hy : y.toNat < 2 ^ k) :
    ((x <<< k) ||| y.setWidth w).toNat = (x.toNat <<< k) + y.toNat ∧ ShiftRoom k n ((x <<< k) ||| y.setWidth w) := by
  have hstep : (x.toNat + 1) * 2 ^ k * 2 ^ (k * n) ≤ 2 ^ w := by
    rw [Nat.mul_assoc, ← pow_add, Nat.add_comm k, ← Nat.mul_succ]
    exact h
  have hfit : (x.toNat + 1) * 2 ^ k ≤ 2 ^ w := (Nat.le_mul_of_pos_right _ (by positivity)).trans hstep
  have hval : ((x <<< k) ||| y.setWidth w).toNat = (x.toNat <<< k) + y.toNat := by
    rw [Nat.add_mul] at hfit
    rw [BitVec.toNat_or, BitVec.toNat_shiftLeft, BitVec.toNat_setWidth, Nat.mod_eq_of_lt (by omega : y.toNat < 2 ^ w),
      Nat.mod_eq_of_lt (by rw [Nat.shiftLeft_eq]; omega), Nat.shiftLeft_add_eq_or_of_lt hy]
  refine ⟨hval, ?_⟩
  have hle : (x.toNat <<< k) + y.toNat + 1 ≤ (x.toNat + 1) * 2 ^ k := by rw [Nat.shiftLeft_eq, Nat.add_mul]; omega
  rw [ShiftRoom, hval]
  exact (Nat.mul_le_mul_right _ hle).trans hstep

theorem toNat_append_eq_add {w k : Nat} (x : BitVec w) (y : BitVec k) : (x ++ y).toNat = (x.toNat <<< k) + y.toNat := by
  rw [BitVec.toNat_append, Nat.shiftLeft_add_eq_or_of_lt y.isLt]

/-! ## The recursion of the generator -/

theorem mem_pairs (p : BitVec 2) : p ∈ [0#2, 1#2, 2#2, 3#2] := by revert p; decide

/-- Below a cell, the generator writes whatever it writes below the cell's child at curve position `p`. -/
theorem mem_initCell_of_child {w : TableWrite} {n i j pos : Nat} {origO o : Orientation} (p : BitVec 2)
    (h : w ∈ initCell n ((i <<< 1) + ((posToIJ o p).toNat >>> 1)) ((j <<< 1) + ((posToIJ o p).toNat &&& 1)) origO
      ((pos <<< 2) + p.toNat) (o ^^^ posToOrientation p)) :
    w ∈ initCell (n + 1) i j origO pos o :=
  List.mem_flatMap.2 ⟨p, mem_pairs p, h⟩

theorem mem_generatorWrites {w : TableWrite} (origO : Orientation) (h : w ∈ initCell 4 0 0 origO 0 origO) :
    w ∈ generatorWrites :=
  List.mem_flatMap.2 ⟨origO, mem_pairs origO, h⟩

/-! ## The four levels of an entry -/

theorem shiftRight_succ_add_bit {w : Nat} (x : BitVec w) (n : Nat) :
    (x.toNat >>> (n + 1) <<< 1) + (x.getLsbD n).toNat = x.toNat >>> n := by
  rw [BitVec.getLsbD, Nat.toNat_testBit, Nat.shiftRight_add, Nat.shiftRight_eq_div_pow x.toNat n]
  omega

theorem shiftRight_succ_add_pair {w : Nat} (x : BitVec w) (n : Nat) :
    (x.toNat >>> (2 * (n + 1)) <<< 2) + (x.extractLsb' (2 * n) 2).toNat = x.toNat >>> (2 * n) := by
  rw [BitVec.extractLsb'_toNat, Nat.mul_succ, Nat.shiftRight_add]
  omega

/-- The two bits of a quadrant, I above J, as the generator takes them apart. -/
theorem quadrant_bits (a b : Bool) :
    (BitVec.ofBool a ++ BitVec.ofBool b).toNat >>> 1 = a.toNat ∧ (BitVec.ofBool a ++ BitVec.ofBool b).toNat &&& 1 = b.toNat := by
  revert a b; decide

/-- The two bits of a quadrant as the descent by position takes them apart. -/
theorem quadrant_words (q : BitVec 2) :
    (q >>> 1).toNat = q.toNat >>> 1 ∧ (q &&& 1#2).toNat = q.toNat &&& 1 ∧ (q >>> 1).toNat < 2 ^ 1 ∧
    (q &&& 1#2).toNat < 2 ^ 1 := by
  revert q; decide

/-- The base tables of R132 invert each other under every orientation. -/
theorem posToIJ_ijToPos (o : Orientation) (q : BitVec 2) : posToIJ o (ijToPos o q) = q := by revert o q; decide

/-- The recursion takes the descent by I and J: what it writes at the leaf reached it writes below the cell. -/
theorem mem_initCell_of_descendIJ {w : TableWrite} {origO : Orientation} (i j : BitVec 4) {n : Nat} {pos : BitVec 8}
    {o : Orientation} (hpos : ShiftRoom 2 n pos) {leaf : BitVec 8 × Orientation}
    (hleaf : (List.range n).reverse.foldl (descendIJ i j) (pos, o) = leaf)
    (h : w ∈ initCell 0 i.toNat j.toNat origO leaf.1.toNat leaf.2) :
    w ∈ initCell n (i.toNat >>> n) (j.toNat >>> n) origO pos.toNat o := by
  induction n generalizing pos o with
  | zero => rw [← hleaf] at h; exact h
  | succ n ih =>
    rw [List.range_succ, List.reverse_concat, List.foldl_cons] at hleaf
    obtain ⟨hibit, hjbit⟩ := quadrant_bits (i.getLsbD n) (j.getLsbD n)
    obtain ⟨hval, hpos⟩ := hpos.shift_in (ijToPos o (BitVec.ofBool (i.getLsbD n) ++ BitVec.ofBool (j.getLsbD n))).isLt
    apply mem_initCell_of_child (ijToPos o (BitVec.ofBool (i.getLsbD n) ++ BitVec.ofBool (j.getLsbD n)))
    rw [posToIJ_ijToPos, hibit, hjbit, shiftRight_succ_add_bit, shiftRight_succ_add_bit, ← hval]
    exact ih hpos hleaf

/-- The recursion takes the descent by position: what it writes at the leaf reached it writes below the cell. -/
theorem mem_initCell_of_descendPos {w : TableWrite} {origO : Orientation} (pos : BitVec 8) {n : Nat} {i j : BitVec 4}
    {o : Orientation} (hi : ShiftRoom 1 n i) (hj : ShiftRoom 1 n j) {leaf : BitVec 4 × BitVec 4 × Orientation}
    (hleaf : (List.range n).reverse.foldl (descendPos pos) (i, j, o) = leaf)
    (h : w ∈ initCell 0 leaf.1.toNat leaf.2.1.toNat origO pos.toNat leaf.2.2) :
    w ∈ initCell n i.toNat j.toNat origO (pos.toNat >>> (2 * n)) o := by
  induction n generalizing i j o with
  | zero => rw [← hleaf] at h; exact h
  | succ n ih =>
    rw [List.range_succ, List.reverse_concat, List.foldl_cons] at hleaf
    obtain ⟨hibit, hjbit, hilt, hjlt⟩ := quadrant_words (posToIJ o (pos.extractLsb' (2 * n) 2))
    obtain ⟨hival, hi⟩ := hi.shift_in hilt
    obtain ⟨hjval, hj⟩ := hj.shift_in hjlt
    apply mem_initCell_of_child (pos.extractLsb' (2 * n) 2)
    rw [shiftRight_succ_add_pair, ← hibit, ← hjbit, ← hival, ← hjval]
    exact ih hi hj hleaf

/-! ## The entries -/

theorem shiftRoom_zero {w k n : Nat} (h : k * n ≤ w) : ShiftRoom k n (0#w) := by
  simpa [ShiftRoom] using Nat.pow_le_pow_right two_pos h

/-- An index of LOOKUP_POS is the one that the leaf of its I and J chunks is written at. -/
theorem entry_toNat_eq_of_ij (idx : Entry) :
    idx.toNat =
      ((((idx.extractLsb' 6 4).toNat <<< 4) + (idx.extractLsb' 2 4).toNat) <<< 2) + (idx.extractLsb' 0 2).toNat := by
  simp only [BitVec.extractLsb'_toNat]
  have := idx.isLt
  omega

/-- An index of LOOKUP_IJ is the one that the leaf of its position chunk is written at. -/
theorem entry_toNat_eq_of_pos (idx : Entry) :
    idx.toNat = ((idx.extractLsb' 2 8).toNat <<< 2) + (idx.extractLsb' 0 2).toNat := by
  simp only [BitVec.extractLsb'_toNat]
  have := idx.isLt
  omega

/-- The generator writes the entry of every index of LOOKUP_POS: the descent by the index's I and J reaches its leaf. -/
theorem posEntry_write_mem (idx : Entry) : ⟨.lookupPos, idx.toNat, (posEntry idx).toNat⟩ ∈ generatorWrites := by
  apply mem_generatorWrites (idx.extractLsb' 0 2)
  have hi : (idx.extractLsb' 6 4).toNat >>> 4 = 0 := Nat.shiftRight_eq_zero _ _ (idx.extractLsb' 6 4).isLt
  have hj : (idx.extractLsb' 2 4).toNat >>> 4 = 0 := Nat.shiftRight_eq_zero _ _ (idx.extractLsb' 2 4).isLt
  have hleaf := mem_initCell_of_descendIJ (idx.extractLsb' 6 4) (idx.extractLsb' 2 4) (n := 4)
    (w := ⟨.lookupPos, idx.toNat, (posEntry idx).toNat⟩) (origO := idx.extractLsb' 0 2) (o := idx.extractLsb' 0 2)
    (shiftRoom_zero (by decide)) rfl
  rw [hi, hj] at hleaf
  apply hleaf
  rw [entry_toNat_eq_of_ij idx, posEntry, toNat_append_eq_add]
  exact List.mem_cons_self

/-- The generator writes the entry of every index of LOOKUP_IJ: the descent by the index's position reaches its leaf. -/
theorem ijEntry_write_mem (idx : Entry) : ⟨.lookupIJ, idx.toNat, (ijEntry idx).toNat⟩ ∈ generatorWrites := by
  apply mem_generatorWrites (idx.extractLsb' 0 2)
  have hpos : (idx.extractLsb' 2 8).toNat >>> (2 * 4) = 0 := Nat.shiftRight_eq_zero _ _ (idx.extractLsb' 2 8).isLt
  have hleaf := mem_initCell_of_descendPos (idx.extractLsb' 2 8) (n := 4) (o := idx.extractLsb' 0 2)
    (w := ⟨.lookupIJ, idx.toNat, (ijEntry idx).toNat⟩) (origO := idx.extractLsb' 0 2)
    (shiftRoom_zero (by decide)) (shiftRoom_zero (by decide)) rfl
  rw [hpos] at hleaf
  apply hleaf
  rw [entry_toNat_eq_of_pos idx, ijEntry, toNat_append_eq_add, toNat_append_eq_add]
  exact List.mem_cons_of_mem _ List.mem_cons_self

/-- The generator writes the entry of every index of either table (R133). -/
theorem generatedEntry_write_mem (T : TableName) (idx : Entry) :
    ⟨T, idx.toNat, (generatedEntry T idx).toNat⟩ ∈ generatorWrites := by
  cases T with
  | lookupPos => exact posEntry_write_mem idx
  | lookupIJ => exact ijEntry_write_mem idx

/-! ## The diagnostic reads -/

/-- A diagnostic read in range answers the generator's entry once the tables are initialised (R30, R137, R138). -/
theorem tableReadResponse_eq {s : State} (htables : tablesInitialised s) (hidx : s.opa.toNat ≤ 1023) (T : TableName) :
    tableReadResponse s T = okWith [BitVec.ofNat 64 (generatedEntry T (s.opa.setWidth 10)).toNat] := by
  have hok : tableIndexOk s.opa = true := decide_eq_true hidx
  rw [tableReadResponse, requireInput, hok, require_true, s.tblRead_of_initialised htables, wordOfEntry,
    BitVec.ofNat_toNat]

/-- The write of the generator that a diagnostic read in range answers. -/
theorem exists_write_of_tableRead {s : State} (h : operational s) (hidx : s.opa.toNat ≤ 1023) (T : TableName) :
    ∃ w ∈ generatorWrites, w.table = T ∧ w.index = s.opa.toNat ∧
      s.respond (tableReadResponse s T) = .next (replied s .ok [BitVec.ofNat 64 w.entry]) := by
  obtain ⟨-, htables⟩ := h
  refine ⟨_, generatedEntry_write_mem T (s.opa.setWidth 10), rfl, ?_, ?_⟩
  · rw [BitVec.toNat_setWidth, Nat.mod_eq_of_lt (by omega)]
  · rw [State.respond_eq, tableReadResponse_eq htables hidx, State.beginResponse_okWith]

/-- Settles O24: the entry that an initialised table holds at an index is the one the generator's recursion writes there. -/
theorem tableReadsAnswerTheGeneratorValues : Obligations.TableReadsAnswerTheGeneratorValues :=
  fun _ h hidx => ⟨exists_write_of_tableRead h hidx .lookupPos, exists_write_of_tableRead h hidx .lookupIJ⟩

end Sys2Proof.Machine
end

