-- ==== Sys2Proof/Proofs/CommandInputs.lean ====
section
/-! SUPPORT. What a command reads of the state: the three operand ports and the tables through `tblRead`, and the statement that
a response depends on nothing else (R52). -/

namespace Sys2Proof.Machine

/-- Two states that show a command the same operands and the same tables (R12, R52). -/
structure SameInputs (s t : State) : Prop where
  opa : s.opa = t.opa
  opb : s.opb = t.opb
  opc : s.opc = t.opc
  tblRead : s.tblRead = t.tblRead

namespace SameInputs

variable {s t : State}

theorem portVector_eq (h : SameInputs s t) : s.portVector = t.portVector := by
  rw [State.portVector, State.portVector, h.opa, h.opb, h.opc]

theorem tableReadResponse_eq (h : SameInputs s t) (T : TableName) : tableReadResponse s T = tableReadResponse t T := by
  rw [tableReadResponse, tableReadResponse, h.opa, h.tblRead]

/-- A command starts the same response in two states that show it the same inputs. The cases are grouped by what the command
reads: a table entry, the point on three ports, one or two ports, ports and tables, or nothing but its own fields. -/
theorem exec_alike (h : SameInputs s t) (i : Instr) :
    ∃ r, exec i s = .next (s.beginResponse r) ∧ exec i t = .next (t.beginResponse r) := by
  cases i with
  | tblPos | tblIj => exact ⟨_, rfl, by rw [h.tableReadResponse_eq]; rfl⟩
  | xyzToFaceUv => exact ⟨_, rfl, by rw [h.portVector_eq]; rfl⟩
  | fromPoint => exact ⟨_, rfl, by rw [h.portVector_eq, h.tblRead]; rfl⟩
  | stToUv | uvToSt | stToIj | ijToStMin => exact ⟨_, rfl, by rw [h.opa]; rfl⟩
  | fromFacePosLevel face lvl => exact ⟨_, rfl, by rw [h.opa]; rfl⟩
  | faceOf | posOf | levelOf | isLeaf | isValid => exact ⟨_, rfl, by rw [h.opa]; rfl⟩
  | immParent | children | childBegin | childEnd => exact ⟨_, rfl, by rw [h.opa]; rfl⟩
  | child cpos => exact ⟨_, rfl, by rw [h.opa]; rfl⟩
  | parent lvl | childBeginAt lvl | childEndAt lvl | childPosition lvl => exact ⟨_, rfl, by rw [h.opa]; rfl⟩
  | nextCell | rangeMin | rangeMax => exact ⟨_, rfl, by rw [h.opa]; rfl⟩
  | advance | contains | intersects => exact ⟨_, rfl, by rw [h.opa, h.opb]; rfl⟩
  | faceUvToXyz face => exact ⟨_, rfl, by rw [h.opa, h.opb]; rfl⟩
  | fromFaceIj face | fromFaceIjWrap face => exact ⟨_, rfl, by rw [h.opa, h.opb, h.tblRead]; rfl⟩
  | fromFaceIjSame face same => exact ⟨_, rfl, by rw [h.opa, h.opb, h.tblRead]; rfl⟩
  | toFaceIjo | edgeNbrs => exact ⟨_, rfl, by rw [h.opa, h.tblRead]; rfl⟩
  | vertexNbrs lvl | allNbrs lvl => exact ⟨_, rfl, by rw [h.opa, h.tblRead]; rfl⟩
  | fromFace face => exact ⟨_, rfl, rfl⟩
  | beginAt lvl | endAt lvl => exact ⟨_, rfl, rfl⟩

end SameInputs

/-- Initialised tables read alike, however many reset steps came before (R30). -/
theorem tblRead_eq_of_initialised {s t : State} (hs : tablesInitialised s) (ht : tablesInitialised t) :
    s.tblRead = t.tblRead := by
  funext T idx
  rw [s.tblRead_of_initialised hs, t.tblRead_of_initialised ht]

/-- Settles O15: operational states hold the same tables, so states with the same ports show a command the same inputs. -/
theorem responseDependsOnlyOnCommandAndPorts : Obligations.ResponseDependsOnlyOnCommandAndPorts := by
  intro i s t ⟨_, hs⟩ ⟨_, ht⟩ hopa hopb hopc
  exact SameInputs.exec_alike ⟨hopa, hopb, hopc, tblRead_eq_of_initialised hs ht⟩ i

end Sys2Proof.Machine
end

