-- ==== Sys2Proof/Proofs/CommandWords.lean ====
section
/-! SUPPORT. The command word as its seven fields (R71), the fields that an opcode uses (R72, R75), and the statements that
decoding and encoding undo each other (R74). -/

namespace Sys2Proof.Machine

/-! ## The fields of a word -/

/-- A word is its seven fields, side by side (R71). -/
theorem append_fields (w : CmdWord) :
    w.extractLsb' 19 13 ++ (w.extractLsb' 18 1 ++ (w.extractLsb' 16 2 ++ (w.extractLsb' 13 3 ++ (w.extractLsb' 8 5 ++
      (w.extractLsb' 6 2 ++ opcodeField w))))) = w := by
  unfold opcodeField
  iterate 6 rw [BitVec.extractLsb'_append_extractLsb'_eq_extractLsb' (by rfl)]
  exact BitVec.extractLsb'_eq_self

theorem eq_of_fields {w v : CmdWord} (hopcode : opcodeField w = opcodeField v)
    (hrsv0 : w.extractLsb' 6 2 = v.extractLsb' 6 2) (hlvl : w.extractLsb' 8 5 = v.extractLsb' 8 5)
    (hface : w.extractLsb' 13 3 = v.extractLsb' 13 3) (hcpos : w.extractLsb' 16 2 = v.extractLsb' 16 2)
    (hsame : w.extractLsb' 18 1 = v.extractLsb' 18 1) (hrsv1 : w.extractLsb' 19 13 = v.extractLsb' 19 13) : w = v := by
  rw [← append_fields w, hopcode, hrsv0, hlvl, hface, hcpos, hsame, hrsv1, append_fields v]

/-- The encoder's shifted fields do not overlap (R71). -/
theorem assemble_fields (opc : BitVec 6) (f : CmdFields) :
    opcodeField (assemble opc f) = opc ∧ (assemble opc f).extractLsb' 6 2 = 0#2 ∧
    (assemble opc f).extractLsb' 8 5 = BitVec.ofNat 5 f.lvl ∧ (assemble opc f).extractLsb' 13 3 = BitVec.ofNat 3 f.face ∧
    (assemble opc f).extractLsb' 16 2 = BitVec.ofNat 2 f.cpos ∧ (assemble opc f).extractLsb' 18 1 = BitVec.ofBool f.same ∧
    (assemble opc f).extractLsb' 19 13 = 0#13 := by
  unfold opcodeField assemble
  refine ⟨?_, ?_, ?_, ?_, ?_, ?_, ?_⟩ <;> ext n hn <;> interval_cases n <;> simp [BitVec.getElem_setWidth]

theorem extractLsb'_one (w : CmdWord) (n : Nat) : w.extractLsb' n 1 = BitVec.ofBool (w.getLsbD n) := by
  ext k hk
  simp [show k = 0 by omega]

/-- A word without reserved bits is the word of its opcode and arguments. -/
theorem assemble_of_word {w : CmdWord} (hrsv0 : w.extractLsb' 6 2 = 0#2) (hrsv1 : w.extractLsb' 19 13 = 0#13) :
    assemble (opcodeField w) (argFields w) = w := by
  obtain ⟨hopcode, hrsv0', hlvl, hface, hcpos, hsame, hrsv1'⟩ := assemble_fields (opcodeField w) (argFields w)
  refine eq_of_fields hopcode (hrsv0'.trans hrsv0.symm) ?_ ?_ ?_ ?_ (hrsv1'.trans hrsv1.symm)
  · rw [hlvl, argFields, BitVec.ofNat_toNat, BitVec.setWidth_eq]
  · rw [hface, argFields, BitVec.ofNat_toNat, BitVec.setWidth_eq]
  · rw [hcpos, argFields, BitVec.ofNat_toNat, BitVec.setWidth_eq]
  · rw [hsame, argFields, extractLsb'_one]

/-- The numbers fit their bits of format F0 (R71). -/
def fieldsFit (f : CmdFields) : Bool := faceFits f.face && lvlFits f.lvl && cposFits f.cpos

theorem wellFormed_eq_fieldsFit (i : Instr) : i.wellFormed = fieldsFit (fieldsOf i) := by
  have hface : faceFits 0 = true := rfl
  have hlvl : lvlFits 0 = true := rfl
  have hcpos : cposFits 0 = true := rfl
  cases i <;> simp [Instr.wellFormed, fieldsOf, fieldsFit, hface, hlvl, hcpos]

theorem argFields_fit (w : CmdWord) : fieldsFit (argFields w) = true := by
  simp only [fieldsFit, faceFits, lvlFits, cposFits, Bool.and_eq_true, decide_eq_true_eq]
  exact ⟨⟨BitVec.isLt _, BitVec.isLt _⟩, BitVec.isLt _⟩

theorem argFields_assemble (opc : BitVec 6) {f : CmdFields} (h : fieldsFit f = true) : argFields (assemble opc f) = f := by
  obtain ⟨-, -, hlvl, hface, hcpos, hsame, -⟩ := assemble_fields opc f
  simp only [fieldsFit, faceFits, lvlFits, cposFits, Bool.and_eq_true, decide_eq_true_eq] at h
  obtain ⟨⟨hface', hlvl'⟩, hcpos'⟩ := h
  have hsame' : (assemble opc f).getLsbD 18 = f.same := by
    simpa using congrArg (fun b => b.getLsbD 0) hsame
  rw [argFields, hlvl, hface, hcpos, hsame', BitVec.toNat_ofNat, BitVec.toNat_ofNat, BitVec.toNat_ofNat,
    Nat.mod_eq_of_lt hlvl', Nat.mod_eq_of_lt hface', Nat.mod_eq_of_lt hcpos']

/-! ## The fields an opcode uses -/

/-- The fields that an opcode uses; the others are 0 (R72, the "fields" column of R75). -/
def usedFields (opc : BitVec 6) (f : CmdFields) : CmdFields where
  lvl := if opc.toNat ∈ lvlOpcodes then f.lvl else 0
  face := if opc.toNat ∈ faceOpcodes then f.face else 0
  cpos := if opc.toNat ∈ cposOpcodes then f.cpos else 0
  same := decide (opc.toNat ∈ sameOpcodes) && f.same

theorem usedFields_fieldsOf (i : Instr) : usedFields (opcodeOf i) (fieldsOf i) = fieldsOf i := by cases i <;> rfl

theorem opcodeOf_assigned (i : Instr) : (opcodeOf i).toNat ∉ unassignedOpcodes := by
  cases i <;> simp [opcodeOf, unassignedOpcodes]

/-- A word is legal if its opcode is assigned, its reserved fields are 0, and its arguments are only fields that its opcode
uses (R72, R76). -/
theorem not_illegalWord_iff (w : CmdWord) :
    ¬ illegalWord w ↔ (opcodeField w).toNat ∉ unassignedOpcodes ∧ w.extractLsb' 6 2 = 0#2 ∧ w.extractLsb' 19 13 = 0#13 ∧
      usedFields (opcodeField w) (argFields w) = argFields w := by
  have hfield : ∀ {len : Nat} (p : Prop) [Decidable p] (x : BitVec len),
      (if p then x.toNat else 0) = x.toNat ↔ (¬ p → x = 0#len) := fun p _ x => by
    by_cases hp : p <;> simp [hp, BitVec.toNat_eq, eq_comm]
  have hbit : ∀ p b : Bool, (p && b) = b ↔ (¬ p = true → BitVec.ofBool b = 0#1) := by decide
  have hopcode : w.extractLsb' 0 6 = opcodeField w := rfl
  simp only [illegalWord, usedFields, argFields, CmdFields.mk.injEq, hfield, hbit, hopcode, extractLsb'_one,
    decide_eq_true_eq]
  tauto

/-! ## The rows of the opcode map -/

/-- The mask of a row leaves free just the fields that its opcode uses (R75). -/
theorem opcodeMap_mask : ∀ row ∈ opcodeMap, row.mask = ~~~assemble 0#6 (usedFields row.opcode ⟨31, 7, 3, true⟩) := by
  decide

theorem exists_row_of_assigned :
    ∀ opc : BitVec 6, opc.toNat ∉ unassignedOpcodes → (opcodeMap.find? fun r => r.opcode == opc).isSome = true := by
  decide

/-- A row makes the command of its opcode from the fields that the opcode uses (R75). -/
theorem opcodeMap_make : ∀ row ∈ opcodeMap, ∀ f : CmdFields,
    opcodeOf (row.make f) = row.opcode ∧ fieldsOf (row.make f) = usedFields row.opcode f := by
  intro row h f
  fin_cases h <;> exact ⟨rfl, rfl⟩

/-- Every command has a row, which makes it from its own fields (R75). -/
theorem exists_row_of_instr (i : Instr) :
    ∃ row, opcodeMap.find? (fun r => r.opcode == opcodeOf i) = some row ∧ row.make (fieldsOf i) = i := by
  cases i <;> exact ⟨_, rfl, rfl⟩

/-- What is left of a legal number under its mask: nothing, since the mask covers it or it is 0. -/
theorem masked_number {len n : Nat} {p : Prop} [Decidable p] {x : BitVec len} (hn : ~~~BitVec.ofNat len n = 0#len)
    (hx : (if p then x.toNat else 0) = x.toNat) : x &&& ~~~BitVec.ofNat len (if p then n else 0) = 0#len := by
  by_cases hp : p
  · simp [hp, hn]
  · have h0 : x = 0#len := by simpa [hp, BitVec.toNat_eq, eq_comm] using hx
    simp [h0]

theorem masked_bit :
    ∀ p b : Bool, (p && b) = b → BitVec.ofBool b &&& ~~~BitVec.ofBool (p && true) = 0#1 := by decide

/-- A word that uses only the fields of its opcode keeps nothing but the opcode under the mask of the others. -/
theorem and_mask_of_usedFields {w : CmdWord} (hrsv0 : w.extractLsb' 6 2 = 0#2) (hrsv1 : w.extractLsb' 19 13 = 0#13)
    (hused : usedFields (opcodeField w) (argFields w) = argFields w) :
    w &&& ~~~assemble 0#6 (usedFields (opcodeField w) ⟨31, 7, 3, true⟩) = assemble (opcodeField w) ⟨0, 0, 0, false⟩ := by
  obtain ⟨hlvl, hface, hcpos, hsame⟩ := CmdFields.mk.inj hused
  obtain ⟨mopcode, -, mlvl, mface, mcpos, msame, -⟩ := assemble_fields 0#6 (usedFields (opcodeField w) ⟨31, 7, 3, true⟩)
  obtain ⟨oopcode, orsv0, olvl, oface, ocpos, osame, orsv1⟩ := assemble_fields (opcodeField w) ⟨0, 0, 0, false⟩
  have hfield : ∀ (m : CmdWord) {start len : Nat}, start + len < 32 →
      (w &&& ~~~m).extractLsb' start len = w.extractLsb' start len &&& ~~~m.extractLsb' start len := fun m _ _ h => by
    rw [BitVec.extractLsb'_and, BitVec.extractLsb'_not_of_lt h]
  refine eq_of_fields ?_ ?_ ?_ ?_ ?_ ?_ ?_
  · rw [oopcode, opcodeField, hfield _ (by decide), ← opcodeField, ← opcodeField, mopcode,
      BitVec.not_zero, BitVec.and_allOnes]
  · rw [BitVec.extractLsb'_and, hrsv0, orsv0, BitVec.zero_and]
  · rw [hfield _ (by decide), mlvl, olvl]
    exact masked_number rfl hlvl
  · rw [hfield _ (by decide), mface, oface]
    exact masked_number rfl hface
  · rw [hfield _ (by decide), mcpos, ocpos]
    exact masked_number rfl hcpos
  · rw [hfield _ (by decide), msame, osame, extractLsb'_one]
    exact masked_bit _ _ hsame
  · rw [BitVec.extractLsb'_and, hrsv1, orsv1, BitVec.zero_and]

/-- A legal word matches the row of its opcode, which gives its command (R74). -/
theorem decode_of_not_illegalWord {row : OpcodeRow} {w : CmdWord}
    (hrow : opcodeMap.find? (fun r => r.opcode == opcodeField w) = some row) (h : ¬ illegalWord w) :
    decode w = .ok (row.make (argFields w)) := by
  obtain ⟨-, hrsv0, hrsv1, hused⟩ := (not_illegalWord_iff w).1 h
  have hopcode : row.opcode = opcodeField w := by simpa using List.find?_some hrow
  have hword : (opcodeField w).setWidth 32 = assemble (opcodeField w) ⟨0, 0, 0, false⟩ := by simp [assemble]
  have hmatch : w &&& row.mask = row.opcode.setWidth 32 := by
    rw [opcodeMap_mask row (List.mem_of_find?_eq_some hrow), hopcode, hword, and_mask_of_usedFields hrsv0 hrsv1 hused]
  simp only [decode, hrow, if_pos hmatch]

theorem exists_row_of_not_illegalWord {w : CmdWord} (h : ¬ illegalWord w) :
    ∃ row ∈ opcodeMap, row.opcode = opcodeField w ∧ decode w = .ok (row.make (argFields w)) := by
  obtain ⟨hassigned, -⟩ := (not_illegalWord_iff w).1 h
  obtain ⟨row, hrow⟩ := Option.isSome_iff_exists.1 (exists_row_of_assigned _ hassigned)
  exact ⟨row, List.mem_of_find?_eq_some hrow, by simpa using List.find?_some hrow, decode_of_not_illegalWord hrow h⟩

theorem not_illegalWord_of_decode {w : CmdWord} {i : Instr} (h : decode w = .ok i) : ¬ illegalWord w := fun hillegal => by
  obtain ⟨e, he⟩ := decode_of_illegalWord hillegal
  simp [h] at he

/-! ## The statements about the encoding -/

theorem opcodeField_encode (i : Instr) : opcodeField (encode i) = opcodeOf i := by
  obtain ⟨hopcode, -⟩ := assemble_fields (opcodeOf i) (fieldsOf i)
  exact hopcode

theorem argFields_encode {i : Instr} (h : i.wellFormed = true) : argFields (encode i) = fieldsOf i :=
  argFields_assemble _ (wellFormed_eq_fieldsFit i ▸ h)

theorem not_illegalWord_encode {i : Instr} (h : i.wellFormed = true) : ¬ illegalWord (encode i) := by
  obtain ⟨-, hrsv0, -, -, -, -, hrsv1⟩ := assemble_fields (opcodeOf i) (fieldsOf i)
  rw [not_illegalWord_iff, opcodeField_encode, argFields_encode h]
  exact ⟨opcodeOf_assigned i, hrsv0, hrsv1, usedFields_fieldsOf i⟩

/-- Settles O1: the word of a command is legal, and the row it selects makes the command from its own fields. -/
theorem decodeOfEncodeIsTheCommand : Obligations.DecodeOfEncodeIsTheCommand := by
  intro i hwf
  obtain ⟨row, hrow, hmake⟩ := exists_row_of_instr i
  rw [decode_of_not_illegalWord (by rw [opcodeField_encode, hrow]) (not_illegalWord_encode hwf), argFields_encode hwf, hmake]

/-- Settles O2: an accepted word is legal, so the fields that its command keeps are all it has. -/
theorem encodeOfDecodeIsTheWord : Obligations.EncodeOfDecodeIsTheWord := by
  intro w i h
  have hlegal := not_illegalWord_of_decode h
  obtain ⟨-, hrsv0, hrsv1, hused⟩ := (not_illegalWord_iff w).1 hlegal
  obtain ⟨row, hmem, hrow, hdecode⟩ := exists_row_of_not_illegalWord hlegal
  obtain ⟨hopcode, hfields⟩ := opcodeMap_make row hmem (argFields w)
  obtain rfl : row.make (argFields w) = i := by simpa [hdecode] using h
  rw [hrow] at hopcode hfields
  rw [wellFormed_eq_fieldsFit, encode, hopcode, hfields, hused]
  exact ⟨assemble_of_word hrsv0 hrsv1, argFields_fit w⟩

/-- Settles O3. -/
theorem sampleWordsDecode : Obligations.SampleWordsDecode := by
  unfold Obligations.SampleWordsDecode
  decide

end Sys2Proof.Machine
end

