-- ==== Sys2Proof/Proofs/EarlyFailures.lean ====
section
/-! SUPPORT. The commands that fail before they look at their numeric operands: an illegal word, a face or a level out of range
(R76, R263). -/

namespace Sys2Proof.Machine

/-! ## Face and level out of range -/

theorem requireFace_of_lt {f : Nat} (r : InFlight) (h : f < 6) : requireFace f r = r := by
  simp [requireFace, Config.numFaces, h]

theorem requireFace_of_le {f : Nat} (r : InFlight) (h : 6 ≤ f) : requireFace f r = failWith .invalidFace := by
  simp [requireFace, Config.numFaces, not_lt.2 h]

theorem requireLevel_of_lt {lvl : Nat} (r : InFlight) (h : 30 < lvl) : requireLevel lvl r = failWith .invalidLevel := by
  simp [requireLevel, Config.maxLevel, not_le.2 h]

/-- Every command with a FACE argument checks it before anything else (R263 step 2). -/
theorem exec_of_faceArgument {i : Instr} {f : Nat} (h : faceArgument i = some f) (s : State) :
    ∃ r, exec i s = s.respond (requireFace f r) := by
  cases i with
  | faceUvToXyz face | fromFaceIj face | fromFaceIjWrap face | fromFaceIjSame face same | fromFacePosLevel face lvl
  | fromFace face =>
    obtain rfl : face = f := Option.some.inj h
    exact ⟨_, rfl⟩
  | _ => cases h

/-- Every command with a LVL argument checks it right after its face and its id (R263 step 4). -/
theorem exec_of_levelArgument {i : Instr} {lvl : Nat} (h : levelArgument i = some lvl) (s : State)
    (hface : ∀ f, faceArgument i = some f → f < 6) (hcell : takesCell i = true → valid s.opa = true) :
    ∃ r, exec i s = s.respond (requireLevel lvl r) := by
  cases i with
  | beginAt l | endAt l =>
    obtain rfl : l = lvl := Option.some.inj h
    exact ⟨_, rfl⟩
  | fromFacePosLevel face l =>
    obtain rfl : l = lvl := Option.some.inj h
    exact ⟨_, congrArg s.respond (requireFace_of_lt _ (hface face rfl))⟩
  | parent l | childBeginAt l | childEndAt l | childPosition l | vertexNbrs l | allNbrs l =>
    obtain rfl : l = lvl := Option.some.inj h
    exact ⟨_, congrArg s.respond (requireCell_of_valid _ (hcell rfl))⟩
  | _ => cases h

/-- Settles O20. -/
theorem faceOutOfRangeAnswersInvalidFace : Obligations.FaceOutOfRangeAnswersInvalidFace := by
  intro i s f harg hf
  obtain ⟨r, hexec⟩ := exec_of_faceArgument harg s
  rw [hexec, requireFace_of_le r hf, State.respond_eq, State.beginResponse_failWith]

/-- Settles O21. -/
theorem levelThirtyOneAnswersInvalidLevel : Obligations.LevelThirtyOneAnswersInvalidLevel := by
  intro i s lvl harg hlvl hface hcell
  obtain ⟨r, hexec⟩ := exec_of_levelArgument harg s hface hcell
  rw [hexec, requireLevel_of_lt r hlvl, State.respond_eq, State.beginResponse_failWith]

/-! ## Illegal words -/

theorem step_of_illegalWord {s : State} (h : accepting s) (hillegal : illegalWord s.cmd) :
    step s = .next (s.beginResponse (failWith .illegalOp)).endOffer.userMove := by
  rw [step, coreStep_accept h, accept_of_illegalWord hillegal, andThen_next]

/-- A user that takes the header of a failing response ends it. -/
theorem step_failWith {s : State} {st : Status} (hrst : s.rst = false) (hready : s.ready = true)
    (hr : s.inflight = some (failWith st)) (hrsp : s.rspReady = true) (hcmd : s.cmdValid = false)
    (hqueued : s.queued = none) : step s = .next ({ s with inflight := none, busy := false } : State).userMove := by
  rw [step_beat hrst hready hr (.inl hcmd)]
  simp [State.transferBeat, hrsp, InFlight.afterBeat, failWith, State.endResponse, hqueued]

/-- Settles O4: the response is the header ILLEGAL_OP alone, and every word that is not illegal has a row. -/
theorem illegalWordAnswersIllegalOp : Obligations.IllegalWordAnswersIllegalOp := by
  refine ⟨fun s hacc hillegal => ?_, fun w hlegal => ?_⟩
  · have ⟨_, hready, _, _⟩ := hacc
    refine ⟨_, step_of_illegalWord hacc hillegal, ?_⟩
    generalize ht : (s.beginResponse (failWith .illegalOp)).endOffer.userMove = t
    have hinflight : t.inflight = some (failWith .illegalOp) := by simp [← ht]
    have hready' : t.ready = true := by simp [← ht, hready]
    have hpos : t.lookupPos = s.lookupPos := by simp [← ht]
    have hij : t.lookupIJ = s.lookupIJ := by simp [← ht]
    refine ⟨hinflight, by simp [← ht], hready', hpos, hij, fun hrst => ?_, fun hrst hrsp hcmd hqueued => ?_⟩
    · simp [State.beat, hrst, hinflight, InFlight.beat, failWith, Status.code]
    · exact ⟨_, step_failWith hrst hready' hinflight hrsp hcmd hqueued, by simp, by simp, by simpa using hready',
        by simpa using hpos, by simpa using hij⟩
  · obtain ⟨row, -, -, hdecode⟩ := exists_row_of_not_illegalWord hlegal
    exact ⟨_, hdecode⟩

end Sys2Proof.Machine
end

