-- ==== Sys2Proof/Proofs/OperandDomains.lean ====
section
/-! SUPPORT. The checks of the numeric operands (R101, R111, R261): a check that fails answers INVALID_INPUT, one that holds goes
on; and the statements that need no more than the checks. -/

namespace Sys2Proof.Machine

/-! ## Checks that fail -/

/-- Two checks in a row are the check of both: each fails with INVALID_INPUT. -/
theorem requireInput_requireInput (b c : Bool) (r : InFlight) :
    requireInput b (requireInput c r) = requireInput (b && c) r := by cases b <;> rfl

theorem respond_requireInput_of_false {c : Bool} (h : c = false) (s : State) (r : InFlight) :
    s.respond (requireInput c r) = .next (replied s .invalidInput []) := by rw [h]; rfl

theorem requireNumber_requireNumber (x y : U64) (r : InFlight) :
    requireNumber x (requireNumber y r) = requireInput (!Binary64.isNaN x && !Binary64.isNaN y) r :=
  requireInput_requireInput _ _ r

theorem respond_requireNumber_of_isNaN {x : U64} (h : Binary64.isNaN x = true) (s : State) (r : InFlight) :
    s.respond (requireNumber x r) = .next (replied s .invalidInput []) :=
  respond_requireInput_of_false (by rw [h]; rfl) s r

/-- The check of a vector is the domain of the claims. -/
theorem vectorInDomain_iff (s : State) :
    vectorInDomain s ↔ (allFinite s.portVector && !isZeroVector s.portVector) = true := by
  simp only [vectorInDomain, allFinite, isZeroVector, State.portVector, Bool.and_eq_true, Bool.not_eq_true',
    ← Bool.not_eq_true, and_assoc]

theorem requireVector_eq (p : Vec3) (r : InFlight) :
    requireVector p r = requireInput (allFinite p && !isZeroVector p) r := requireInput_requireInput _ _ r

theorem respond_requireVector_of_not_inDomain {s : State} (h : ¬ vectorInDomain s) (r : InFlight) :
    s.respond (requireVector s.portVector r) = .next (replied s .invalidInput []) := by
  rw [requireVector_eq]
  exact respond_requireInput_of_false (Bool.eq_false_iff.2 (mt (vectorInDomain_iff s).2 h)) s r

theorem onGrid_iff (i : Int) : onGrid i = true ↔ 0 ≤ i ∧ i < 2 ^ 30 := by
  rw [onGrid, Bool.and_eq_true, decide_eq_true_iff, decide_eq_true_iff]; rfl

/-- The far edge of the grid is the last coordinate that IJ_TO_ST_MIN takes (R115). -/
theorem upToFarEdge_iff (i : Int) : (decide (0 ≤ i) && decide (i ≤ Config.maxSize)) = true ↔ 0 ≤ i ∧ i ≤ 2 ^ 30 := by
  rw [Bool.and_eq_true, decide_eq_true_iff, decide_eq_true_iff]; rfl

theorem respond_requireGrid_of_off_grid {i j : Int} (h : ¬ (0 ≤ i ∧ i < 2 ^ 30 ∧ 0 ≤ j ∧ j < 2 ^ 30)) (s : State)
    (r : InFlight) : s.respond (requireGrid i j r) = .next (replied s .invalidInput []) := by
  rw [requireGrid, requireInput_requireInput]
  refine respond_requireInput_of_false (Bool.eq_false_iff.2 fun hgrid => h ?_) s r
  obtain ⟨hi, hj⟩ := (Bool.and_eq_true _ _).mp hgrid
  obtain ⟨hi0, hi1⟩ := (onGrid_iff i).1 hi
  exact ⟨hi0, hi1, (onGrid_iff j).1 hj⟩

theorem respond_tableReadResponse_of_lt {s : State} (h : 1023 < s.opa.toNat) (T : TableName) :
    s.respond (tableReadResponse s T) = .next (replied s .invalidInput []) :=
  respond_requireInput_of_false (decide_eq_false (not_le.2 h)) s _

theorem requireLevel_of_le {lvl : Nat} (r : InFlight) (h : lvl ≤ 30) : requireLevel lvl r = r := by
  simp [requireLevel, Config.maxLevel, h]

/-- Settles O23: each command's check of its operands, once its face and level have passed. -/
theorem operandOutOfDomainAnswersInvalidInput : Obligations.OperandOutOfDomainAnswersInvalidInput := by
  intro s face hface
  refine ⟨fun hidx => ?_, fun hnan => ?_, fun hnan => ?_, fun hvec => ?_, fun hi => ?_, fun hgrid => ?_,
    fun hpos lvl hlvl => ?_⟩
  · exact ⟨respond_tableReadResponse_of_lt hidx _, respond_tableReadResponse_of_lt hidx _⟩
  · simp only [exec, execFaceUvToXyz, requireFace_of_lt _ hface, requireNumber_requireNumber]
    refine respond_requireInput_of_false ?_ s _
    rcases hnan with h | h <;> simp [h]
  · exact ⟨respond_requireNumber_of_isNaN hnan s _, respond_requireNumber_of_isNaN hnan s _,
      respond_requireNumber_of_isNaN hnan s _⟩
  · exact ⟨respond_requireVector_of_not_inDomain hvec _, respond_requireVector_of_not_inDomain hvec _⟩
  · refine respond_requireInput_of_false (Bool.eq_false_iff.2 fun hedge => ?_) s _
    obtain ⟨hlow, hhigh⟩ := (upToFarEdge_iff _).1 hedge
    rw [asI64] at hlow hhigh
    omega
  · simp only [exec, execFromFaceIj, execFromFaceIjSame, requireFace_of_lt _ hface, if_true]
    exact ⟨respond_requireGrid_of_off_grid hgrid s _, respond_requireGrid_of_off_grid hgrid s _⟩
  · simp only [exec, execFromFacePosLevel, requireFace_of_lt _ hface, requireLevel_of_le _ hlvl]
    exact respond_requireInput_of_false (decide_eq_false (not_lt.2 hpos)) s _

/-! ## Checks that hold -/

theorem respond_requireInput_of_true {c : Bool} (h : c = true) (s : State) (words : List U64) :
    s.respond (requireInput c (okWith words)) = .next (replied s .ok words) := by rw [h]; rfl

theorem requireNumber_of_not_isNaN {x : U64} (h : Binary64.isNaN x = false) (r : InFlight) : requireNumber x r = r := by
  rw [requireNumber, h]; rfl

theorem respond_requireNumber_of_not_isNaN {x : U64} (h : Binary64.isNaN x = false) (s : State) (words : List U64) :
    s.respond (requireNumber x (okWith words)) = .next (replied s .ok words) := by
  rw [requireNumber_of_not_isNaN h]; rfl

theorem respond_requireVector_of_inDomain {s : State} (h : vectorInDomain s) (words : List U64) :
    s.respond (requireVector s.portVector (okWith words)) = .next (replied s .ok words) := by
  rw [requireVector_eq]
  exact respond_requireInput_of_true ((vectorInDomain_iff s).1 h) s words

theorem exec_faceUvToXyz {s : State} {face : Nat} (hface : face < 6) (ha : Binary64.isNaN s.opa = false)
    (hb : Binary64.isNaN s.opb = false) :
    exec (.faceUvToXyz face) s = .next (replied s .ok
      [(faceUVToXYZ face s.opa s.opb).x, (faceUVToXYZ face s.opa s.opb).y, (faceUVToXYZ face s.opa s.opb).z]) := by
  simp only [exec, execFaceUvToXyz, requireFace_of_lt _ hface, requireNumber_of_not_isNaN ha]
  exact respond_requireNumber_of_not_isNaN hb s _

/-- Settles O28: once the operands have passed, the answer is the row of the face. -/
theorem faceUvToXyzAnswersTheFaceTable : Obligations.FaceUvToXyzAnswersTheFaceTable := by
  rintro s nu nv one mone ha hb rfl rfl rfl rfl
  have row (face : Nat) (hface : face < 6) := exec_faceUvToXyz hface ha hb
  exact ⟨row 0 (by omega), row 1 (by omega), row 2 (by omega), row 3 (by omega), row 4 (by omega), row 5 (by omega)⟩

/-- Settles O31: once the operand has passed, the answer is the formula, with the constants as patterns. -/
theorem warpsAnswerTheirFormulas : Obligations.WarpsAnswerTheirFormulas := by
  rintro s x rfl hx
  exact ⟨respond_requireNumber_of_not_isNaN hx s _, respond_requireNumber_of_not_isNaN hx s _⟩

end Sys2Proof.Machine
end

