-- ==== Sys2Proof/Proofs/Binary64Order.lean ====
section
/-! SUPPORT. The order of the finite patterns is the order of their exact values (R11), a finite pattern is fixed by its value
and its sign, and an operation whose exact result is a finite pattern answers that pattern (R100). -/

namespace Sys2Proof.Machine.Binary64

/-! ## The magnitude of a pattern -/

theorem abs_toNat (x : U64) : (abs x).toNat = x.toNat % 2 ^ 63 := by
  rw [abs, BitVec.toNat_and, show (0x7FFFFFFFFFFFFFFF#64).toNat = 2 ^ 63 - 1 from rfl, Nat.and_two_pow_sub_one_eq_mod]

theorem eq_pattern (x : U64) : x = pattern x.msb (abs x).toNat := by
  apply BitVec.eq_of_toNat_eq
  have := x.isLt
  rw [pattern_toNat _ (by rw [abs_toNat]; omega), abs_toNat, BitVec.msb_eq_decide]
  simp only [decide_eq_true_eq]
  split_ifs <;> omega

theorem isFinite_iff_abs_lt (x : U64) : isFinite x = true ↔ (abs x).toNat < 2047 * 2 ^ 52 := by
  rw [isFinite_iff, exponentField_eq, abs_toNat]; omega

/-- The exponent that a number below the sign bit holds (`exactValue_pattern`). -/
def scaleOf (M : Nat) : Nat := M / 2 ^ 52 - 1

/-- The significand that goes with it, of 53 bits, or fewer at the exponent 0. -/
def significandOf (M : Nat) : Nat := M - scaleOf M * 2 ^ 52

theorem scaleOf_mul_add (M : Nat) : scaleOf M * 2 ^ 52 + significandOf M = M := by
  simp only [scaleOf, significandOf]; omega

theorem significandOf_bounds (M : Nat) : (scaleOf M = 0 ∨ 2 ^ 52 ≤ significandOf M) ∧ significandOf M < 2 ^ 53 := by
  simp only [scaleOf, significandOf]; omega

/-- The number that a positive pattern stands for, beyond the finite patterns too, where it goes on in the same way. -/
noncomputable def magnitude (M : Nat) : ℝ := significandOf M * 2 ^ ((scaleOf M : ℤ) - 1074)

theorem magnitude_zero : magnitude 0 = 0 := by simp [magnitude, significandOf]

/-- The last significand of an exponent and the first of the next one are neighbours. -/
theorem magnitude_succ (M : Nat) : magnitude (M + 1) = (significandOf M + 1) * 2 ^ ((scaleOf M : ℤ) - 1074) := by
  have hsplit := scaleOf_mul_add M
  obtain ⟨hlow, hhigh⟩ := significandOf_bounds M
  by_cases hcarry : significandOf M + 1 = 2 ^ 53
  · have hscale : scaleOf (M + 1) = scaleOf M + 1 := by rw [scaleOf]; omega
    have hsig : significandOf (M + 1) = 2 ^ 52 := by rw [significandOf, hscale]; omega
    have hcarryR : (significandOf M : ℝ) + 1 = 2 ^ 53 := by exact_mod_cast hcarry
    rw [magnitude, hscale, hsig, hcarryR, Nat.cast_succ, add_sub_right_comm, zpow_add_one₀ two_ne_zero]
    push_cast; ring
  · have hscale : scaleOf (M + 1) = scaleOf M := by rw [scaleOf]; omega
    have hsig : significandOf (M + 1) = significandOf M + 1 := by rw [significandOf, hscale]; omega
    rw [magnitude, hscale, hsig, Nat.cast_succ]

theorem magnitude_strictMono : StrictMono magnitude :=
  strictMono_nat_of_lt_succ fun M => by
    rw [magnitude_succ, magnitude]
    gcongr
    exact lt_add_one _

/-! ## The order -/

/-- The number at a place of the IEEE order. -/
noncomputable def keyValue (k : ℤ) : ℝ := k.sign * magnitude k.natAbs

theorem keyValue_neg (k : ℤ) : keyValue (-k) = -keyValue k := by simp [keyValue]

theorem keyValue_natCast (M : Nat) : keyValue M = magnitude M := by
  rcases Nat.eq_zero_or_pos M with rfl | h
  · simp [keyValue, magnitude_zero]
  · simp [keyValue, Int.sign_eq_one_of_pos (Int.natCast_pos.2 h)]

theorem keyValue_strictMono : StrictMono keyValue :=
  strictMono_of_odd_strictMonoOn_nonneg keyValue_neg fun k hk l hl hkl => by
    lift k to ℕ using hk
    lift l to ℕ using hl
    rw [keyValue_natCast, keyValue_natCast]
    exact magnitude_strictMono (Int.ofNat_lt.1 hkl)

theorem keyValue_orderKey (x : U64) : keyValue (orderKey x) = signFactor x.msb * magnitude (abs x).toNat := by
  cases h : x.msb <;> simp [orderKey, signed, h, keyValue_neg, keyValue_natCast]

theorem exactValue_eq_magnitude {x : U64} (hx : isFinite x = true) :
    (exactValue x : ℝ) = signFactor x.msb * magnitude (abs x).toNat := by
  obtain ⟨hlow, hhigh⟩ := significandOf_bounds (abs x).toNat
  have hlt := (isFinite_iff_abs_lt x).1 hx
  rw [← scaleOf_mul_add (abs x).toNat] at hlt
  have hvalue := (exactValue_pattern x.msb hlow hhigh.le hlt).2
  rwa [scaleOf_mul_add, ← eq_pattern] at hvalue

theorem exactValue_eq_keyValue {x : U64} (hx : isFinite x = true) : (exactValue x : ℝ) = keyValue (orderKey x) := by
  rw [exactValue_eq_magnitude hx, keyValue_orderKey]

theorem orderKey_lt_iff {x y : U64} (hx : isFinite x = true) (hy : isFinite y = true) :
    orderKey x < orderKey y ↔ exactValue x < exactValue y := by
  rw [← keyValue_strictMono.lt_iff_lt, ← exactValue_eq_keyValue hx, ← exactValue_eq_keyValue hy, Rat.cast_lt]

theorem isNaN_of_isFinite {x : U64} (hx : isFinite x = true) : isNaN x = false := by
  simp [isNaN, (isFinite_iff x).1 hx]

/-- The comparison of finite patterns is the comparison of their exact values. -/
theorem lt_iff {x y : U64} (hx : isFinite x = true) (hy : isFinite y = true) :
    lt x y = true ↔ exactValue x < exactValue y := by
  simp [lt, isNaN_of_isFinite hx, isNaN_of_isFinite hy, orderKey_lt_iff hx hy]

/-- A finite pattern is fixed by its exact value and its sign. -/
theorem eq_of_exactValue_eq {x y : U64} (hx : isFinite x = true) (hy : isFinite y = true)
    (hvalue : exactValue x = exactValue y) (hmsb : x.msb = y.msb) : x = y := by
  have hkey : orderKey x = orderKey y := keyValue_strictMono.injective (by
    rw [← exactValue_eq_keyValue hx, ← exactValue_eq_keyValue hy, hvalue])
  have habs : (abs x).toNat = (abs y).toNat := by
    rw [orderKey, orderKey, hmsb] at hkey
    cases h : y.msb <;> simpa [signed, h] using hkey
  rw [eq_pattern x, eq_pattern y, hmsb, habs]

/-! ## Magnitude and zero -/

@[simp] theorem abs_abs (x : U64) : abs (abs x) = abs x :=
  BitVec.eq_of_toNat_eq (by simp only [abs_toNat, Nat.mod_mod])

theorem msb_abs (x : U64) : (abs x).msb = false := by
  rw [BitVec.msb_eq_decide, abs_toNat, decide_eq_false_iff_not]; omega

theorem isFinite_abs (x : U64) : isFinite (abs x) = isFinite x := by
  rw [Bool.eq_iff_iff, isFinite_iff_abs_lt, isFinite_iff_abs_lt, abs_abs]

theorem magnitude_nonneg (M : Nat) : 0 ≤ magnitude M := by unfold magnitude; positivity

theorem exactValue_abs {x : U64} (hx : isFinite x = true) : exactValue (abs x) = |exactValue x| := by
  have hcast : (exactValue (abs x) : ℝ) = |(exactValue x : ℝ)| := by
    rw [exactValue_eq_magnitude ((isFinite_abs x).trans hx), exactValue_eq_magnitude hx, msb_abs, abs_abs,
      signFactor_false, one_mul, abs_signFactor_mul, abs_of_nonneg (magnitude_nonneg _)]
  exact_mod_cast hcast

theorem isZero_zero (n : Bool) : isZero (zero n) = true := by cases n <;> decide

theorem isFinite_zero (n : Bool) : isFinite (zero n) = true := by cases n <;> decide

theorem msb_zero (n : Bool) : (zero n).msb = n := by cases n <;> decide

theorem exactValue_eq_zero_iff {x : U64} (hx : isFinite x = true) : exactValue x = 0 ↔ isZero x = true := by
  constructor
  · intro h0
    rw [eq_of_exactValue_eq hx (isFinite_zero x.msb) (h0.trans (exactValue_zero _).symm) (msb_zero _).symm]
    exact isZero_zero _
  · intro h0
    rw [eq_zero_of_isZero h0, exactValue_zero]

/-! ## Exact results -/

theorem abs_exactValue_lt {x : U64} (hx : isFinite x = true) : |(exactValue x : ℝ)| < 2 ^ 1024 - 2 ^ 970 := by
  have hlt := (isFinite_iff_abs_lt x).1 hx
  have hscale : scaleOf (2047 * 2 ^ 52 - 1) = 2045 := rfl
  have hsig : significandOf (2047 * 2 ^ 52 - 1) = 2 ^ 53 - 1 := rfl
  rw [exactValue_eq_magnitude hx, abs_signFactor_mul, abs_of_nonneg (magnitude_nonneg _), overflow_border]
  calc magnitude (abs x).toNat ≤ magnitude (2047 * 2 ^ 52 - 1) := magnitude_strictMono.monotone (by omega)
    _ = (2 ^ 53 - 1) * 2 ^ (971 : ℤ) := by rw [magnitude, hscale, hsig]; norm_num
    _ < _ := by gcongr; norm_num

/-- A number that is the value of a finite pattern is rounded to that value. -/
theorem exactValue_of_roundsTo {x r : U64} (hx : isFinite x = true) (h : roundsTo (exactValue x : ℝ) r) :
    isFinite r = true ∧ exactValue r = exactValue x := by
  obtain ⟨hr, -, hnearest⟩ | ⟨-, hover⟩ := h
  · have hle := (hnearest x hx).1
    rw [sub_self, abs_zero, abs_nonpos_iff, sub_eq_zero] at hle
    exact ⟨hr, by exact_mod_cast hle⟩
  · exact absurd (abs_exactValue_lt hx) (not_lt.2 hover)

theorem eq_of_roundsTo {x r : U64} (hx : isFinite x = true) (h : roundsTo (exactValue x : ℝ) r) (hmsb : r.msb = x.msb) :
    r = x := by
  obtain ⟨hr, hvalue⟩ := exactValue_of_roundsTo hx h
  exact eq_of_exactValue_eq hr hx hvalue hmsb

end Sys2Proof.Machine.Binary64
end

