-- ==== Sys2Proof/Proofs/GridCoordinates.lean ====
section
/-! SUPPORT. `round` of a number that the format holds is that number, and `floorScaled` is the floor of the exact product; the
statements about the grid coordinates (R108, R109, R114 to R116). -/

namespace Sys2Proof.Machine.Binary64

/-! ## Numbers the format holds -/

theorem isFinite_infinity (n : Bool) : isFinite (infinity n) = false := by cases n <;> decide

/-- A number of 53 bits in the range of the exponents is not changed by rounding. -/
theorem round_exact (n : Bool) {m : Nat} {e : ℤ} (hm : m < 2 ^ 53) (he : -1074 ≤ e) (he' : e ≤ 971) :
    isFinite (round n m e) = true ∧ exactValue (round n m e) = signed n m * 2 ^ e := by
  by_cases h0 : m = 0
  · rw [round, if_pos h0, h0, exactValue_zero]
    exact ⟨isFinite_zero n, by cases n <;> simp [signed]⟩
  have hlast : lastPlace m e ≤ e := by
    have : m.log2 < 53 := (Nat.log2_lt h0).2 hm
    rw [lastPlace]; omega
  have hsig : roundedSignificand m e = m * 2 ^ (e - lastPlace m e).toNat := by
    rw [roundedSignificand, if_pos hlast, Nat.shiftLeft_eq]
  have hsigR : (roundedSignificand m e : ℝ) = m * 2 ^ (e - lastPlace m e) := by
    rw [hsig, Nat.cast_mul, Nat.cast_pow, Nat.cast_ofNat, ← zpow_natCast, Int.toNat_of_nonneg (by omega)]
  obtain ⟨hlow, hhigh⟩ := (represents_self m).lastPlace_bounds h0 e
  rw [← hsigR] at hlow hhigh
  have hlow' : (lastPlace m e + 1074).toNat = 0 ∨ 2 ^ 52 ≤ roundedSignificand m e :=
    hlow.imp (by omega) fun h => by exact_mod_cast h
  have hhigh' : roundedSignificand m e < 2 ^ 53 := by exact_mod_cast hhigh
  have hM : (lastPlace m e + 1074).toNat * 2 ^ 52 + roundedSignificand m e < 2047 * 2 ^ 52 := by
    have := neg_1074_le_lastPlace m e
    omega
  have hscale : ((lastPlace m e + 1074).toNat : ℤ) - 1074 = lastPlace m e := by
    have := neg_1074_le_lastPlace m e
    omega
  obtain ⟨hfin, hvalue⟩ := exactValue_pattern n hlow' hhigh'.le hM
  rw [round_eq_pattern n h0, if_neg (not_le.2 hM)]
  rw [hscale, hsigR, mul_assoc, ← zpow_add₀ two_ne_zero, sub_add_cancel, ← mul_assoc, ← signed_cast] at hvalue
  exact ⟨hfin, Rat.cast_injective (α := ℝ) (by push_cast; exact hvalue)⟩

theorem ofInt_exact {i : Nat} (hi : i < 2 ^ 53) : isFinite (ofInt i) = true ∧ exactValue (ofInt i) = i := by
  have hnonneg : decide ((i : Int) < 0) = false := decide_eq_false (not_lt.2 (Int.natCast_nonneg i))
  rw [ofInt, hnonneg, Int.natAbs_natCast]
  simpa [signed] using round_exact false hi (e := 0) (by omega) (by omega)

theorem exactValue_twoPowMinus30 : exactValue twoPowMinus30 = 2 ^ (-30 : ℤ) := by decide +kernel

/-! ## The floor of a scaled number -/

theorem exactValue_eq_signed {x : U64} {n : Bool} {m : Nat} {e : Int} (h : unpack x = .finite n m e) :
    exactValue x = signed n m * 2 ^ e := by
  cases n <;> simp [exactValue, h, signed]

theorem floorScaled_eq (n : Bool) (m : Nat) (e k : Int) :
    floorScaled n m e k = ⌊(2 : ℚ) ^ k * (signed n m * 2 ^ e)⌋ := by
  have hprod : (2 : ℚ) ^ k * (signed n m * 2 ^ e) = signed n m * 2 ^ (e + k) := by
    rw [zpow_add₀ two_ne_zero]; ring
  rw [hprod, floorScaled]
  split_ifs with h
  · have hint : (signed n m : ℚ) * 2 ^ (e + k) = (signed n (m <<< (e + k).toNat) : ℤ) := by
      rw [← Int.toNat_of_nonneg h, zpow_natCast, Int.toNat_natCast, Nat.shiftLeft_eq]
      cases n <;> simp [signed]
    rw [hint, Int.floor_intCast]
  · have hquot : (signed n m : ℚ) * 2 ^ (e + k) = (signed n m : ℚ) / (2 ^ (-(e + k)).toNat : ℕ) := by
      rw [Nat.cast_pow, Nat.cast_ofNat, ← zpow_natCast, Int.toNat_of_nonneg (by omega), zpow_neg, div_inv_eq_mul]
    rw [hquot, Rat.floor_intCast_div_natCast]
    norm_cast

end Sys2Proof.Machine.Binary64

namespace Sys2Proof.Machine

open Binary64 in
/-- ST_TO_IJ's function on a finite pattern: the floor of the exact product, clamped. -/
theorem stToIJ_finite {x : U64} (hx : isFinite x = true) :
    stToIJ x = max 0 (min (2 ^ 30 - 1) ⌊(2 : ℚ) ^ 30 * exactValue x⌋) := by
  obtain ⟨m, e, h, -⟩ := exists_unpack_of_isFinite hx
  rw [stToIJ, h, exactValue_eq_signed h, ← zpow_ofNat, ← floorScaled_eq]
  rfl

theorem stToIJ_infinity (n : Bool) : stToIJ (Binary64.infinity n) = if n then 0 else 2 ^ 30 - 1 := by
  rw [stToIJ, Binary64.unpack_infinity]; rfl

theorem exec_stToIj {s : State} (h : Binary64.isNaN s.opa = false) :
    exec .stToIj s = .next (replied s .ok [BitVec.ofInt 64 (stToIJ s.opa)]) :=
  respond_requireNumber_of_not_isNaN h s _

/-- Settles O32: `floorScaled` is the floor of the exact product. -/
theorem stToIjClampsTheExactFloor : Obligations.StToIjClampsTheExactFloor := by
  refine fun s => ⟨fun hfin => ?_, fun hpos => ?_, fun hneg => ?_⟩
  · rw [exec_stToIj (Binary64.isNaN_of_isFinite hfin), stToIJ_finite hfin]
  · rw [exec_stToIj (by rw [hpos]; decide), show s.opa = Binary64.infinity false from hpos, stToIJ_infinity]; rfl
  · rw [exec_stToIj (by rw [hneg]; decide), show s.opa = Binary64.infinity true from hneg, stToIJ_infinity]; rfl

/-! ## The low edge of a grid cell -/

/-- Both roundings are exact: i and i · 2^-30 have at most 31 bits. -/
theorem ijToSTMin_exact {i : Int} (h0 : 0 ≤ i) (h1 : i ≤ 2 ^ 30) :
    Binary64.isFinite (ijToSTMin i) = true ∧ exactValue (ijToSTMin i) = (i : ℚ) / 2 ^ 30 := by
  lift i to ℕ using h0
  have hi : i < 2 ^ 53 := by omega
  obtain ⟨hfin, hvalue⟩ := Binary64.ofInt_exact hi
  obtain ⟨hedge, hedgeValue⟩ := Binary64.round_exact false hi (e := -30) (by omega) (by omega)
  have hprod : exactValue (Binary64.ofInt i) * exactValue Binary64.twoPowMinus30 =
      exactValue (Binary64.round false i (-30)) := by
    rw [hvalue, hedgeValue, Binary64.exactValue_twoPowMinus30]; rfl
  have hround := (Binary64.mul_finite hfin (y := Binary64.twoPowMinus30) (by decide)).1
  rw [hprod] at hround
  obtain ⟨hresult, hexact⟩ := Binary64.exactValue_of_roundsTo hedge hround
  refine ⟨hresult, hexact.trans ?_⟩
  rw [hedgeValue, zpow_neg, zpow_ofNat, ← div_eq_mul_inv]; rfl

/-- Settles O33: both operations of R109 are exact. -/
theorem ijToStMinIsExact : Obligations.IjToStMinIsExact := by
  intro s h0 h1
  exact ⟨ijToSTMin s.opa.toInt, respond_requireInput_of_true ((upToFarEdge_iff _).2 ⟨h0, h1⟩) s _, ijToSTMin_exact h0 h1⟩

theorem stToIJ_ijToSTMin {i : Int} (h0 : 0 ≤ i) (h1 : i ≤ 2 ^ 30) : stToIJ (ijToSTMin i) = min (2 ^ 30 - 1) i := by
  obtain ⟨hfin, hvalue⟩ := ijToSTMin_exact h0 h1
  rw [stToIJ_finite hfin, hvalue, mul_div_cancel₀ _ (by norm_num), Int.floor_intCast]
  omega

/-- Settles O34: the fixed points are computed; the low edge of cell i is i / 2^30, whose product with 2^30 is i. -/
theorem transformPropertiesHold : Obligations.TransformPropertiesHold := by
  refine ⟨by decide +kernel, by decide +kernel, by decide +kernel, by decide +kernel, by decide +kernel, by decide +kernel,
    fun i h0 h1 => ?_, ?_⟩
  · rw [stToIJ_ijToSTMin h0 (by omega)]; omega
  · rw [stToIJ_ijToSTMin (by norm_num) le_rfl]; norm_num

end Sys2Proof.Machine
end

