-- ==== Sys2Proof/Proofs/Projection.lean ====
section
/-! SUPPORT. The axis of largest magnitude and its sign in exact values (R103), the quotients by ±1, and the statements about
the projection (R104, R105, R111). -/

namespace Sys2Proof.Machine

open Binary64

/-! ## The largest axis -/

theorem lt_abs_iff {x y : U64} (hx : isFinite x = true) (hy : isFinite y = true) :
    Binary64.lt (abs x) (abs y) = true ↔ |exactValue x| < |exactValue y| := by
  rw [lt_iff ((isFinite_abs x).trans hx) ((isFinite_abs y).trans hy), exactValue_abs hx, exactValue_abs hy]

theorem lt_zero_iff {x : U64} (hx : isFinite x = true) : Binary64.lt x (zero false) = true ↔ exactValue x < 0 := by
  rw [lt_iff hx (isFinite_zero false), exactValue_zero]

/-- The components of a vector are finite. -/
structure FiniteVector (p : Vec3) : Prop where
  x : isFinite p.x = true
  y : isFinite p.y = true
  z : isFinite p.z = true

namespace FiniteVector

variable {p : Vec3} (h : FiniteVector p)

include h

/-- The comparisons of `majorAxis` are those of the exact magnitudes. -/
theorem majorAxis_eq :
    majorAxis p =
      if |exactValue p.y| < |exactValue p.x| then (if |exactValue p.z| < |exactValue p.x| then 0 else 2)
      else (if |exactValue p.z| < |exactValue p.y| then 1 else 2) := by
  simp only [majorAxis, lt_abs_iff h.y h.x, lt_abs_iff h.z h.x, lt_abs_iff h.z h.y]

theorem majorAxis_eq_zero (hy : |exactValue p.y| < |exactValue p.x|) (hz : |exactValue p.z| < |exactValue p.x|) :
    majorAxis p = 0 := by
  rw [h.majorAxis_eq, if_pos hy, if_pos hz]

theorem majorAxis_eq_one (hx : |exactValue p.x| ≤ |exactValue p.y|) (hz : |exactValue p.z| < |exactValue p.y|) :
    majorAxis p = 1 := by
  rw [h.majorAxis_eq, if_neg (not_lt.2 hx), if_pos hz]

theorem majorAxis_eq_two (hx : |exactValue p.x| ≤ |exactValue p.z|) (hy : |exactValue p.y| ≤ |exactValue p.z|) :
    majorAxis p = 2 := by
  rw [h.majorAxis_eq, if_neg (not_lt.2 hx), if_neg (not_lt.2 hy), ite_self]

/-- One of the three axes is the largest: y on a tie with x, z on any tie. -/
theorem majorAxis_cases :
    (majorAxis p = 0 ∧ |exactValue p.y| < |exactValue p.x| ∧ |exactValue p.z| < |exactValue p.x|) ∨
    (majorAxis p = 1 ∧ |exactValue p.x| ≤ |exactValue p.y| ∧ |exactValue p.z| < |exactValue p.y|) ∨
    (majorAxis p = 2 ∧ |exactValue p.x| ≤ |exactValue p.z| ∧ |exactValue p.y| ≤ |exactValue p.z|) := by
  rcases lt_or_ge |exactValue p.y| |exactValue p.x| with hxy | hxy
  · rcases lt_or_ge |exactValue p.z| |exactValue p.x| with hxz | hxz
    · exact .inl ⟨h.majorAxis_eq_zero hxy hxz, hxy, hxz⟩
    · have hyz := hxy.le.trans hxz
      exact .inr (.inr ⟨h.majorAxis_eq_two hxz hyz, hxz, hyz⟩)
  · rcases lt_or_ge |exactValue p.z| |exactValue p.y| with hyz | hyz
    · exact .inr (.inl ⟨h.majorAxis_eq_one hxy hyz, hxy, hyz⟩)
    · have hxz := hxy.trans hyz
      exact .inr (.inr ⟨h.majorAxis_eq_two hxz hyz, hxz, hyz⟩)

end FiniteVector

/-- The face is the axis, or the axis and 3 where its component is negative. -/
theorem faceOfVector_eq {p : Vec3} {axis : Nat} (haxis : majorAxis p = axis) (hfin : isFinite (component p axis) = true) :
    faceOfVector p = if exactValue (component p axis) < 0 then axis + 3 else axis := by
  simp only [faceOfVector, haxis, lt_zero_iff hfin]

theorem faceOfVector_cases {p : Vec3} {axis : Nat} (haxis : majorAxis p = axis) (hfin : isFinite (component p axis) = true)
    (hne : exactValue (component p axis) ≠ 0) :
    (faceOfVector p = axis ∧ 0 < exactValue (component p axis)) ∨
    (faceOfVector p = axis + 3 ∧ exactValue (component p axis) < 0) := by
  rw [faceOfVector_eq haxis hfin]
  rcases lt_or_gt_of_ne hne with hneg | hpos
  · exact .inr ⟨if_pos hneg, hneg⟩
  · exact .inl ⟨if_neg hpos.le.not_gt, hpos⟩

theorem exec_xyzToFaceUv {s : State} (h : vectorInDomain s) :
    exec .xyzToFaceUv s = .next (replied s .ok
      [BitVec.ofNat 64 (xyzToFaceUV s.portVector).face, (xyzToFaceUV s.portVector).u, (xyzToFaceUV s.portVector).v]) :=
  respond_requireVector_of_inDomain h _

theorem xyzToFaceUV_of_face {p : Vec3} {face : Nat} (h : faceOfVector p = face) :
    xyzToFaceUV p = ⟨face, (faceXYZToUV face p).1, (faceXYZToUV face p).2⟩ := by rw [← h]; rfl

theorem ne_zero_of_abs_lt {a b : ℚ} (h : |a| < |b|) : b ≠ 0 := abs_pos.1 ((abs_nonneg a).trans_lt h)

/-- Settles O29: the largest axis, then its sign; the component of that axis is not zero, since the vector is not. -/
theorem xyzToFaceUvTakesTheLargestAxis : Obligations.XyzToFaceUvTakesTheLargestAxis := by
  intro s hdom
  have ⟨ha, hb, hc, hzero⟩ := hdom
  refine ⟨_, _, _, exec_xyzToFaceUv hdom, ?_⟩
  obtain ⟨haxis, hy, hz⟩ | ⟨haxis, hx, hz⟩ | ⟨haxis, hx, hy⟩ :=
    FiniteVector.majorAxis_cases (p := s.portVector) ⟨ha, hb, hc⟩
  · obtain ⟨hface, hsign⟩ | ⟨hface, hsign⟩ := faceOfVector_cases haxis ha (ne_zero_of_abs_lt hy)
    · rw [xyzToFaceUV_of_face hface]
      exact .inl ⟨rfl, hsign, hy, hz, rfl, rfl⟩
    · rw [xyzToFaceUV_of_face hface]
      exact .inr (.inr (.inr (.inl ⟨rfl, hsign, hy, hz, rfl, rfl⟩)))
  · obtain ⟨hface, hsign⟩ | ⟨hface, hsign⟩ := faceOfVector_cases haxis hb (ne_zero_of_abs_lt hz)
    · rw [xyzToFaceUV_of_face hface]
      exact .inr (.inl ⟨rfl, hsign, hx, hz, rfl, rfl⟩)
    · rw [xyzToFaceUV_of_face hface]
      exact .inr (.inr (.inr (.inr (.inl ⟨rfl, hsign, hx, hz, rfl, rfl⟩))))
  · have hne : exactValue s.opc ≠ 0 := fun h0 => hzero (by
      rw [State.portVector] at hx hy
      rw [h0, abs_zero, abs_nonpos_iff] at hx hy
      rw [← exactValue_eq_zero_iff ha, ← exactValue_eq_zero_iff hb, ← exactValue_eq_zero_iff hc]
      exact ⟨hx, hy, h0⟩)
    obtain ⟨hface, hsign⟩ | ⟨hface, hsign⟩ := faceOfVector_cases haxis hc hne
    · rw [xyzToFaceUV_of_face hface]
      exact .inr (.inr (.inl ⟨rfl, hsign, hx, hy, rfl, rfl⟩))
    · rw [xyzToFaceUV_of_face hface]
      exact .inr (.inr (.inr (.inr (.inr ⟨rfl, hsign, hx, hy, rfl, rfl⟩))))

/-! ## The way back -/

theorem exactValue_one : exactValue one = 1 := by decide +kernel

theorem isFinite_one : isFinite one = true := by decide

theorem exactValue_neg_one : exactValue (neg one) = -1 := by rw [exactValue_neg isFinite_one, exactValue_one]

theorem neg_neg_eq (x : U64) : neg (neg x) = x := by simp [neg]

/-- A quotient that is a finite pattern is that pattern, if the signs agree. -/
theorem div_eq_of_exact {x y z : U64} (hx : isFinite x = true) (hy : isFinite y = true) (hz : isFinite z = true)
    (h0 : isZero y = false) (hvalue : exactValue x / exactValue y = exactValue z) (hmsb : (x.msb ^^ y.msb) = z.msb) :
    div x y = z := by
  obtain ⟨hround, hsign⟩ := div_finite hx hy h0
  rw [hvalue] at hround
  exact eq_of_roundsTo hz hround (hsign.trans hmsb)

theorem div_one_eq {u : U64} (hu : isFinite u = true) : div u one = u :=
  div_eq_of_exact hu isFinite_one hu (by decide) (by rw [exactValue_one, div_one])
    (by rw [show one.msb = false from rfl, Bool.xor_false])

theorem div_neg_neg_one {u : U64} (hu : isFinite u = true) : div (neg u) (neg one) = u :=
  div_eq_of_exact ((isFinite_neg u).trans hu) ((isFinite_neg one).trans isFinite_one) hu (by decide)
    (by rw [exactValue_neg hu, exactValue_neg_one, neg_div_neg_eq, div_one])
    (by rw [msb_neg, msb_neg, show one.msb = false from rfl]; simp)

section Projection

variable {u v : U64} (hu : isFinite u = true) (hv : isFinite v = true)

include hu hv

theorem finiteVector_faceUVToXYZ (face : Nat) : FiniteVector (faceUVToXYZ face u v) := by
  unfold faceUVToXYZ
  split <;> constructor <;> simp [isFinite_neg, hu, hv, isFinite_one]

/-- The component ±1 of a point inside a face is its largest. -/
theorem majorAxis_faceUVToXYZ {face : Nat} (hface : face < 6) (hu1 : |exactValue u| < 1) (hv1 : |exactValue v| < 1) :
    majorAxis (faceUVToXYZ face u v) = face % 3 := by
  have hfin := finiteVector_faceUVToXYZ hu hv face
  have hnegu : |exactValue (neg u)| = |exactValue u| := by rw [exactValue_neg hu, abs_neg]
  have hnegv : |exactValue (neg v)| = |exactValue v| := by rw [exactValue_neg hv, abs_neg]
  have hone : |exactValue one| = 1 := by rw [exactValue_one, abs_one]
  have hnegone : |exactValue (neg one)| = 1 := by rw [exactValue_neg_one, abs_neg, abs_one]
  match face with
  | 0 | 3 => exact hfin.majorAxis_eq_zero (by simp [faceUVToXYZ, *]) (by simp [faceUVToXYZ, *])
  | 1 | 4 => exact hfin.majorAxis_eq_one (by simp [faceUVToXYZ, *, le_of_lt]) (by simp [faceUVToXYZ, *])
  | 2 | 5 => exact hfin.majorAxis_eq_two (by simp [faceUVToXYZ, *, le_of_lt]) (by simp [faceUVToXYZ, *, le_of_lt])

/-- A point inside a face lies on it: its largest component has the sign of the face. -/
theorem faceOfVector_faceUVToXYZ {face : Nat} (hface : face < 6) (hu1 : |exactValue u| < 1) (hv1 : |exactValue v| < 1) :
    faceOfVector (faceUVToXYZ face u v) = face := by
  have haxis := majorAxis_faceUVToXYZ hu hv hface hu1 hv1
  match face with
  | 0 | 1 | 2 =>
    rw [faceOfVector_eq haxis isFinite_one, if_neg]
    exact exactValue_one ▸ zero_le_one.not_gt
  | 3 | 4 | 5 =>
    rw [faceOfVector_eq haxis ((isFinite_neg one).trans isFinite_one), if_pos]
    exact exactValue_neg_one ▸ neg_one_lt_zero

/-- The quotients of R104 undo the rows of R102. -/
theorem faceXYZToUV_faceUVToXYZ (face : Nat) (hface : face < 6) : faceXYZToUV face (faceUVToXYZ face u v) = (u, v) := by
  match face with
  | 0 | 1 | 2 => simp [faceXYZToUV, faceUVToXYZ, neg_neg_eq, div_one_eq, hu, hv]
  | 3 | 4 | 5 => simp [faceXYZToUV, faceUVToXYZ, div_neg_neg_one, hu, hv]

end Projection

/-- Settles O30: the point lies on its face, and dividing by ±1 is exact, signs of zeros included. -/
theorem projectionRoundTripIsExact : Obligations.ProjectionRoundTripIsExact := by
  intro face u v hface hu hv hu1 hv1
  rw [xyzToFaceUV_of_face (faceOfVector_faceUVToXYZ hu hv hface hu1 hv1), faceXYZToUV_faceUVToXYZ hu hv face hface]

end Sys2Proof.Machine
end

