-- ==== Sys2Proof/Proofs/GeneratorWrites.lean ====
section
/-! SUPPORT. The generator writes each index of each table once, so each of its writes is the entry that the filled table holds;
and the statements about the generator and initialisation (R133, R291 to R293). -/

namespace Sys2Proof.Machine

/-- The indices that the generator writes in a table, in its order. -/
def writtenIndices (T : TableName) : List Nat :=
  (generatorWrites.filter (fun w => w.table = T)).map (fun w => w.index)

/-- Below a cell with `n` levels to go, the recursion makes one write to each table for each of its 4^n leaves. -/
theorem length_filter_initCell (T : TableName) (n i j : Nat) (origO : Orientation) (pos : Nat) (o : Orientation) :
    ((initCell n i j origO pos o).filter (fun w => w.table = T)).length = 4 ^ n := by
  induction n generalizing i j pos o with
  | zero => cases T <;> rfl
  | succ n ih =>
    simp only [initCell, List.flatMap_cons, List.flatMap_nil, List.filter_append, List.filter_nil, List.length_append,
      List.length_nil, ih]
    omega

theorem length_writtenIndices (T : TableName) : (writtenIndices T).length = 1024 := by
  simp only [writtenIndices, generatorWrites, List.flatMap_cons, List.flatMap_nil, List.filter_append, List.filter_nil,
    List.length_map, List.length_append, List.length_nil, length_filter_initCell]
  rfl

theorem mem_writtenIndices (T : TableName) {k : Nat} (hk : k < 1024) : k ∈ writtenIndices T := by
  have hwrite := generatedEntry_write_mem T (BitVec.ofNat 10 k)
  rw [BitVec.toNat_ofNat, Nat.mod_eq_of_lt hk] at hwrite
  exact List.mem_map.2 ⟨_, List.mem_filter.2 ⟨hwrite, decide_eq_true rfl⟩, rfl⟩

/-- Every index is among the 1024 that are written, so none is written twice. -/
theorem writtenIndices_perm_range (T : TableName) : (writtenIndices T).Perm (List.range 1024) := by
  have hsub : List.range 1024 ⊆ writtenIndices T := fun k hk => mem_writtenIndices T (List.mem_range.1 hk)
  refine ((List.nodup_range.subperm hsub).perm_of_length_le ?_).symm
  rw [length_writtenIndices, List.length_range]

theorem nodup_writtenIndices (T : TableName) : (writtenIndices T).Nodup :=
  (writtenIndices_perm_range T).nodup_iff.2 List.nodup_range

/-- A write of the generator is the one of the entry that the table holds at its index. -/
theorem eq_of_mem_generatorWrites {w : TableWrite} (h : w ∈ generatorWrites) :
    w = ⟨w.table, w.index, (generatedEntry w.table (BitVec.ofNat 10 w.index)).toNat⟩ := by
  have hw : w ∈ generatorWrites.filter (fun v => v.table = w.table) := List.mem_filter.2 ⟨h, decide_eq_true rfl⟩
  have hindex : w.index < 1024 :=
    List.mem_range.1 ((writtenIndices_perm_range w.table).subset (List.mem_map.2 ⟨w, hw, rfl⟩))
  have hentry := generatedEntry_write_mem w.table (BitVec.ofNat 10 w.index)
  rw [BitVec.toNat_ofNat, Nat.mod_eq_of_lt hindex] at hentry
  exact List.inj_on_of_nodup_map (nodup_writtenIndices w.table) hw
    (List.mem_filter.2 ⟨hentry, decide_eq_true rfl⟩) rfl

theorem entry_eq_of_mem_generatorWrites {w : TableWrite} (h : w ∈ generatorWrites) :
    w.entry = (generatedEntry w.table (BitVec.ofNat 10 w.index)).toNat :=
  congrArg TableWrite.entry (eq_of_mem_generatorWrites h)

/-- Settles O9: 1024 writes to a table, every index among them; each entry is one of the table's. -/
theorem generatorWritesEveryIndexOnce : Obligations.GeneratorWritesEveryIndexOnce := by
  refine fun T => ⟨writtenIndices_perm_range T, fun w hw => ?_⟩
  rw [entry_eq_of_mem_generatorWrites hw]
  exact BitVec.isLt _

/-- Settles O8: the entry filled in at an index is the one that the generator's only write there has. -/
theorem initialisationWritesTheGeneratorValues : Obligations.InitialisationWritesTheGeneratorValues := by
  intro s hrst hready
  refine ⟨s.initialise.userMove, by rw [step, coreStep_init hrst hready, andThen_next], by simp, fun w hw => ?_⟩
  have htables : tablesInitialised s.initialise.userMove := by simp [tablesInitialised]
  rw [State.tblRead_of_initialised htables, entry_eq_of_mem_generatorWrites hw, BitVec.ofNat_toNat, BitVec.setWidth_eq]

end Sys2Proof.Machine
end

