-- ==== Sys2Proof/Proofs/ChunkedCurve.lean ====
section
/-! SUPPORT. The chunked interleave is the bit-serial one, four levels of the curve to a lookup, and the chunked de-interleave
inverts it; the statement about both (R134 to R136). -/

namespace Sys2Proof.Machine

/-! ## One chunk of the curve -/

/-- The position and the orientation that four levels of the curve reach by a chunk of I and one of J (R133). -/
def chunkLeaf (i j : BitVec 4) (o : Orientation) : BitVec 8 × Orientation :=
  (List.range 4).reverse.foldl (descendIJ i j) (0#8, o)

theorem extractLsb'_append_i (i j : BitVec 4) (o : Orientation) : (i ++ j ++ o).extractLsb' 6 4 = i := by
  apply BitVec.eq_of_toNat_eq
  simp only [BitVec.extractLsb'_toNat, toNat_append_eq_add]
  omega

theorem extractLsb'_append_j (i j : BitVec 4) (o : Orientation) : (i ++ j ++ o).extractLsb' 2 4 = j := by
  apply BitVec.eq_of_toNat_eq
  simp only [BitVec.extractLsb'_toNat, toNat_append_eq_add]
  omega

theorem posEntry_append (i j : BitVec 4) (o : Orientation) :
    posEntry (i ++ j ++ o) = (chunkLeaf i j o).1 ++ (chunkLeaf i j o).2 := by
  rw [posEntry, extractLsb'_append_i, extractLsb'_append_j, BitVec.extractLsb'_append_eq_right]
  rfl

/-- The leaf of a chunk is written in both tables, so LOOKUP_IJ leads back from its position. -/
theorem ijEntry_append (i j : BitVec 4) (o : Orientation) :
    ijEntry ((chunkLeaf i j o).1 ++ o) = i ++ j ++ (chunkLeaf i j o).2 := by
  have hi : i.toNat >>> 4 = 0 := Nat.shiftRight_eq_zero _ _ i.isLt
  have hj : j.toNat >>> 4 = 0 := Nat.shiftRight_eq_zero _ _ j.isLt
  have hleaf (w : TableWrite) := mem_initCell_of_descendIJ (w := w) (origO := o) i j (n := 4) (o := o)
    (shiftRoom_zero (by decide)) (leaf := chunkLeaf i j o) rfl
  simp only [hi, hj] at hleaf
  have hwrite : ⟨.lookupIJ, ((chunkLeaf i j o).1 ++ o).toNat, (i ++ j ++ (chunkLeaf i j o).2).toNat⟩ ∈
      generatorWrites := by
    refine mem_generatorWrites o (hleaf _ ?_)
    simp only [toNat_append_eq_add]
    exact List.mem_cons_of_mem _ List.mem_cons_self
  have hentry := entry_eq_of_mem_generatorWrites hwrite
  rw [BitVec.ofNat_toNat, BitVec.setWidth_eq] at hentry
  exact (BitVec.eq_of_toNat_eq hentry).symm

/-! ## The interleave, chunk by chunk -/

theorem encodeChunk_eq (i j : Int) (P : U64) (o : Orientation) (k : Nat) :
    encodeChunk generatedEntry i j (P, o) k =
      (P ||| ((chunkLeaf (chunk i k) (chunk j k) o).1.setWidth 64 <<< (8 * k)),
       (chunkLeaf (chunk i k) (chunk j k) o).2) := by
  have hpos (p : BitVec 8) (o' : Orientation) : ((p ++ o') >>> 2).setWidth 64 = p.setWidth 64 := by
    apply BitVec.eq_of_toNat_eq
    simp only [BitVec.toNat_setWidth, BitVec.toNat_ushiftRight, toNat_append_eq_add]
    omega
  simp only [encodeChunk, generatedEntry, posEntry_append, hpos, BitVec.extractLsb'_append_eq_right]

/-- Bit `b` of chunk `k` of a coordinate is its bit `4k + b`. -/
theorem ofBool_chunk_getLsbD (i : Int) (k : Nat) {b : Nat} (hb : b < 4) :
    BitVec.ofBool ((chunk i k).getLsbD b) = (BitVec.ofInt 32 i).extractLsb' (4 * k + b) 1 := by
  ext m hm
  obtain rfl : m = 0 := by omega
  simp [chunk, hb]

theorem ShiftRoom.setWidth_shift_in {k n w w' m : Nat} {x : BitVec w} {y : BitVec m} (h : ShiftRoom k (n + 1) x)
    (hw : w ≤ w') (hy : y.toNat < 2 ^ k) :
    ((x <<< k) ||| y.setWidth w).setWidth w' = (x.setWidth w' <<< k) ||| y.setWidth w' := by
  have h' : ShiftRoom k (n + 1) (x.setWidth w') := by
    rw [ShiftRoom, BitVec.toNat_setWidth_of_le hw]
    exact h.trans (Nat.pow_le_pow_right two_pos hw)
  apply BitVec.eq_of_toNat_eq
  rw [BitVec.toNat_setWidth_of_le hw, (h.shift_in hy).1, (h'.shift_in hy).1, BitVec.toNat_setWidth_of_le hw]

/-- The bit-serial levels of a chunk are the descent by the chunk's bits. -/
theorem foldl_encodeBit_chunk (i j : Int) (k : Nat) {n : Nat} (hn : n ≤ 4) (P : U64) {r : BitVec 8} (o : Orientation)
    (hr : ShiftRoom 2 n r) {leaf : BitVec 8 × Orientation}
    (hleaf : (List.range n).reverse.foldl (descendIJ (chunk i k) (chunk j k)) (r, o) = leaf) :
    ((List.range n).reverse.map (4 * k + ·)).foldl (encodeBit i j) (P ||| r.setWidth 64, o) =
      ((P <<< (2 * n)) ||| leaf.1.setWidth 64, leaf.2) := by
  induction n generalizing P r o with
  | zero => rw [← hleaf]; simp
  | succ n ih =>
    rw [List.range_succ, List.reverse_concat, List.foldl_cons] at hleaf
    have hp := (ijToPos o (BitVec.ofBool ((chunk i k).getLsbD n) ++ BitVec.ofBool ((chunk j k).getLsbD n))).isLt
    have hbit : encodeBit i j (P ||| r.setWidth 64, o) (4 * k + n) =
        ((P <<< 2) ||| (descendIJ (chunk i k) (chunk j k) (r, o) n).1.setWidth 64,
         (descendIJ (chunk i k) (chunk j k) (r, o) n).2) := by
      simp only [encodeBit, descendIJ, ← ofBool_chunk_getLsbD _ k (show n < 4 by omega)]
      rw [hr.setWidth_shift_in (by decide) hp, BitVec.shiftLeft_or_distrib, BitVec.or_assoc]
    rw [List.range_succ, List.reverse_concat, List.map_cons, List.foldl_cons, hbit, Nat.mul_succ, Nat.add_comm,
      BitVec.shiftLeft_add]
    exact ih (by omega) _ _ (hr.shift_in hp).2 hleaf

theorem foldl_encodeBit_chunkLeaf (i j : Int) (k : Nat) (P : U64) (o : Orientation) :
    ((List.range 4).reverse.map (4 * k + ·)).foldl (encodeBit i j) (P, o) =
      ((P <<< 8) ||| (chunkLeaf (chunk i k) (chunk j k) o).1.setWidth 64, (chunkLeaf (chunk i k) (chunk j k) o).2) := by
  have h := foldl_encodeBit_chunk i j k (le_refl 4) P o (shiftRoom_zero (by decide)) rfl
  rwa [BitVec.setWidth_zero, BitVec.or_zero] at h

theorem range_four_mul_succ_reverse (n : Nat) :
    (List.range (4 * (n + 1))).reverse = (List.range 4).reverse.map (4 * n + ·) ++ (List.range (4 * n)).reverse := by
  simp [Nat.mul_succ, List.range_add]

/-- A lookup writes its chunk of the position in its final place, below what is already there. -/
theorem encodeChunk_shiftLeft (i j : Int) (P : U64) (o : Orientation) (n : Nat) :
    encodeChunk generatedEntry i j (P <<< (8 * (n + 1)), o) n =
      (((P <<< 8) ||| (chunkLeaf (chunk i n) (chunk j n) o).1.setWidth 64) <<< (8 * n),
       (chunkLeaf (chunk i n) (chunk j n) o).2) := by
  rw [encodeChunk_eq, BitVec.shiftLeft_or_distrib, Nat.mul_succ, Nat.add_comm, BitVec.shiftLeft_add]

/-- A lookup to four bits: from a position shifted to its final place, the chunked interleave goes as the bit-serial one
from the position. -/
theorem foldl_encodeChunk_eq (i j : Int) (n : Nat) (P : U64) (o : Orientation) :
    (List.range n).reverse.foldl (encodeChunk generatedEntry i j) (P <<< (8 * n), o) =
      (List.range (4 * n)).reverse.foldl (encodeBit i j) (P, o) := by
  induction n generalizing P o with
  | zero => simp
  | succ n ih =>
    rw [range_four_mul_succ_reverse, List.foldl_append, foldl_encodeBit_chunkLeaf, ← ih, List.range_succ,
      List.reverse_concat, List.foldl_cons, encodeChunk_shiftLeft]

/-! ## The top of the curve -/

theorem extractLsb'_ofInt_eq_zero {i : Int} (h0 : 0 ≤ i) (h1 : i < 2 ^ 30) {b : Nat} (hb : 30 ≤ b) :
    (BitVec.ofInt 32 i).extractLsb' b 1 = 0#1 := by
  lift i to ℕ using h0
  have hsmall : i % 2 ^ 32 < 2 ^ b := lt_of_lt_of_le (by omega) (Nat.pow_le_pow_right two_pos hb)
  apply BitVec.eq_of_toNat_eq
  rw [BitVec.ofInt_natCast, BitVec.extractLsb'_toNat, BitVec.toNat_ofNat, Nat.shiftRight_eq_zero _ _ hsmall]
  rfl

/-- Two levels down the quadrant 0 from an orientation that is not inverted: position 0, and the orientation again. -/
theorem encodeBit_quadrant_zero_twice (x : BitVec 2) :
    ijToPos (x &&& Config.swapMask) 0#2 = 0#2 ∧
    ijToPos (x &&& Config.swapMask ^^^ posToOrientation 0#2) 0#2 = 0#2 ∧
    x &&& Config.swapMask ^^^ posToOrientation 0#2 ^^^ posToOrientation 0#2 = x &&& Config.swapMask := by
  revert x; decide

section Grid

variable {i j : Int} (hi0 : 0 ≤ i) (hi : i < 2 ^ 30) (hj0 : 0 ≤ j) (hj : j < 2 ^ 30)

include hi0 hi hj0 hj

/-- The bits 31 and 30, which the chunked interleave takes in and the bit-serial one leaves out, are 0 on the grid. -/
theorem foldl_encodeBit_top (face : Nat) :
    [31, 30].foldl (encodeBit i j) (0#64, faceOrientation face) = (0#64, faceOrientation face) := by
  obtain ⟨h31, h30, hback⟩ := encodeBit_quadrant_zero_twice (BitVec.ofNat 2 face)
  have hbit (acc : U64 × Orientation) (b : Nat) (hb : 30 ≤ b) : encodeBit i j acc b =
      ((acc.1 <<< 2) ||| (ijToPos acc.2 0#2).setWidth 64, acc.2 ^^^ posToOrientation (ijToPos acc.2 0#2)) := by
    simp only [encodeBit, extractLsb'_ofInt_eq_zero hi0 hi hb, extractLsb'_ofInt_eq_zero hj0 hj hb]
    rfl
  simp only [List.foldl_cons, List.foldl_nil, hbit _ 31 (by decide), hbit _ 30 (by decide), faceOrientation, h31, h30, hback]
  rfl

theorem hilbertEncode_eq_bitSerialEncode (face : Nat) : hilbertEncode generatedEntry face i j = bitSerialEncode face i j := by
  have hchunked := foldl_encodeChunk_eq i j 8 0#64 (faceOrientation face)
  have hlevels : (List.range (4 * 8)).reverse = [31, 30] ++ (List.range 30).reverse := by decide
  rw [hlevels, List.foldl_append, foldl_encodeBit_top hi0 hi hj0 hj, BitVec.zero_shiftLeft] at hchunked
  exact congrArg Prod.fst hchunked

end Grid

/-! ## The leaf of a position -/

/-- `n` levels from a position with room for them below 2^60 end below 2^60. -/
theorem foldl_encodeBit_lt (i j : Int) (bits : List Nat) {P : U64} (o : Orientation)
    (h : (P.toNat + 1) * 4 ^ bits.length ≤ 2 ^ 60) : (bits.foldl (encodeBit i j) (P, o)).1.toNat < 2 ^ 60 := by
  induction bits generalizing P o with
  | nil => simpa using h
  | cons b bits ih =>
    rw [List.length_cons, pow_succ', ← mul_assoc] at h
    have hroom : ShiftRoom 2 1 P := by
      have := (Nat.le_mul_of_pos_right ((P.toNat + 1) * 4) (Nat.pow_pos (n := bits.length) (by decide : 0 < 4))).trans h
      rw [ShiftRoom]; omega
    obtain ⟨hval, -⟩ := hroom.shift_in
      (ijToPos o ((BitVec.ofInt 32 i).extractLsb' b 1 ++ (BitVec.ofInt 32 j).extractLsb' b 1)).isLt
    refine ih _ (le_trans (Nat.mul_le_mul_right _ ?_) h)
    rw [hval]
    omega

theorem bitSerialEncode_lt (face : Nat) (i j : Int) : (bitSerialEncode face i j).toNat < 2 ^ 60 :=
  foldl_encodeBit_lt i j (List.range 30).reverse _ (by simp)

theorem leafAt_toNat {face : Nat} (hface : face < 6) (i j : Int) :
    (leafAt face i j).toNat = face * 2 ^ 61 + 2 * (bitSerialEncode face i j).toNat + 1 := by
  have hlt := bitSerialEncode_lt face i j
  have hface' : (BitVec.ofNat 64 face <<< 61).toNat = face <<< 61 := by
    rw [BitVec.toNat_shiftLeft, BitVec.toNat_ofNat]; omega
  have hpos : (bitSerialEncode face i j <<< 1).toNat = (bitSerialEncode face i j).toNat <<< 1 := by
    rw [BitVec.toNat_shiftLeft]; omega
  have hsum : face <<< 61 + (bitSerialEncode face i j).toNat <<< 1 =
      (face <<< 60 + (bitSerialEncode face i j).toNat) <<< 1 := by omega
  rw [leafAt, BitVec.toNat_or, BitVec.toNat_or, hface', hpos, ← Nat.shiftLeft_add_eq_or_of_lt (by omega), hsum,
    show (1#64).toNat = 1 from rfl, ← Nat.shiftLeft_add_eq_or_of_lt (by decide)]
  omega

theorem faceField_leafAt {face : Nat} (hface : face < 6) (i j : Int) : faceField (leafAt face i j) = face := by
  have hlt := bitSerialEncode_lt face i j
  rw [faceField_eq, leafAt_toNat hface]
  omega

/-- A leaf's index among the 6 · 2^60 leaves is its face and its position on the curve (R26). -/
theorem cellIndex_leafAt {face : Nat} (hface : face < 6) (i j : Int) :
    CellIndex (leafAt face i j) 30 (face * 2 ^ 60 + (bitSerialEncode face i j).toNat) := by
  have hlt := bitSerialEncode_lt face i j
  refine ⟨le_refl _, by omega, ?_⟩
  rw [leafAt_toNat hface]
  omega

/-- The position chunks of a leaf are those of its curve position (R135). -/
theorem positionChunk_leafAt {face : Nat} (hface : face < 6) (i j : Int) {k : Nat} (hk : k < 8) :
    positionChunk (leafAt face i j) k = (bitSerialEncode face i j).extractLsb' (8 * k) 8 := by
  have hlt := bitSerialEncode_lt face i j
  have hleaf := leafAt_toNat hface i j
  apply BitVec.eq_of_toNat_eq
  unfold positionChunk
  split
  next h7 =>
    subst h7
    rw [BitVec.toNat_setWidth, BitVec.extractLsb'_toNat, BitVec.extractLsb'_toNat, hleaf]
    omega
  next h7 =>
    rw [BitVec.extractLsb'_toNat, BitVec.extractLsb'_toNat, hleaf]
    interval_cases k <;> omega

/-! ## The de-interleave -/

/-- Later lookups leave the bits above their chunks alone. -/
theorem getLsbD_foldl_encodeChunk (i j : Int) {n m : Nat} (h : 8 * n ≤ m) (P : U64) (o : Orientation) :
    ((List.range n).reverse.foldl (encodeChunk generatedEntry i j) (P, o)).1.getLsbD m = P.getLsbD m := by
  induction n generalizing P o with
  | zero => rfl
  | succ n ih =>
    rw [List.range_succ, List.reverse_concat, List.foldl_cons, encodeChunk_eq, ih (by omega), BitVec.getLsbD_or,
      BitVec.getLsbD_shiftLeft, BitVec.getLsbD_setWidth, BitVec.getLsbD_of_ge _ (m - 8 * n) (by omega)]
    simp

/-- The first lookup writes the top chunk of the positions it starts from. -/
theorem extractLsb'_foldl_encodeChunk (i j : Int) {n : Nat} (hn : n < 8) (P : U64) (o : Orientation) :
    ((List.range (n + 1)).reverse.foldl (encodeChunk generatedEntry i j) (P <<< (8 * (n + 1)), o)).1.extractLsb' (8 * n) 8 =
      (chunkLeaf (chunk i n) (chunk j n) o).1 := by
  ext b hb
  rw [List.range_succ, List.reverse_concat, List.foldl_cons, encodeChunk_eq, ← BitVec.getLsbD_eq_getElem,
    BitVec.getLsbD_extractLsb', getLsbD_foldl_encodeChunk _ _ (by omega)]
  simp [hb, show 8 * n + b < 64 by omega, show 8 * n + b < 8 * (n + 1) by omega]

theorem chunk_toNat {i : Nat} (hi : i < 2 ^ 30) (k : Nat) : (chunk i k).toNat = i / 2 ^ (4 * k) % 2 ^ 4 := by
  rw [chunk, BitVec.ofInt_natCast, BitVec.extractLsb'_toNat, BitVec.toNat_ofNat,
    Nat.mod_eq_of_lt (show i < 2 ^ 32 by omega), Nat.shiftRight_eq_div_pow]

/-- The lowest `n + 1` chunks of a coordinate: chunk `n` above the lowest `n`. -/
theorem mod_chunks_succ (i n : Nat) :
    i % 2 ^ (4 * (n + 1)) = 2 ^ (4 * n) * (i / 2 ^ (4 * n) % 2 ^ 4) + i % 2 ^ (4 * n) := by
  rw [Nat.mul_succ, pow_add, Nat.mod_mul, add_comm]

/-- A lookup of the de-interleave takes back the lookup of the interleave at the same chunk. -/
theorem decodeChunk_eq {x : U64} {i j k : Nat} (hi : i < 2 ^ 30) (hj : j < 2 ^ 30) {o : Orientation}
    (hx : positionChunk x k = (chunkLeaf (chunk i k) (chunk j k) o).1) (a b : Int) :
    decodeChunk generatedEntry x (a, b, o) k =
      (a + ((2 ^ (4 * k) * (i / 2 ^ (4 * k) % 2 ^ 4) : ℕ) : ℤ), b + ((2 ^ (4 * k) * (j / 2 ^ (4 * k) % 2 ^ 4) : ℕ) : ℤ),
       (chunkLeaf (chunk i k) (chunk j k) o).2) := by
  simp only [decodeChunk, generatedEntry, hx, ijEntry_append, extractLsb'_append_i, extractLsb'_append_j,
    BitVec.extractLsb'_append_eq_right, chunk_toNat hi, chunk_toNat hj]
  push_cast
  simp only [mul_comm]

/-- On the chunks of a position that the interleave has made, the de-interleave gives back the coordinates chunk by chunk and
goes through the same orientations. -/
theorem foldl_decodeChunk_eq {x P : U64} {i j n : Nat} {o : Orientation} (hi : i < 2 ^ 30) (hj : j < 2 ^ 30) (hn : n ≤ 8)
    {E : U64 × Orientation} (hE : (List.range n).reverse.foldl (encodeChunk generatedEntry i j) (P <<< (8 * n), o) = E)
    (hx : ∀ k < n, positionChunk x k = E.1.extractLsb' (8 * k) 8) (a b : Int) :
    (List.range n).reverse.foldl (decodeChunk generatedEntry x) (a, b, o) =
      (a + (i % 2 ^ (4 * n) : ℕ), b + (j % 2 ^ (4 * n) : ℕ), E.2) := by
  induction n generalizing P o a b with
  | zero => rw [← hE]; simp [Nat.mod_one]
  | succ n ih =>
    have htop : positionChunk x n = (chunkLeaf (chunk i n) (chunk j n) o).1 := by
      rw [hx n n.lt_succ_self, ← hE, extractLsb'_foldl_encodeChunk _ _ (by omega)]
    rw [List.range_succ, List.reverse_concat, List.foldl_cons, encodeChunk_shiftLeft] at hE
    rw [List.range_succ, List.reverse_concat, List.foldl_cons, decodeChunk_eq hi hj htop,
      ih (by omega) hE (fun k hk => hx k (by omega)), mod_chunks_succ, mod_chunks_succ, Nat.cast_add, Nat.cast_add,
      add_assoc, add_assoc]

theorem hilbertDecode_leafAt {face : Nat} (hface : face < 6) {i j : Int} (hi0 : 0 ≤ i) (hi : i < 2 ^ 30) (hj0 : 0 ≤ j)
    (hj : j < 2 ^ 30) :
    (hilbertDecode generatedEntry (leafAt face i j)).1 = i ∧ (hilbertDecode generatedEntry (leafAt face i j)).2.1 = j := by
  have hencode := hilbertEncode_eq_bitSerialEncode hi0 hi hj0 hj face
  lift i to ℕ using hi0
  lift j to ℕ using hj0
  have hi' : i < 2 ^ 30 := by exact_mod_cast hi
  have hj' : j < 2 ^ 30 := by exact_mod_cast hj
  have hdecode := foldl_decodeChunk_eq (x := leafAt face i j) (P := 0#64) (o := faceOrientation face) hi' hj' (le_refl 8)
    rfl (fun k hk => by
      rw [positionChunk_leafAt hface _ _ hk, ← hencode, BitVec.zero_shiftLeft]; rfl) 0 0
  rw [zero_add, zero_add, Nat.mod_eq_of_lt (by omega), Nat.mod_eq_of_lt (by omega)] at hdecode
  rw [hilbertDecode, faceField_leafAt hface]
  exact ⟨congrArg (·.1) hdecode, congrArg (·.2.1) hdecode⟩

/-- Settles O25: a lookup goes down four levels of the curve at once, and LOOKUP_IJ leads back up. -/
theorem chunkedInterleaveIsTheBitSerialOne : Obligations.ChunkedInterleaveIsTheBitSerialOne := by
  intro face i j hface hi0 hi hj0 hj
  rw [hilbertEncode_eq_bitSerialEncode hi0 hi hj0 hj]
  exact ⟨rfl, hilbertDecode_leafAt hface hi0 hi hj0 hj⟩

end Sys2Proof.Machine
end

