-- ==== Sys2Proof/Proofs/LeafConstructors.lean ====
section
/-! SUPPORT. The commands that answer a leaf: each names a face and two coordinates on its grid, and answers the leaf at their
position on the curve (R150, R151, R154 to R158). -/

namespace Sys2Proof.Machine

open Binary64

/-! ## The leaf of grid coordinates -/

theorem tblRead_eq_generatedEntry {s : State} (h : operational s) : s.tblRead = generatedEntry := by
  obtain ⟨-, htables⟩ := h
  funext T idx
  exact State.tblRead_of_initialised htables T idx

theorem requireGrid_of_onGrid {i j : Int} (hi : onGrid i = true) (hj : onGrid j = true) (r : InFlight) :
    requireGrid i j r = r := by rw [requireGrid, hi, hj]; rfl

/-- With initialised tables the constructor of R150 answers the leaf at the bit-serial position. -/
theorem fromFaceIJ_eq_leafAt (face : Nat) {i j : Int} (hi : onGrid i = true) (hj : onGrid j = true) :
    fromFaceIJ generatedEntry face i j = leafAt face i j := by
  obtain ⟨hi0, hi1⟩ := (onGrid_iff i).1 hi
  obtain ⟨hj0, hj1⟩ := (onGrid_iff j).1 hj
  rw [fromFaceIJ, hilbertEncode_eq_bitSerialEncode hi0 hi1 hj0 hj1]
  rfl

theorem isCellAt_leafAt {face : Nat} (hface : face < 6) (i j : Int) : isCellAt (leafAt face i j) 30 :=
  (cellIndex_leafAt hface i j).isCellAt

/-- Settles O26: the grid check passes, and the tables hold the generator's entries. -/
theorem fromFaceIjAnswersTheLeaf : Obligations.FromFaceIjAnswersTheLeaf := by
  rintro s face w hop hface hi0 hi1 hj0 hj1 rfl
  have hi : onGrid (asI64 s.opa) = true := (onGrid_iff _).2 ⟨hi0, hi1⟩
  have hj : onGrid (asI64 s.opb) = true := (onGrid_iff _).2 ⟨hj0, hj1⟩
  have hleaf : fromFaceIJ s.tblRead face (asI64 s.opa) (asI64 s.opb) = leafAt face s.opa.toInt s.opb.toInt := by
    rw [tblRead_eq_generatedEntry hop]
    exact fromFaceIJ_eq_leafAt face hi hj
  refine ⟨?_, ?_, isCellAt_leafAt hface _ _, faceField_leafAt hface _ _⟩
  · simp only [exec, execFromFaceIj, requireFace_of_lt _ hface, requireGrid_of_onGrid hi hj, hleaf]; rfl
  · simp only [exec, execFromFaceIjSame, requireFace_of_lt _ hface, if_true, requireGrid_of_onGrid hi hj,
      fromFaceIJSame, hleaf]; rfl

/-! ## The leaf of a point -/

theorem onGrid_stToIJ (x : U64) : onGrid (stToIJ x) = true := by
  unfold stToIJ
  split
  · split <;> decide
  · rw [onGrid_iff, clampInt, maxCoordinate, Config.maxSize]; omega
  · decide

theorem faceOfVector_lt (p : Vec3) : faceOfVector p < 6 := by
  have haxis : majorAxis p ≤ 2 := by unfold majorAxis; split_ifs <;> decide
  unfold faceOfVector
  split_ifs <;> omega

/-- Settles O40: ST_TO_IJ's function always ends on the grid, and a vector's face is below 6. -/
theorem fromPointAnswersAValidLeaf : Obligations.FromPointAnswersAValidLeaf := by
  rintro s f hop hvec rfl
  have hface := faceOfVector_lt s.portVector
  refine ⟨_, respond_requireVector_of_inDomain hvec _, ?_⟩
  rw [fromPoint, tblRead_eq_generatedEntry hop, fromFaceIJ_eq_leafAt _ (onGrid_stToIJ _) (onGrid_stToIJ _)]
  exact ⟨isCellAt_leafAt hface _ _, faceField_leafAt hface _ _, rfl⟩

/-! ## The leaf through the cube -/

/-- An integer of 53 bits scaled by a power of two in range is not changed by rounding. -/
theorem round_int_exact {n : Int} {e : ℤ} (hn : n.natAbs < 2 ^ 53) (he : -1074 ≤ e) (he' : e ≤ 971) :
    isFinite (round (decide (n < 0)) n.natAbs e) = true ∧ exactValue (round (decide (n < 0)) n.natAbs e) = n * 2 ^ e := by
  have hsigned : signed (decide (n < 0)) n.natAbs = n := by
    simp only [signed, decide_eq_true_eq]
    split_ifs <;> omega
  obtain ⟨hfin, hvalue⟩ := round_exact (decide (n < 0)) hn he he'
  exact ⟨hfin, by rw [hvalue, hsigned]⟩

/-- An integer of 53 bits times 2^-30 is exact, as a centre in R154 is. -/
theorem mul_twoPowMinus30_ofInt_exact {n : Int} (hn : n.natAbs < 2 ^ 53) :
    isFinite (mul twoPowMinus30 (ofInt n)) = true ∧ exactValue (mul twoPowMinus30 (ofInt n)) = (n : ℚ) / 2 ^ 30 := by
  obtain ⟨hfin, hvalue⟩ := round_int_exact hn (e := 0) (by omega) (by omega)
  obtain ⟨hexact, hquot⟩ := round_int_exact hn (e := -30) (by omega) (by omega)
  have hround := (mul_finite (x := twoPowMinus30) (by decide) hfin).1
  have hprod : exactValue twoPowMinus30 * exactValue (round (decide (n < 0)) n.natAbs 0) =
      exactValue (round (decide (n < 0)) n.natAbs (-30)) := by
    rw [exactValue_twoPowMinus30, hvalue, hquot]; ring
  rw [hprod] at hround
  obtain ⟨hresult, hfinal⟩ := exactValue_of_roundsTo hexact hround
  refine ⟨hresult, hfinal.trans ?_⟩
  rw [hquot, zpow_neg, zpow_ofNat, ← div_eq_mul_inv]

section MinMax

variable {x y : U64} (hx : isFinite x = true) (hy : isFinite y = true)

include hx hy

/-- The minimum by comparison is that of the exact values. -/
theorem minOf_exact : isFinite (minOf x y) = true ∧ exactValue (minOf x y) = min (exactValue x) (exactValue y) := by
  rw [minOf]
  split_ifs with h
  · exact ⟨hy, (min_eq_right ((lt_iff hy hx).1 h).le).symm⟩
  · exact ⟨hx, (min_eq_left (not_lt.1 (mt (lt_iff hy hx).2 h))).symm⟩

theorem maxOf_exact : isFinite (maxOf x y) = true ∧ exactValue (maxOf x y) = max (exactValue x) (exactValue y) := by
  rw [maxOf]
  split_ifs with h
  · exact ⟨hy, (max_eq_right ((lt_iff hx hy).1 h).le).symm⟩
  · exact ⟨hx, (max_eq_left (not_lt.1 (mt (lt_iff hx hy).2 h))).symm⟩

end MinMax

theorem isFinite_wrapLimit : isFinite Config.wrapLimit = true := by decide

theorem exactValue_wrapLimit : exactValue Config.wrapLimit = 1 + 1 / 2 ^ 52 := by decide +kernel

/-- A coordinate clamped to one step off the grid has its centre in the linear projection, clamped to ±LIMIT (R154). -/
theorem wrapCoordinate_exact {i c : Int} (hc : c = max (-1) (min (2 ^ 30) i)) :
    isFinite (wrapCoordinate i) = true ∧
    exactValue (wrapCoordinate i) = max (-(1 + 1 / 2 ^ 52)) (min (1 + 1 / 2 ^ 52) ((2 * (c : ℚ) + 1 - 2 ^ 30) / 2 ^ 30)) := by
  have hbits : (2 * c + 1 - Config.maxSize).natAbs < 2 ^ 53 := by simp only [Config.maxSize]; omega
  obtain ⟨hcentre, hvalue⟩ := mul_twoPowMinus30_ofInt_exact hbits
  obtain ⟨hmin, hminValue⟩ := minOf_exact isFinite_wrapLimit hcentre
  obtain ⟨hmax, hmaxValue⟩ := maxOf_exact ((isFinite_neg Config.wrapLimit).trans isFinite_wrapLimit) hmin
  rw [exactValue_neg isFinite_wrapLimit, hminValue, hvalue, exactValue_wrapLimit] at hmaxValue
  have hclamp : clampInt i (-1) Config.maxSize = c := hc.symm
  rw [wrapCoordinate, hclamp]
  refine ⟨hmax, hmaxValue.trans ?_⟩
  norm_num [Config.maxSize]

/-- The wrap-aware constructor answers the leaf at the linear coordinates of the point, on the point's own face (R154). -/
theorem fromFaceIJWrap_eq_leafAt {face : Nat} {i j : Int} {f : FaceUV}
    (hf : f = xyzToFaceUV (faceUVToXYZ face (wrapCoordinate i) (wrapCoordinate j))) :
    fromFaceIJWrap generatedEntry face i j = leafAt f.face (linearToIJ f.u) (linearToIJ f.v) := by
  rw [hf]
  exact fromFaceIJ_eq_leafAt _ (onGrid_stToIJ _) (onGrid_stToIJ _)

/-- Settles O38: both commands take any coordinates, whose centres are exact; the point's own face and linear coordinates are
those of a leaf. -/
theorem wrapAnswersAValidLeaf : Obligations.WrapAnswersAValidLeaf := by
  intro s face ci cj hop hface hci hcj
  obtain ⟨hu, huValue⟩ := wrapCoordinate_exact hci
  obtain ⟨hv, hvValue⟩ := wrapCoordinate_exact hcj
  have hleaf := fromFaceIJWrap_eq_leafAt (face := face) (i := s.opa.toInt) (j := s.opb.toInt) rfl
  rw [← tblRead_eq_generatedEntry hop] at hleaf
  refine ⟨wrapCoordinate s.opa.toInt, wrapCoordinate s.opb.toInt, _, fromFaceIJWrap s.tblRead face s.opa.toInt s.opb.toInt,
    ?_, ?_, ?_, hu, hv, huValue, hvValue, rfl, hleaf⟩
  · simp only [exec, execFromFaceIjWrap, requireFace_of_lt _ hface]; rfl
  · simp only [exec, execFromFaceIjSame, requireFace_of_lt _ hface]; rfl
  · rw [hleaf]
    exact isCellAt_leafAt (faceOfVector_lt _) _ _

end Sys2Proof.Machine
end

