-- ==== Sys2Proof/Proofs/CellConstructors.lean ====
section
/-! SUPPORT. The commands that answer a cell of a given level without the curve: what a level keeps of a face and a position,
and the first and last ids of a level (R159 to R162). -/

namespace Sys2Proof.Machine

/-! ## What a level keeps of a number -/

theorem or_one_toNat (x : U64) : (x ||| 1#64).toNat = 2 * (x.toNat / 2) + 1 := by
  have hhalf : (x.toNat ||| 1) / 2 = x.toNat / 2 := by rw [Nat.or_div_two]; simp
  have hodd : (x.toNat ||| 1) % 2 = 1 := Nat.or_mod_two_eq_one.2 (.inr rfl)
  rw [BitVec.toNat_or, show (1#64).toNat = 1 from rfl]
  omega

/-- Setting bit 0 changes nothing above it. -/
theorem or_one_div_two_pow (x : U64) (n : Nat) : (x ||| 1#64).toNat / 2 ^ (n + 1) = x.toNat / 2 ^ (n + 1) := by
  rw [pow_succ', ← Nat.div_div_eq_div_mul, ← Nat.div_div_eq_div_mul, or_one_toNat]
  congr 1
  omega

theorem lsbForLevel_eq_twoPow (lvl : Nat) : lsbForLevel lvl = BitVec.twoPow 64 (2 * (30 - lvl)) :=
  (BitVec.twoPow_eq _ _).symm

/-- The negative of a power of two masks out the bits below that power. -/
theorem getLsbD_neg_twoPow {n i : Nat} (hn : n < 64) (hi : i < 64) : (-BitVec.twoPow 64 n).getLsbD i = decide (n ≤ i) := by
  simp only [BitVec.getLsbD_neg, BitVec.getLsbD_twoPow, hn, hi, decide_true, Bool.true_and, decide_eq_true_eq]
  rcases lt_trichotomy i n with h | rfl | h
  · simp [h.ne', h.not_ge, h.le]
  · simp
  · simp [h.ne, h.le, h]

/-- The parent at a level keeps the bits above that level's lowest set bit (R186). -/
theorem parent_toNat (x : U64) (lvl : Nat) :
    (parent x lvl).toNat = (2 * (x.toNat / 2 ^ (2 * (30 - lvl) + 1)) + 1) * 2 ^ (2 * (30 - lvl)) := by
  have hn : 2 * (30 - lvl) < 64 := by omega
  refine Nat.eq_of_testBit_eq fun i => ?_
  rw [testBit_odd_mul_two_pow, Nat.testBit_div_two_pow, parent, lsbForLevel_eq_twoPow, BitVec.testBit_toNat,
    BitVec.getLsbD_or, BitVec.getLsbD_and, BitVec.getLsbD_twoPow, BitVec.testBit_toNat]
  by_cases hi : i < 64
  · rw [getLsbD_neg_twoPow hn hi]
    rcases lt_trichotomy i (2 * (30 - lvl)) with h | rfl | h
    · simp [h.ne, h.ne', h.not_ge, h.not_gt]
    · simp [hn]
    · simp [h.ne, h.ne', h.le, h, show i - 2 * (30 - lvl) - 1 + (2 * (30 - lvl) + 1) = i by omega]
  · simp [BitVec.getLsbD_of_ge, not_lt.1 hi, show 2 * (30 - lvl) ≠ i by omega, show i ≠ 2 * (30 - lvl) by omega,
      show 64 ≤ i - 2 * (30 - lvl) - 1 + (2 * (30 - lvl) + 1) by omega]

/-- The 4^L cells of a level and the gap that a cell takes make up one face (R201). -/
theorem cell_gaps_fill_face {lvl : Nat} (h : lvl ≤ 30) : 2 ^ (2 * (30 - lvl) + 1) * 4 ^ lvl = 2 ^ 61 := by
  rw [← cells_fill_face h, pow_succ]
  ring

/-- The parent at a level of a number on one of the six faces is the cell whose index is what the level keeps of it. -/
theorem cellIndex_parent {x : U64} {lvl : Nat} (hlvl : lvl ≤ 30) (hx : x.toNat < 6 * 2 ^ 61) :
    CellIndex (parent x lvl) lvl (x.toNat / 2 ^ (2 * (30 - lvl) + 1)) := by
  refine ⟨hlvl, Nat.div_lt_of_lt_mul (hx.trans_eq ?_), parent_toNat x lvl⟩
  rw [← cell_gaps_fill_face hlvl]
  ring

/-- A cell's index is what its level keeps of the id. -/
theorem CellIndex.div_two_pow {x : U64} {lvl m : Nat} (h : CellIndex x lvl m) :
    x.toNat / 2 ^ (2 * (30 - lvl) + 1) = m := by
  rw [h.toNat_eq, pow_succ', Nat.mul_div_mul_right _ _ (Nat.two_pow_pos _)]
  omega

theorem CellIndex.faceField_eq {x : U64} {lvl m : Nat} (h : CellIndex x lvl m) : faceField x = m / 4 ^ lvl := by
  rw [Machine.faceField_eq, ← cell_gaps_fill_face h.level_le, ← Nat.div_div_eq_div_mul, h.div_two_pow]

/-! ## A face and a position -/

/-- A face and a position as one number (R159). -/
theorem faceBits_add_toNat {face : Nat} (hface : face < 6) {p : U64} (hp : p.toNat < 2 ^ 61) :
    (faceBits face + p).toNat = face * 2 ^ 61 + p.toNat := by
  have hbits : (faceBits face).toNat = face * 2 ^ 61 := by
    rw [faceBits, wordOfNat, BitVec.toNat_shiftLeft, BitVec.toNat_ofNat]
    omega
  rw [BitVec.toNat_add, hbits]
  omega

theorem exec_fromFacePosLevel {s : State} {face lvl : Nat} (hface : face < 6) (hlvl : lvl ≤ 30) (hp : s.opa.toNat < 2 ^ 61) :
    exec (.fromFacePosLevel face lvl) s = .next (replied s .ok [parent ((faceBits face + s.opa) ||| 1#64) lvl]) := by
  simp only [exec, execFromFacePosLevel, requireFace_of_lt _ hface, requireLevel_of_le _ hlvl]
  exact respond_requireInput_of_true (decide_eq_true hp) s _

/-- Settles O41: the answer is the cell whose index is what the level keeps of the face and the position. -/
theorem fromFacePosLevelTruncates : Obligations.FromFacePosLevelTruncates := by
  intro s face lvl hface hlvl hp
  have hsum := faceBits_add_toNat hface hp
  have hlt : ((faceBits face + s.opa) ||| 1#64).toNat < 6 * 2 ^ 61 := by rw [or_one_toNat]; omega
  have hcell := cellIndex_parent hlvl hlt
  rw [or_one_div_two_pow, hsum] at hcell
  refine ⟨_, exec_fromFacePosLevel hface hlvl hp, hcell.isCellAt, ?_, hcell.div_two_pow⟩
  rw [hcell.faceField_eq, Nat.div_div_eq_div_mul, cell_gaps_fill_face hlvl]
  omega

/-! ## Face cells and the ends of a level -/

theorem ofNat_add_lsbForLevel (n lvl : Nat) :
    BitVec.ofNat 64 n + lsbForLevel lvl = BitVec.ofNat 64 (n + 2 ^ (2 * (30 - lvl))) := by
  have hpow : BitVec.twoPow 64 (2 * (30 - lvl)) = BitVec.ofNat 64 (2 ^ (2 * (30 - lvl))) :=
    BitVec.eq_of_toNat_eq (by rw [BitVec.toNat_twoPow, BitVec.toNat_ofNat])
  rw [lsbForLevel_eq_twoPow, hpow, BitVec.ofNat_add]

theorem faceCell_eq {face : Nat} (hface : face < 6) : faceCell face = BitVec.ofNat 64 (face * 2 ^ 61 + 2 ^ 60) := by
  interval_cases face <;> rfl

/-- Settles O42: the subtree of face 0 starts at the number 0, that of face 5 ends at 6 · 2^61. -/
theorem faceBeginAndEndAnswerTheirIds : Obligations.FaceBeginAndEndAnswerTheirIds := by
  intro s face lvl hface hlvl
  have hstart : faceCell 0 - lsb (faceCell 0) = BitVec.ofNat 64 0 := by decide
  have hend : faceCell 5 + lsb (faceCell 5) = BitVec.ofNat 64 0xC000000000000000 := by decide
  refine ⟨?_, ?_, ?_⟩
  · simp only [exec, execFromFace, requireFace_of_lt _ hface, faceCell_eq hface]; rfl
  · simp only [exec, execBeginAt, requireLevel_of_le _ hlvl, childBeginAt, hstart, ofNat_add_lsbForLevel, zero_add]; rfl
  · simp only [exec, execEndAt, requireLevel_of_le _ hlvl, childEndAt, hend, ofNat_add_lsbForLevel]; rfl

end Sys2Proof.Machine
end

