-- ==== Sys2Proof/Proofs/WrapOnGrid.lean ====
section
/-! SUPPORT. On the grid the way through the cube is the identity: centre, projection and quantization are all exact (R154). -/

namespace Sys2Proof.Machine

open Binary64

/-- On the grid the clamps of R154 do nothing: a coordinate has the centre of its row or column, inside the face. -/
theorem wrapCoordinate_of_onGrid {i : Int} (h0 : 0 ≤ i) (h1 : i < 2 ^ 30) :
    isFinite (wrapCoordinate i) = true ∧ exactValue (wrapCoordinate i) = (2 * (i : ℚ) + 1 - 2 ^ 30) / 2 ^ 30 := by
  obtain ⟨hfin, hvalue⟩ := wrapCoordinate_exact (i := i) (c := i) (by omega)
  have h0' : (0 : ℚ) ≤ i := by exact_mod_cast h0
  have h1' : (i : ℚ) + 1 ≤ 2 ^ 30 := by exact_mod_cast h1
  refine ⟨hfin, ?_⟩
  rw [hvalue, min_eq_right, max_eq_right] <;> linarith

theorem abs_wrapCoordinate_lt_one {i : Int} (h0 : 0 ≤ i) (h1 : i < 2 ^ 30) : |exactValue (wrapCoordinate i)| < 1 := by
  have h0' : (0 : ℚ) ≤ i := by exact_mod_cast h0
  have h1' : (i : ℚ) + 1 ≤ 2 ^ 30 := by exact_mod_cast h1
  rw [(wrapCoordinate_of_onGrid h0 h1).2, abs_lt]
  constructor <;> linarith

/-- Rounding does not change a value that is an integer of 53 bits times a power of two in range. -/
theorem exactValue_of_roundsTo_int {v : ℚ} {r : U64} {n : Int} {e : ℤ} (hn : n.natAbs < 2 ^ 53) (he : -1074 ≤ e)
    (he' : e ≤ 971) (hv : v = n * 2 ^ e) (h : roundsTo (v : ℝ) r) : isFinite r = true ∧ exactValue r = v := by
  obtain ⟨hexact, hvalue⟩ := round_int_exact hn he he'
  rw [hv, ← hvalue] at h ⊢
  exact exactValue_of_roundsTo hexact h

theorem exactValue_half : exactValue half = 1 / 2 := by decide +kernel

/-- The quantization of R154 gives the coordinate of a centre back: both its operations are exact, and `2^30 · s = i + 1/2`. -/
theorem linearToIJ_wrapCoordinate {i : Int} (h0 : 0 ≤ i) (h1 : i < 2 ^ 30) : linearToIJ (wrapCoordinate i) = i := by
  obtain ⟨hfin, hvalue⟩ := wrapCoordinate_of_onGrid h0 h1
  have hbits : (2 * i + 1).natAbs < 2 ^ 53 := by omega
  obtain ⟨hsum, hsumValue⟩ := exactValue_of_roundsTo_int hbits (e := -30) (by omega) (by omega)
    (by rw [hvalue, exactValue_one]; push_cast; ring) (add_finite hfin isFinite_one).1
  obtain ⟨hhalf, hhalfValue⟩ := exactValue_of_roundsTo_int hbits (e := -31) (by omega) (by omega)
    (by rw [hsumValue, hvalue, exactValue_one, exactValue_half]; push_cast; ring)
    (mul_finite (x := half) (by decide) hsum).1
  have hfloor : ⌊(2 : ℚ) ^ 30 * exactValue (mul half (add (wrapCoordinate i) one))⌋ = i := by
    rw [hhalfValue, hsumValue, hvalue, exactValue_one, exactValue_half, Int.floor_eq_iff]
    constructor <;> ring_nf <;> linarith
  rw [linearToIJ, stToIJ_finite hhalf, hfloor]
  omega

/-- On the grid the point that R154 projects out comes back to its own face and coordinates. -/
theorem fromFaceIJWrap_of_onGrid (rd : TableReader) {face : Nat} (hface : face < 6) {i j : Int} (hi0 : 0 ≤ i)
    (hi : i < 2 ^ 30) (hj0 : 0 ≤ j) (hj : j < 2 ^ 30) : fromFaceIJWrap rd face i j = fromFaceIJ rd face i j := by
  have hproj : xyzToFaceUV (faceUVToXYZ face (wrapCoordinate i) (wrapCoordinate j)) =
      ⟨face, wrapCoordinate i, wrapCoordinate j⟩ :=
    projectionRoundTripIsExact face _ _ hface (wrapCoordinate_of_onGrid hi0 hi).1 (wrapCoordinate_of_onGrid hj0 hj).1
      (abs_wrapCoordinate_lt_one hi0 hi) (abs_wrapCoordinate_lt_one hj0 hj)
  rw [fromFaceIJWrap, hproj, linearToIJ_wrapCoordinate hi0 hi, linearToIJ_wrapCoordinate hj0 hj]

/-- Settles O39: the words are equal whatever the tables hold, and the grid check of FROM_FACE_IJ passes. -/
theorem wrapAgreesOnTheGrid : Obligations.WrapAgreesOnTheGrid := by
  intro s face hface hi0 hi hj0 hj
  have hgrid : ∀ r, requireGrid (asI64 s.opa) (asI64 s.opb) r = r :=
    requireGrid_of_onGrid ((onGrid_iff _).2 ⟨hi0, hi⟩) ((onGrid_iff _).2 ⟨hj0, hj⟩)
  have hword : fromFaceIJWrap s.tblRead face (asI64 s.opa) (asI64 s.opb) =
      fromFaceIJ s.tblRead face (asI64 s.opa) (asI64 s.opb) := fromFaceIJWrap_of_onGrid _ hface hi0 hi hj0 hj
  simp only [exec, execFromFaceIjWrap, execFromFaceIj, hgrid, hword]

end Sys2Proof.Machine
end

