-- ==== Sys2Proof/Proofs/LeafDecode.lean ====
section
/-! SUPPORT. Every id with bit 0 set is a leaf of its face, the de-interleave leads from it to its grid point, and the correction
of the swap bit leads from the leaf's orientation to the cell's; the statement about TO_FACE_IJO (R135, R136, R152, R153). -/

namespace Sys2Proof.Machine

/-! ## Levels of the curve -/

/-- One level of the interleave appends a pair to the position, and the pair alone turns the orientation (R136). -/
theorem encodeBit_eq (i j : Int) {P : U64} {n : Nat} (h : ShiftRoom 2 (n + 1) P) (o : Orientation) (b : Nat) :
    ∃ (p : BitVec 2) (P' : U64), encodeBit i j (P, o) b = (P', o ^^^ posToOrientation p) ∧
      P'.toNat = 4 * P.toNat + p.toNat ∧ ShiftRoom 2 n P' := by
  obtain ⟨hval, hroom⟩ := h.shift_in
    (ijToPos o ((BitVec.ofInt 32 i).extractLsb' b 1 ++ (BitVec.ofInt 32 j).extractLsb' b 1)).isLt
  refine ⟨_, _, rfl, ?_, hroom⟩
  rw [hval, Nat.shiftLeft_eq, mul_comm]

/-- Later levels write below the position they start from. -/
theorem foldl_encodeBit_div (i j : Int) (bits : List Nat) {P : U64} {n : Nat} (h : ShiftRoom 2 (bits.length + n) P)
    (o : Orientation) :
    (bits.foldl (encodeBit i j) (P, o)).1.toNat / 4 ^ bits.length = P.toNat ∧
    ShiftRoom 2 n (bits.foldl (encodeBit i j) (P, o)).1 := by
  induction bits generalizing P o with
  | nil => simpa using h
  | cons b bits ih =>
    rw [List.length_cons, add_right_comm] at h
    obtain ⟨p, P', hbit, hP', hroom⟩ := encodeBit_eq i j h o b
    obtain ⟨hdiv, hleft⟩ := ih hroom (o ^^^ posToOrientation p)
    rw [List.foldl_cons, hbit, List.length_cons, pow_succ, ← Nat.div_div_eq_div_mul, hdiv]
    exact ⟨by omega, hleft⟩

/-- The first of several levels appends the pair that the final position has there. -/
theorem encodeBit_eq_of_foldl (i j : Int) {b : Nat} {bits : List Nat} {P : U64} {q : Nat}
    (h : ShiftRoom 2 (bits.length + 1) P) {o : Orientation}
    (hfinal : ((b :: bits).foldl (encodeBit i j) (P, o)).1.toNat = q * 4 ^ bits.length) :
    ∃ P' : U64, encodeBit i j (P, o) b = (P', o ^^^ posToOrientation (BitVec.ofNat 2 q)) ∧ P'.toNat = q ∧
      ShiftRoom 2 bits.length P' := by
  obtain ⟨p, P', hbit, hP', hroom⟩ := encodeBit_eq i j h o b
  obtain ⟨hdiv, -⟩ := foldl_encodeBit_div i j bits (n := 0) hroom (o ^^^ posToOrientation p)
  rw [List.foldl_cons, hbit] at hfinal
  obtain rfl : P'.toNat = q := by rw [← hdiv, hfinal, Nat.mul_div_cancel _ (by positivity)]
  have hp : BitVec.ofNat 2 P'.toNat = p := BitVec.eq_of_toNat_eq (by rw [BitVec.toNat_ofNat]; omega)
  exact ⟨P', by rw [hp, hbit], rfl, hroom⟩

/-- Levels whose pairs are all 0 swap the axes one after another. -/
theorem foldl_encodeBit_zero_pairs (i j : Int) (bits : List Nat) {P : U64} (h : ShiftRoom 2 bits.length P) (o : Orientation)
    (hzero : (bits.foldl (encodeBit i j) (P, o)).1.toNat = P.toNat * 4 ^ bits.length) :
    (bits.foldl (encodeBit i j) (P, o)).2 = if bits.length % 2 = 1 then o ^^^ Config.swapMask else o := by
  induction bits generalizing P o with
  | nil => rfl
  | cons b bits ih =>
    rw [List.length_cons, pow_succ', ← mul_assoc] at hzero
    obtain ⟨P', hbit, hP', hroom⟩ := encodeBit_eq_of_foldl i j h hzero
    have hpair : BitVec.ofNat 2 (P.toNat * 4) = 0#2 := BitVec.eq_of_toNat_eq (Nat.mul_mod_left P.toNat 4)
    rw [hpair, show posToOrientation 0#2 = Config.swapMask from rfl] at hbit
    rw [List.foldl_cons, hbit, ← hP'] at hzero
    rw [List.foldl_cons, hbit, ih hroom _ hzero, List.length_cons]
    rcases Nat.mod_two_eq_zero_or_one bits.length with heven | hodd
    · simp [heven, Nat.succ_mod_two_eq_one_iff]
    · simp [hodd, Nat.succ_mod_two_eq_one_iff]

/-- A pair 2 keeps the orientation, and the pairs 0 after it swap the axes one after another. -/
theorem foldl_encodeBit_two_zero_pairs (i j : Int) (b : Nat) (bits : List Nat) {P : U64} {q : Nat}
    (h : ShiftRoom 2 (bits.length + 1) P) (o : Orientation)
    (hfinal : ((b :: bits).foldl (encodeBit i j) (P, o)).1.toNat = q * 4 ^ bits.length) (hq : q % 4 = 2) :
    ((b :: bits).foldl (encodeBit i j) (P, o)).2 = if bits.length % 2 = 1 then o ^^^ Config.swapMask else o := by
  obtain ⟨P', hbit, rfl, hroom⟩ := encodeBit_eq_of_foldl i j h hfinal
  have hpair : BitVec.ofNat 2 P'.toNat = 2#2 := BitVec.eq_of_toNat_eq hq
  rw [hpair, show posToOrientation 2#2 = 0#2 from rfl, BitVec.xor_zero] at hbit
  rw [List.foldl_cons, hbit] at hfinal ⊢
  exact foldl_encodeBit_zero_pairs i j bits hroom o hfinal

/-! ## The orientation inside a cell -/

/-- The correction of R152 swaps where the lowest set bit is at a place 4, 8, …, 60. -/
theorem fixOrientation_of_odd {x : U64} {m n : Nat} (h : x.toNat = (2 * m + 1) * 2 ^ n) (o : Orientation) :
    fixOrientation x o = if n % 4 = 0 ∧ n ≠ 0 then o ^^^ Config.swapMask else o := by
  obtain ⟨hlsb, hn⟩ := lsb_of_odd h
  have htwoPow : lsb x = BitVec.twoPow 64 n := by
    apply BitVec.eq_of_toNat_eq
    rw [hlsb, BitVec.toNat_twoPow, Nat.mod_eq_of_lt (Nat.pow_lt_pow_right (by decide) hn)]
  have hmask : ∀ n < 64, (BitVec.twoPow 64 n &&& Config.orientFixMask != 0#64) = decide (n % 4 = 0 ∧ n ≠ 0) := by decide
  rw [fixOrientation, htwoPow, hmask n hn]
  simp only [decide_eq_true_eq]

/-- The orientation that the curve has after the first `lvl` levels on the way to a grid point (R136). -/
def orientationAt (face : Nat) (i j : Int) (lvl : Nat) : Orientation :=
  (((List.range 30).reverse.take lvl).foldl (encodeBit i j) (0#64, faceOrientation face)).2

/-- Where the levels below `lvl` are at pair 2 and then at pairs 0, an even number of pairs 0 keeps the orientation. -/
theorem orientationAt_thirty {face lvl r q : Nat} (i j : Int) (hr : lvl + r + 1 = 30)
    (hposition : (bitSerialEncode face i j).toNat = q * 4 ^ r) (hq : q % 4 = 2) :
    orientationAt face i j 30 =
      if r % 2 = 1 then orientationAt face i j lvl ^^^ Config.swapMask else orientationAt face i j lvl := by
  obtain ⟨b, bits, hdrop⟩ : ∃ b bits, (List.range 30).reverse.drop lvl = b :: bits :=
    List.exists_cons_of_length_pos (by simp; omega)
  obtain rfl : bits.length = r := by have := congrArg List.length hdrop; simp at this; omega
  have hsplit : (List.range 30).reverse = (List.range 30).reverse.take lvl ++ b :: bits := by
    rw [← hdrop, List.take_append_drop]
  obtain ⟨-, hroom⟩ := foldl_encodeBit_div i j ((List.range 30).reverse.take lvl) (P := 0#64) (n := bits.length + 1)
    (shiftRoom_zero (by simp; omega)) (faceOrientation face)
  rw [bitSerialEncode, hsplit, List.foldl_append] at hposition
  have hturn := foldl_encodeBit_two_zero_pairs i j b bits hroom _ hposition hq
  rw [← List.foldl_append, ← hsplit] at hturn
  exact hturn

/-- An id as its face and its index on the face (R24, R26). -/
theorem CellIndex.toNat_eq_face_add {x : U64} {lvl m : Nat} (h : CellIndex x lvl m) :
    x.toNat = faceField x * 2 ^ 61 + (2 * (m % 4 ^ lvl) + 1) * 2 ^ (2 * (30 - lvl)) := by
  have hlayout := layout_eq h.level_le (m / 4 ^ lvl) (m % 4 ^ lvl)
  rw [Nat.div_add_mod, ← h.toNat_eq, ← h.faceField_eq, pow_succ] at hlayout
  rw [← hlayout]
  ring

/-- Below the cell's own levels the position of the leaf `x | 1` has pair 2, then pairs 0. -/
theorem CellIndex.leaf_position {x : U64} {lvl m r P : Nat} (h : CellIndex x lvl m) (hr : lvl + r + 1 = 30)
    (hleaf : (x ||| 1#64).toNat = faceField x * 2 ^ 61 + 2 * P + 1) : P = (4 * (m % 4 ^ lvl) + 2) * 4 ^ r := by
  have hpow : 2 ^ (2 * (30 - lvl)) = 4 * 4 ^ r := by
    rw [show 30 - lvl = r + 1 by omega, pow_mul, pow_succ']; rfl
  have hx := h.toNat_eq_face_add
  rw [hpow, show (2 * (m % 4 ^ lvl) + 1) * (4 * 4 ^ r) = 2 * ((4 * (m % 4 ^ lvl) + 2) * 4 ^ r) by ring] at hx
  rw [or_one_toNat] at hleaf
  omega

/-- Once corrected, the orientation at the leaf `x | 1` is the one after the cell's own levels (R152). -/
theorem fixOrientation_orientationAt {x : U64} {lvl m : Nat} {i j : Int} (hcell : CellIndex x lvl m)
    (hleaf : leafAt (faceField x) i j = x ||| 1#64) :
    fixOrientation x (orientationAt (faceField x) i j 30) = orientationAt (faceField x) i j lvl := by
  have hface := faceField_lt_of_valid hcell.isCellAt.1
  rw [fixOrientation_of_odd hcell.toNat_eq]
  obtain rfl | hlt := hcell.level_le.eq_or_lt
  · rfl
  obtain ⟨r, hr⟩ : ∃ r, lvl + r + 1 = 30 := ⟨29 - lvl, by omega⟩
  have hposition := hcell.leaf_position hr (hleaf ▸ leafAt_toNat hface i j)
  have hplace : (2 * (30 - lvl) % 4 = 0 ∧ 2 * (30 - lvl) ≠ 0) ↔ r % 2 = 1 := by omega
  rw [orientationAt_thirty i j hr hposition (by omega)]
  simp only [hplace]
  split_ifs
  · rw [BitVec.xor_assoc, BitVec.xor_self, BitVec.xor_zero]
  · rfl

/-! ## The leaf of an id -/

/-- The de-interleave leads back from a leaf to its grid point, so no other grid point has the same position. -/
theorem bitSerialEncode_inj {face : Nat} (hface : face < 6) {i j i' j' : Nat} (hi : i < 2 ^ 30) (hj : j < 2 ^ 30)
    (hi' : i' < 2 ^ 30) (hj' : j' < 2 ^ 30) (h : bitSerialEncode face i j = bitSerialEncode face i' j') :
    i = i' ∧ j = j' := by
  have hleaf : leafAt face i j = leafAt face i' j' := by rw [leafAt, leafAt, h]
  obtain ⟨hdi, hdj⟩ := hilbertDecode_leafAt hface (i := i) (j := j) (by omega) (by omega) (by omega) (by omega)
  obtain ⟨hdi', hdj'⟩ := hilbertDecode_leafAt hface (i := i') (j := j') (by omega) (by omega) (by omega) (by omega)
  rw [hleaf] at hdi hdj
  omega

/-- The position on the curve of a grid point of a face (R136). -/
def gridPosition (face : Nat) (c : Fin (2 ^ 30) × Fin (2 ^ 30)) : Fin (2 ^ 60) :=
  ⟨(bitSerialEncode face c.1.val c.2.val).toNat, bitSerialEncode_lt face _ _⟩

theorem gridPosition_val (face : Nat) (c : Fin (2 ^ 30) × Fin (2 ^ 30)) :
    (gridPosition face c).val = (bitSerialEncode face c.1.val c.2.val).toNat := rfl

theorem gridPosition_injective {face : Nat} (hface : face < 6) : Function.Injective (gridPosition face) := by
  rintro ⟨i, j⟩ ⟨i', j'⟩ heq
  have hpos := congrArg Fin.val heq
  rw [gridPosition_val, gridPosition_val] at hpos
  obtain ⟨hi, hj⟩ := bitSerialEncode_inj hface i.isLt j.isLt i'.isLt j'.isLt (BitVec.eq_of_toNat_eq hpos)
  exact Prod.ext (Fin.ext hi) (Fin.ext hj)

/-- The 2^30 · 2^30 grid points of a face take a position each, so they take all 2^60. -/
theorem gridPosition_surjective {face : Nat} (hface : face < 6) : Function.Surjective (gridPosition face) := by
  have hcard : Nat.card (Fin (2 ^ 60)) ≤ Nat.card (Fin (2 ^ 30) × Fin (2 ^ 30)) := by
    rw [Nat.card_prod, Nat.card_fin, Nat.card_fin]; norm_num
  exact ((gridPosition_injective hface).bijective_of_nat_card_le hcard).surjective

/-- With bit 0 set, an id on a face is the leaf of a grid point. -/
theorem exists_leafAt_eq_or_one {x : U64} (hface : faceField x < 6) :
    ∃ i j : Int, 0 ≤ i ∧ i < 2 ^ 30 ∧ 0 ≤ j ∧ j < 2 ^ 30 ∧ leafAt (faceField x) i j = x ||| 1#64 := by
  obtain ⟨⟨i, j⟩, hpos⟩ := gridPosition_surjective hface ⟨x.toNat % 2 ^ 61 / 2, by omega⟩
  have hvalue : (bitSerialEncode (faceField x) i.val j.val).toNat = x.toNat % 2 ^ 61 / 2 :=
    (gridPosition_val (faceField x) (i, j)).symm.trans (congrArg Fin.val hpos)
  refine ⟨i.val, j.val, by omega, by omega, by omega, by omega, BitVec.eq_of_toNat_eq ?_⟩
  rw [leafAt_toNat hface, hvalue, or_one_toNat, faceField_eq]
  omega

/-! ## Decoding an id -/

theorem positionChunk_or_one (x : U64) (k : Nat) : positionChunk (x ||| 1#64) k = positionChunk x k := by
  have hextract (n len : Nat) : (x ||| 1#64).extractLsb' (n + 1) len = x.extractLsb' (n + 1) len := by
    apply BitVec.eq_of_toNat_eq
    rw [BitVec.extractLsb'_toNat, BitVec.extractLsb'_toNat, Nat.shiftRight_eq_div_pow, Nat.shiftRight_eq_div_pow,
      or_one_div_two_pow]
  rw [positionChunk, hextract 56, hextract, positionChunk]

theorem faceField_or_one (x : U64) : faceField (x ||| 1#64) = faceField x := by
  rw [faceField_eq, faceField_eq]
  exact or_one_div_two_pow x 60

/-- The de-interleave does not read bit 0 (R135). -/
theorem hilbertDecode_or_one (rd : TableReader) (x : U64) : hilbertDecode rd (x ||| 1#64) = hilbertDecode rd x := by
  have hchunk : decodeChunk rd (x ||| 1#64) = decodeChunk rd x := by
    funext acc k
    rw [decodeChunk, positionChunk_or_one, decodeChunk]
  rw [hilbertDecode, hilbertDecode, hchunk, faceField_or_one]

/-- The interleave ends in the orientation of the bit-serial one. -/
theorem foldl_encodeChunk_orientation (face : Nat) {i j : Int} (hi0 : 0 ≤ i) (hi : i < 2 ^ 30) (hj0 : 0 ≤ j)
    (hj : j < 2 ^ 30) :
    ((List.range 8).reverse.foldl (encodeChunk generatedEntry i j) (0#64 <<< (8 * 8), faceOrientation face)).2 =
      orientationAt face i j 30 := by
  have hlevels : (List.range (4 * 8)).reverse = [31, 30] ++ (List.range 30).reverse := by decide
  rw [foldl_encodeChunk_eq i j 8, hlevels, List.foldl_append, foldl_encodeBit_top hi0 hi hj0 hj]
  rfl

theorem hilbertDecode_leafAt_orientation {face : Nat} (hface : face < 6) {i j : Int} (hi0 : 0 ≤ i) (hi : i < 2 ^ 30)
    (hj0 : 0 ≤ j) (hj : j < 2 ^ 30) :
    (hilbertDecode generatedEntry (leafAt face i j)).2.2 = orientationAt face i j 30 := by
  have hencode := hilbertEncode_eq_bitSerialEncode hi0 hi hj0 hj face
  rw [← foldl_encodeChunk_orientation face hi0 hi hj0 hj]
  lift i to ℕ using hi0
  lift j to ℕ using hj0
  have hdecode := foldl_decodeChunk_eq (x := leafAt face i j) (P := 0#64) (o := faceOrientation face) (by exact_mod_cast hi)
    (by exact_mod_cast hj) (le_refl 8) rfl (fun k hk => by rw [positionChunk_leafAt hface _ _ hk, ← hencode]; rfl) 0 0
  rw [hilbertDecode, faceField_leafAt hface]
  exact congrArg (·.2.2) hdecode

/-- Settles O27: the coordinates are those of the leaf `x | 1`, which the de-interleave reads instead of x, and the
correction takes back the swaps below the cell. -/
theorem toFaceIjoInvertsTheLeaf : Obligations.ToFaceIjoInvertsTheLeaf := by
  intro s hop hvalid
  obtain ⟨m, hcell⟩ := exists_cellIndex ⟨hvalid, rfl⟩
  have hface := faceField_lt_of_valid hvalid
  obtain ⟨i, j, hi0, hi, hj0, hj, hleaf⟩ := exists_leafAt_eq_or_one hface
  obtain ⟨hdi, hdj⟩ := hilbertDecode_leafAt hface hi0 hi hj0 hj
  have hdo := hilbertDecode_leafAt_orientation hface hi0 hi hj0 hj
  rw [hleaf, hilbertDecode_or_one] at hdi hdj hdo
  refine ⟨i, j, _, ?_, hi0, hi, hj0, hj, hleaf, rfl⟩
  simp only [exec, execToFaceIjo, requireCell_of_valid _ hvalid, toFaceIJO, tblRead_eq_generatedEntry hop, hdi, hdj, hdo,
    fixOrientation_orientationAt hcell hleaf]
  rfl

end Sys2Proof.Machine
end

