-- ==== Sys2Proof/Proofs/NavigatorChecks.lean ====
section
/-! SUPPORT. The checks of the commands on a cell (R180, R186 to R200, R263): one that fails answers its status, and each command
whose checks hold answers the word of its function; and the statements that need no more than the checks. -/

namespace Sys2Proof.Machine

/-! ## Accessors -/

theorem wordOfNat_faceField (x : U64) : wordOfNat (faceField x) = x >>> 61 := by
  rw [wordOfNat, faceField, BitVec.ofNat_toNat, BitVec.setWidth_eq]

/-- Settles O43: the three commands check nothing. -/
theorem accessorsReadTheRawFields : Obligations.AccessorsReadTheRawFields := by
  intro s
  refine ⟨?_, rfl, rfl⟩
  rw [← wordOfNat_faceField]
  rfl

/-! ## Checks that fail -/

theorem respond_requireCell_of_not_valid {x : U64} (h : valid x = false) (s : State) (r : InFlight) :
    s.respond (requireCell x r) = .next (replied s .invalidCell []) := by
  rw [requireCell, h, require_false, State.respond_eq, State.beginResponse_failWith]

/-- Every command whose OPA is an id checks it before anything else (R263 step 3). -/
theorem exec_of_takesCell {i : Instr} (h : takesCell i = true) (s : State) :
    ∃ r, exec i s = s.respond (requireCell s.opa r) := by
  cases i with
  | toFaceIjo | levelOf | parent | immParent | child | children | childBegin | childEnd | childBeginAt | childEndAt
  | nextCell | advance | rangeMin | rangeMax | contains | intersects | childPosition | edgeNbrs | vertexNbrs
  | allNbrs => exact ⟨_, rfl⟩
  | _ => cases h

/-- Settles O19: the check of OPA comes first, and that of OPB fails with the same status. -/
theorem invalidIdAnswersInvalidCell : Obligations.InvalidIdAnswersInvalidCell := by
  refine ⟨fun i s hcell hopa => ?_, fun s hopb => ?_⟩
  · obtain ⟨r, hexec⟩ := exec_of_takesCell hcell s
    rw [hexec, respond_requireCell_of_not_valid hopa]
  · have hboth (r : InFlight) :
        s.respond (requireCell s.opa (requireCell s.opb r)) = .next (replied s .invalidCell []) := by
      cases hopa : valid s.opa with
      | false => exact respond_requireCell_of_not_valid hopa s _
      | true =>
        rw [requireCell_of_valid _ hopa]
        exact respond_requireCell_of_not_valid hopb s r
    exact ⟨hboth _, hboth _⟩

theorem requireRelation_of_false {c : Bool} (h : c = false) (r : InFlight) :
    requireRelation c r = failWith .invalidLevel := by rw [h]; rfl

theorem requireParentCell_of_leaf {x : U64} (hvalid : valid x = true) (h : level x = 30) (r : InFlight) :
    requireParentCell x r = failWith .invalidLevel := by
  rw [requireParentCell, requireCell_of_valid _ hvalid, h]
  rfl

/-- Settles O22: the id and LVL have passed, and the next check is the level relation of the command. -/
theorem levelRelationAnswersInvalidLevel : Obligations.LevelRelationAnswersInvalidLevel := by
  intro s lvl hvalid hlvl
  have hrelation {c : Bool} (hc : c = false) (r : InFlight) :
      s.respond (requireCell s.opa (requireLevel lvl (requireRelation c r))) = .next (replied s .invalidLevel []) := by
    rw [requireCell_of_valid _ hvalid, requireLevel_of_le _ hlvl, requireRelation_of_false hc]
    rfl
  have hleaf (h : level s.opa = 30) (r : InFlight) :
      s.respond (requireParentCell s.opa r) = .next (replied s .invalidLevel []) := by
    rw [requireParentCell_of_leaf hvalid h]
    rfl
  have hcoarser (h : lvl < level s.opa) (r : InFlight) := hrelation (decide_eq_false (not_le.2 h)) r
  refine ⟨fun h => hrelation (decide_eq_false (not_le.2 h)) _, fun h => ?_,
    fun h => ⟨fun _ => hleaf h _, hleaf h _, hleaf h _, hleaf h _⟩,
    fun h => ⟨hcoarser h _, hcoarser h _, hcoarser h _⟩, fun h => hrelation ?_ _,
    fun h => hrelation (decide_eq_false (not_lt.2 h)) _⟩
  · have hface : decide (level s.opa ≠ 0) = false := decide_eq_false (not_not.2 h)
    simp only [exec, execImmParent, requireCell_of_valid _ hvalid, requireRelation_of_false hface]
    rfl
  · rw [← Bool.decide_and]
    exact decide_eq_false (by omega)

/-! ## Checks that hold -/

theorem level_le (x : U64) : level x ≤ 30 := Nat.sub_le _ _

/-- A command on a valid id with no further check. -/
theorem respond_requireCell_of_valid {x : U64} (h : valid x = true) (s : State) (words : List U64) :
    s.respond (requireCell x (okWith words)) = .next (replied s .ok words) := by
  rw [requireCell_of_valid _ h]
  rfl

/-- A command on a valid id with a level and a relation that holds. -/
theorem respond_requireLevel_of_relation {x : U64} {lvl : Nat} {c : Bool} (hvalid : valid x = true) (hlvl : lvl ≤ 30)
    (hc : c = true) (s : State) (words : List U64) :
    s.respond (requireCell x (requireLevel lvl (requireRelation c (okWith words)))) = .next (replied s .ok words) := by
  rw [requireCell_of_valid _ hvalid, requireLevel_of_le _ hlvl, hc]
  rfl

/-- A command on the children of a valid cell that has some. -/
theorem respond_requireParentCell {x : U64} (hvalid : valid x = true) (h : level x < 30) (s : State) (words : List U64) :
    s.respond (requireParentCell x (okWith words)) = .next (replied s .ok words) := by
  rw [requireParentCell, requireCell_of_valid _ hvalid, requireRelation,
    decide_eq_true (show level x < Config.maxLevel from h)]
  rfl

section Commands

variable {s : State} (hvalid : valid s.opa = true)
include hvalid

theorem exec_parent {lvl : Nat} (h : lvl ≤ level s.opa) :
    exec (.parent lvl) s = .next (replied s .ok [parent s.opa lvl]) :=
  respond_requireLevel_of_relation hvalid (h.trans (level_le _)) (decide_eq_true h) s _

theorem exec_immParent (h : level s.opa ≠ 0) : exec .immParent s = .next (replied s .ok [immediateParent s.opa]) := by
  simp only [exec, execImmParent, requireRelation, decide_eq_true h, require_true]
  exact respond_requireCell_of_valid hvalid s _

theorem exec_child (h : level s.opa < 30) (p : Nat) : exec (.child p) s = .next (replied s .ok [child s.opa p]) :=
  respond_requireParentCell hvalid h s _

theorem exec_childBegin (h : level s.opa < 30) : exec .childBegin s = .next (replied s .ok [childBegin s.opa]) :=
  respond_requireParentCell hvalid h s _

theorem exec_childEnd (h : level s.opa < 30) : exec .childEnd s = .next (replied s .ok [childEnd s.opa]) :=
  respond_requireParentCell hvalid h s _

theorem exec_childBeginAt {lvl : Nat} (h : level s.opa ≤ lvl) (hlvl : lvl ≤ 30) :
    exec (.childBeginAt lvl) s = .next (replied s .ok [childBeginAt s.opa lvl]) :=
  respond_requireLevel_of_relation hvalid hlvl (decide_eq_true h) s _

theorem exec_childEndAt {lvl : Nat} (h : level s.opa ≤ lvl) (hlvl : lvl ≤ 30) :
    exec (.childEndAt lvl) s = .next (replied s .ok [childEndAt s.opa lvl]) :=
  respond_requireLevel_of_relation hvalid hlvl (decide_eq_true h) s _

theorem exec_nextCell : exec .nextCell s = .next (replied s .ok [nextCell s.opa]) :=
  respond_requireCell_of_valid hvalid s _

theorem exec_advance : exec .advance s = .next (replied s .ok [advance s.opa s.opb.toInt]) :=
  respond_requireCell_of_valid hvalid s _

theorem exec_rangeMin : exec .rangeMin s = .next (replied s .ok [rangeMin s.opa]) :=
  respond_requireCell_of_valid hvalid s _

theorem exec_rangeMax : exec .rangeMax s = .next (replied s .ok [rangeMax s.opa]) :=
  respond_requireCell_of_valid hvalid s _

theorem exec_contains (hopb : valid s.opb = true) :
    exec .contains s = .next (replied s .ok [wordOfBool (contains s.opa s.opb)]) := by
  simp only [exec, execContains, requireCell_of_valid _ hopb]
  exact respond_requireCell_of_valid hvalid s _

theorem exec_intersects (hopb : valid s.opb = true) :
    exec .intersects s = .next (replied s .ok [wordOfBool (intersects s.opa s.opb)]) := by
  simp only [exec, execIntersects, requireCell_of_valid _ hopb]
  exact respond_requireCell_of_valid hvalid s _

theorem exec_childPosition {lvl : Nat} (h0 : lvl ≠ 0) (h : lvl ≤ level s.opa) :
    exec (.childPosition lvl) s = .next (replied s .ok [wordOfNat (childPosition s.opa lvl)]) :=
  respond_requireLevel_of_relation hvalid (h.trans (level_le _)) (by simp [h0, h]) s _

end Commands

end Sys2Proof.Machine
end

