-- ==== Sys2Proof/Proofs/LevelLine.lean ====
section
/-! SUPPORT. The ids of a level in a row, from Begin(L) at place 0 to End(L) at place 6 · 4^L: NEXT, CHILD_BEGIN, CHILD_END and
the same at a level, as places on that line (R190 to R194, R202). -/

namespace Sys2Proof.Machine

/-! ## Places on the line of a level -/

/-- `x` stands at place `m` on the line of its level: the cell of index `m`, or End(L) one past the last (R27, R195). -/
structure LinePlace (x : U64) (lvl m : Nat) : Prop where
  level_le : lvl ≤ 30
  place_le : m ≤ 6 * 4 ^ lvl
  toNat_eq : x.toNat = (2 * m + 1) * 2 ^ (2 * (30 - lvl))

theorem CellIndex.linePlace {x : U64} {lvl m : Nat} (h : CellIndex x lvl m) : LinePlace x lvl m :=
  ⟨h.level_le, h.index_lt.le, h.toNat_eq⟩

theorem LinePlace.unique {x y : U64} {lvl m : Nat} (hx : LinePlace x lvl m) (hy : LinePlace y lvl m) : x = y :=
  BitVec.eq_of_toNat_eq (hx.toNat_eq.trans hy.toNat_eq.symm)

theorem CellIndex.unique {x y : U64} {lvl m : Nat} (hx : CellIndex x lvl m) (hy : CellIndex y lvl m) : x = y :=
  hx.linePlace.unique hy.linePlace

/-- The place 6 · 4^L is the number End(L) (R162). -/
theorem line_end_eq {lvl : Nat} (h : lvl ≤ 30) :
    (2 * (6 * 4 ^ lvl) + 1) * 2 ^ (2 * (30 - lvl)) = 0xC000000000000000 + 2 ^ (2 * (30 - lvl)) := by
  have hfill := cells_fill_face h
  rw [show (2 * (6 * 4 ^ lvl) + 1) * 2 ^ (2 * (30 - lvl)) =
    6 * (2 * (4 ^ lvl * 2 ^ (2 * (30 - lvl)))) + 2 ^ (2 * (30 - lvl)) by ring, hfill]
  rfl

theorem LinePlace.isCellAt_or_end {x : U64} {lvl m : Nat} (h : LinePlace x lvl m) :
    isCellAt x lvl ∨ x.toNat = 0xC000000000000000 + 2 ^ (2 * (30 - lvl)) := by
  obtain ⟨hlvl, hm, hx⟩ := h
  obtain rfl | hlt := hm.eq_or_lt
  · exact .inr (hx.trans (line_end_eq hlvl))
  · exact .inl (CellIndex.isCellAt ⟨hlvl, hlt, hx⟩)

/-- The numbers of a line stay far below 2^64 (R201 (b)). -/
theorem line_lt {lvl m : Nat} (hlvl : lvl ≤ 30) (hm : m ≤ 6 * 4 ^ lvl) :
    (2 * m + 1) * 2 ^ (2 * (30 - lvl)) < 2 ^ 64 := by
  have hle := Nat.mul_le_mul_right (2 ^ (2 * (30 - lvl))) (show 2 * m + 1 ≤ 2 * (6 * 4 ^ lvl) + 1 by omega)
  have hpow : 2 ^ (2 * (30 - lvl)) ≤ 2 ^ 60 := Nat.pow_le_pow_right (by decide) (by omega)
  rw [line_end_eq hlvl] at hle
  omega

/-! ## The subtree of a cell on a finer level -/

theorem lsbForLevel_toNat (lvl : Nat) : (lsbForLevel lvl).toNat = 2 ^ (2 * (30 - lvl)) := by
  rw [lsbForLevel_eq_twoPow, BitVec.toNat_twoPow, Nat.mod_eq_of_lt (Nat.pow_lt_pow_right (by decide) (by omega))]

theorem CellIndex.lsb_eq {x : U64} {lvl m : Nat} (h : CellIndex x lvl m) : lsb x = lsbForLevel lvl :=
  BitVec.eq_of_toNat_eq (by rw [h.lsb_toNat, lsbForLevel_toNat])

theorem CellIndex.level_eq {x : U64} {lvl m : Nat} (h : CellIndex x lvl m) : level x = lvl := h.isCellAt.2

/-- A cell is as wide as 4^(L − l) cells of a finer level L. -/
theorem lsb_finer {lvl fine : Nat} (h : lvl ≤ fine) (hfine : fine ≤ 30) :
    2 ^ (2 * (30 - lvl)) = 4 ^ (fine - lvl) * 2 ^ (2 * (30 - fine)) := by
  rw [show (4 : Nat) = 2 ^ 2 from rfl, ← pow_mul, ← pow_add]
  congr 1
  omega

/-- The places of a level among those of a finer one. -/
theorem finer_place_le {lvl fine m : Nat} (h : lvl ≤ fine) (hm : m ≤ 6 * 4 ^ lvl) :
    m * 4 ^ (fine - lvl) ≤ 6 * 4 ^ fine := by
  calc m * 4 ^ (fine - lvl) ≤ 6 * 4 ^ lvl * 4 ^ (fine - lvl) := Nat.mul_le_mul_right _ hm
    _ = 6 * 4 ^ fine := by rw [mul_assoc, ← pow_add, Nat.add_sub_cancel' h]

/-- A boundary between two cells of a level, and half a cell of that level: the place right after the boundary. -/
theorem linePlace_add_lsbForLevel {b : U64} {lvl m : Nat} (hlvl : lvl ≤ 30) (hm : m ≤ 6 * 4 ^ lvl)
    (hb : b.toNat = 2 * m * 2 ^ (2 * (30 - lvl))) : LinePlace (b + lsbForLevel lvl) lvl m := by
  have hlt := line_lt hlvl hm
  rw [add_mul, one_mul, ← hb] at hlt
  refine ⟨hlvl, hm, ?_⟩
  rw [BitVec.toNat_add, lsbForLevel_toNat, Nat.mod_eq_of_lt hlt, add_mul, one_mul, hb]

theorem CellIndex.sub_lsb_toNat {x : U64} {lvl m : Nat} (h : CellIndex x lvl m) :
    (x - lsb x).toNat = 2 * m * 2 ^ (2 * (30 - lvl)) := by
  have hx := h.toNat_eq
  have hlsb := h.lsb_toNat
  rw [add_mul, one_mul] at hx
  bv_omega

theorem CellIndex.add_lsb_toNat {x : U64} {lvl m : Nat} (h : CellIndex x lvl m) :
    (x + lsb x).toNat = 2 * (m + 1) * 2 ^ (2 * (30 - lvl)) := by
  have hmax := h.rangeMax_toNat
  have hlsb := h.lsb_sub_one_toNat
  have hx := h.toNat_eq
  rw [rangeMax] at hmax
  rw [← hmax]
  have hlt := toNat_lt_of_valid h.isCellAt.1
  have hle : 2 ^ (2 * (30 - lvl)) ≤ 2 ^ 60 := Nat.pow_le_pow_right (by decide) (by omega)
  bv_omega

/-- CHILD_BEGIN_AT answers the first of the 4^(L − l) cells of level L below the cell (R192). -/
theorem CellIndex.childBeginAt {x : U64} {lvl fine m : Nat} (hx : CellIndex x lvl m) (h : lvl ≤ fine) (hfine : fine ≤ 30) :
    CellIndex (childBeginAt x fine) fine (m * 4 ^ (fine - lvl)) := by
  have hend := finer_place_le h (Nat.succ_le_of_lt hx.index_lt)
  have hpos := Nat.pow_pos (n := fine - lvl) (show 0 < 4 by decide)
  rw [Nat.succ_mul] at hend
  have hplace : LinePlace (Machine.childBeginAt x fine) fine (m * 4 ^ (fine - lvl)) :=
    linePlace_add_lsbForLevel hfine (by omega) (by rw [hx.sub_lsb_toNat, lsb_finer h hfine]; ring)
  exact ⟨hfine, by omega, hplace.toNat_eq⟩

/-- CHILD_END_AT answers the place after the last cell of level L below the cell (R193). -/
theorem CellIndex.childEndAt {x : U64} {lvl fine m : Nat} (hx : CellIndex x lvl m) (h : lvl ≤ fine) (hfine : fine ≤ 30) :
    LinePlace (childEndAt x fine) fine ((m + 1) * 4 ^ (fine - lvl)) :=
  linePlace_add_lsbForLevel hfine (finer_place_le h hx.index_lt)
    (by rw [hx.add_lsb_toNat, lsb_finer h hfine]; ring)

/-- NEXT is CHILD_END_AT at the cell's own level (R193, R194). -/
theorem CellIndex.nextCell_eq {x : U64} {lvl m : Nat} (h : CellIndex x lvl m) : nextCell x = Machine.childEndAt x lvl := by
  rw [nextCell, Machine.childEndAt, h.lsb_eq, BitVec.shiftLeft_eq_mul_twoPow]
  bv_omega

/-- NEXT moves one place on (R194). -/
theorem CellIndex.nextCell {x : U64} {lvl m : Nat} (h : CellIndex x lvl m) : LinePlace (nextCell x) lvl (m + 1) := by
  have hplace := h.childEndAt le_rfl h.level_le
  rwa [Nat.sub_self, pow_zero, mul_one, ← h.nextCell_eq] at hplace

/-- Settles O52: the place after a cell is the next cell of the level or its end. -/
theorem nextIsTheSuccessor : Obligations.NextIsTheSuccessor := by
  intro s hvalid
  obtain ⟨m, hm⟩ := exists_cellIndex ⟨hvalid, rfl⟩
  have hnext := hm.nextCell
  refine ⟨_, exec_nextCell hvalid, ?_, hnext.isCellAt_or_end⟩
  rw [hnext.toNat_eq, hm.toNat_eq]
  ring

/-- Settles O51: the subtree's first place on the finer level is at the cell's first leaf, its end after the last leaf. -/
theorem childBeginAtAndEndAtBoundTheSubtree : Obligations.ChildBeginAtAndEndAtBoundTheSubtree := by
  intro s lvl hvalid h hlvl
  obtain ⟨m, hm⟩ := exists_cellIndex ⟨hvalid, rfl⟩
  have hbegin := hm.childBeginAt h hlvl
  have hend := hm.childEndAt h hlvl
  refine ⟨_, _, exec_childBeginAt hvalid h hlvl, exec_childEndAt hvalid h hlvl, hbegin.isCellAt, ?_, ?_, ?_⟩
  · apply BitVec.eq_of_toNat_eq
    rw [hbegin.rangeMin_toNat, hm.rangeMin_toNat, lsb_finer h hlvl]
    ring
  · rw [hend.toNat_eq, hm.rangeMax_toNat, lsb_finer h hlvl]
    ring
  · rintro rfl
    rw [Nat.sub_self, pow_zero, mul_one] at hbegin
    exact ⟨hbegin.unique hm, by rw [exec_nextCell hvalid, hm.nextCell_eq]⟩

/-! ## The children of a cell -/

theorem CellIndex.lsb_ushiftRight_two {x : U64} {lvl m : Nat} (h : CellIndex x lvl m) (hlvl : lvl < 30) :
    lsb x >>> 2 = lsbForLevel (lvl + 1) := by
  apply BitVec.eq_of_toNat_eq
  rw [BitVec.toNat_ushiftRight, h.lsb_toNat, lsbForLevel_toNat, ← four_mul_next_lsb hlvl, Nat.shiftRight_eq_div_pow]
  omega

/-- CHILD_BEGIN is CHILD_BEGIN_AT one level down (R190, R192). -/
theorem CellIndex.childBegin {x : U64} {lvl m : Nat} (h : CellIndex x lvl m) (hlvl : lvl < 30) :
    CellIndex (childBegin x) (lvl + 1) (4 * m) := by
  have hcell := h.childBeginAt (fine := lvl + 1) (by omega) hlvl
  rwa [Machine.childBeginAt, ← h.lsb_ushiftRight_two hlvl, Nat.add_sub_cancel_left, pow_one, mul_comm] at hcell

/-- CHILD_END is CHILD_END_AT one level down (R191, R193). -/
theorem CellIndex.childEnd {x : U64} {lvl m : Nat} (h : CellIndex x lvl m) (hlvl : lvl < 30) :
    LinePlace (childEnd x) (lvl + 1) (4 * m + 4) := by
  have hplace := h.childEndAt (fine := lvl + 1) (by omega) hlvl
  rwa [Machine.childEndAt, ← h.lsb_ushiftRight_two hlvl, Nat.add_sub_cancel_left, pow_one, mul_comm, mul_add] at hplace

/-- Settles O50: the places from 4m to 4m + 4. -/
theorem iterationFromChildBeginReachesChildEnd : Obligations.IterationFromChildBeginReachesChildEnd := by
  intro s hvalid hlvl
  obtain ⟨m, hm⟩ := exists_cellIndex ⟨hvalid, rfl⟩
  have hchild {p : Nat} (hp : p < 4) := hm.child hlvl hp
  have hbegin : childBegin s.opa = child s.opa 0 := (hm.childBegin hlvl).unique (hchild (by decide))
  have hnext {p : Nat} (hp : p + 1 < 4) : nextCell (child s.opa p) = child s.opa (p + 1) :=
    (hchild (by omega)).nextCell.unique (hchild hp).linePlace
  have hend : nextCell (child s.opa 3) = childEnd s.opa := (hchild (by decide)).nextCell.unique (hm.childEnd hlvl)
  have h1 := hnext (p := 0) (by decide)
  have h2 := hnext (p := 1) (by decide)
  have h3 := hnext (p := 2) (by decide)
  refine ⟨_, _, exec_childBegin hvalid hlvl, exec_childEnd hvalid hlvl, hbegin, ?_, ?_, ?_, ?_⟩ <;>
    simp only [hbegin, h1, h2, h3, hend]

end Sys2Proof.Machine
end

