-- ==== Sys2Proof/Proofs/CellAncestors.lean ====
section
/-! SUPPORT. Leaf ranges nest as indices divide: the ancestor at level L of the cell of index m has the index m / 4^(l − L), and
containment, intersection and the child positions read off these quotients (R186 to R188, R196 to R200, R202). -/

namespace Sys2Proof.Machine

/-! ## Leaf ranges -/

/-- The first and the last leaf of a cell are equally far below and above its id (R196, R197). -/
theorem CellIndex.rangeBounds {x : U64} {lvl m : Nat} (h : CellIndex x lvl m) :
    (rangeMin x).toNat + 2 ^ (2 * (30 - lvl)) = x.toNat + 1 ∧ (rangeMax x).toNat + 1 = x.toNat + 2 ^ (2 * (30 - lvl)) := by
  rw [h.rangeMin_toNat, h.rangeMax_toNat, h.toNat_eq]
  constructor <;> ring

theorem CellIndex.rangeMin_cellIndex {x : U64} {lvl m : Nat} (h : CellIndex x lvl m) :
    CellIndex (rangeMin x) 30 (m * 4 ^ (30 - lvl)) := by
  have hleaf := h.childBeginAt h.level_le le_rfl
  refine ⟨le_rfl, hleaf.index_lt, ?_⟩
  rw [h.rangeMin_toNat, lsb_finer h.level_le le_rfl]
  ring

theorem CellIndex.rangeMax_cellIndex {x : U64} {lvl m : Nat} (h : CellIndex x lvl m) :
    CellIndex (rangeMax x) 30 ((m + 1) * 4 ^ (30 - lvl) - 1) := by
  have hpos : 0 < (m + 1) * 4 ^ (30 - lvl) := by positivity
  have hle := finer_place_le h.level_le (Nat.succ_le_of_lt h.index_lt)
  refine ⟨le_rfl, (Nat.sub_lt hpos one_pos).trans_le hle, ?_⟩
  have hmax := h.rangeMax_toNat
  rw [lsb_finer h.level_le le_rfl, Nat.sub_self, mul_zero, pow_zero, mul_one, mul_assoc] at hmax
  omega

/-- Settles O55: the leaves of the cell of index m have the indices from m · 4^(30 − L) to one before (m + 1) · 4^(30 − L). -/
theorem rangeBoundsAreLeaves : Obligations.RangeBoundsAreLeaves := by
  intro s hvalid
  obtain ⟨m, hm⟩ := exists_cellIndex ⟨hvalid, rfl⟩
  obtain ⟨hmin, hmax⟩ := hm.rangeBounds
  exact ⟨_, _, exec_rangeMin hvalid, exec_rangeMax hvalid, hm.rangeMin_cellIndex.isCellAt, hm.rangeMax_cellIndex.isCellAt,
    hmin, hmax⟩

/-! ## Containment -/

theorem contains_iff (a b : U64) :
    contains a b = true ↔ (rangeMin a).toNat ≤ b.toNat ∧ b.toNat ≤ (rangeMax a).toNat := by
  rw [contains, Bool.and_eq_true, decide_eq_true_iff, decide_eq_true_iff, BitVec.le_def, BitVec.le_def]

theorem intersects_iff (a b : U64) :
    intersects a b = true ↔
      (rangeMin b).toNat ≤ (rangeMax a).toNat ∧ (rangeMin a).toNat ≤ (rangeMax b).toNat := by
  rw [intersects, Bool.and_eq_true, decide_eq_true_iff, decide_eq_true_iff, BitVec.le_def, BitVec.le_def]

theorem intersects_comm (a b : U64) : intersects a b = true ↔ intersects b a = true := by
  rw [intersects_iff, intersects_iff, and_comm]

/-- Every cell lies in its own range. -/
theorem CellIndex.mem_range {x : U64} {lvl m : Nat} (h : CellIndex x lvl m) :
    (rangeMin x).toNat ≤ x.toNat ∧ x.toNat ≤ (rangeMax x).toNat := by
  obtain ⟨hmin, hmax⟩ := h.rangeBounds
  have hpos := Nat.two_pow_pos (2 * (30 - lvl))
  omega

theorem CellIndex.intersects_of_contains {a b : U64} {lvl m : Nat} (hb : CellIndex b lvl m)
    (h : contains a b = true) : intersects a b = true := by
  obtain ⟨hlow, hhigh⟩ := (contains_iff a b).1 h
  obtain ⟨hmin, hmax⟩ := hb.mem_range
  exact (intersects_iff a b).2 ⟨hmin.trans hhigh, hlow.trans hmax⟩

/-- The boundaries of a cell's range, counted in cells of a finer level. -/
theorem CellIndex.range_finer {x : U64} {lvl fine m : Nat} (h : CellIndex x lvl m) (hle : lvl ≤ fine) (hfine : fine ≤ 30) :
    (rangeMin x).toNat = 2 * (m * 4 ^ (fine - lvl)) * 2 ^ (2 * (30 - fine)) + 1 ∧
    (rangeMax x).toNat + 1 = 2 * (m * 4 ^ (fine - lvl) + 4 ^ (fine - lvl)) * 2 ^ (2 * (30 - fine)) := by
  rw [h.rangeMin_toNat, h.rangeMax_toNat, lsb_finer hle hfine]
  constructor <;> ring

section Ranges

variable {a b : U64} {la lb ma mb : Nat} (ha : CellIndex a la ma) (hb : CellIndex b lb mb)
include ha hb

/-- A cell contains the cells of its own and of finer levels whose indices divide down to its own. -/
theorem CellIndex.contains_iff_of_le (h : la ≤ lb) : contains a b = true ↔ mb / 4 ^ (lb - la) = ma := by
  obtain ⟨hmin, hmax⟩ := ha.range_finer h hb.level_le
  have hpos := Nat.two_pow_pos (2 * (30 - lb))
  have hlow : (rangeMin a).toNat ≤ b.toNat ↔ 2 * (ma * 4 ^ (lb - la)) < 2 * mb + 1 := by
    rw [← Nat.mul_lt_mul_right hpos, ← hb.toNat_eq, hmin, Nat.succ_le_iff]
  have hhigh : b.toNat ≤ (rangeMax a).toNat ↔ 2 * mb + 1 < 2 * (ma * 4 ^ (lb - la) + 4 ^ (lb - la)) := by
    rw [← Nat.mul_lt_mul_right hpos, ← hb.toNat_eq, ← hmax, Nat.lt_succ_iff]
  have hwidth : 0 < 4 ^ (lb - la) := by positivity
  rw [contains_iff, hlow, hhigh, Nat.div_eq_iff hwidth]
  omega

/-- A cell contains none of a coarser level: those stand on its boundaries or outside its range. -/
theorem CellIndex.level_le_of_contains (h : contains a b = true) : la ≤ lb := by
  by_contra hlt
  obtain ⟨hlow, hhigh⟩ := (contains_iff a b).1 h
  obtain ⟨d, hd⟩ : ∃ d, la - lb = d + 1 := ⟨la - lb - 1, by omega⟩
  have hpos := Nat.two_pow_pos (2 * (30 - la))
  have hid : b.toNat = 2 * ((2 * mb + 1) * (2 * 4 ^ d)) * 2 ^ (2 * (30 - la)) := by
    rw [hb.toNat_eq, lsb_finer (by omega) ha.level_le, hd]
    ring
  have hmax := ha.rangeMax_toNat
  rw [ha.rangeMin_toNat, hid, Nat.succ_le_iff, Nat.mul_lt_mul_right hpos] at hlow
  rw [← Nat.lt_succ_iff, Nat.succ_eq_add_one, hmax, hid, Nat.mul_lt_mul_right hpos] at hhigh
  omega

/-- The range of a cell that divides down to `a` lies in the range of `a`. -/
theorem CellIndex.range_le_of_div_eq (h : la ≤ lb) (hdiv : mb / 4 ^ (lb - la) = ma) :
    (rangeMin a).toNat ≤ (rangeMin b).toNat ∧ (rangeMax b).toNat ≤ (rangeMax a).toNat := by
  obtain ⟨hmin, hmax⟩ := ha.range_finer h hb.level_le
  have hwidth : 0 < 4 ^ (lb - la) := by positivity
  obtain ⟨hlow, hhigh⟩ := (Nat.div_eq_iff hwidth).1 hdiv
  have hmaxb := hb.rangeMax_toNat
  constructor
  · rw [hmin, hb.rangeMin_toNat]
    gcongr
  · rw [← Nat.add_le_add_iff_right (n := 1), hmax, hmaxb]
    exact Nat.mul_le_mul_right _ (Nat.mul_le_mul_left 2 (by omega))

/-- If the ranges of two cells meet, the finer one divides down to the other. -/
theorem CellIndex.div_eq_of_intersects (h : la ≤ lb) (hmeet : intersects a b = true) : mb / 4 ^ (lb - la) = ma := by
  obtain ⟨hmin, hmax⟩ := ha.range_finer h hb.level_le
  have hpos := Nat.two_pow_pos (2 * (30 - lb))
  obtain ⟨hlow, hhigh⟩ := (intersects_iff a b).1 hmeet
  have hlow' : 2 * mb < 2 * (ma * 4 ^ (lb - la) + 4 ^ (lb - la)) := by
    rw [← Nat.mul_lt_mul_right hpos, ← hmax]
    rw [hb.rangeMin_toNat] at hlow
    omega
  have hhigh' : 2 * (ma * 4 ^ (lb - la)) < 2 * (mb + 1) := by
    rw [← Nat.mul_lt_mul_right hpos, ← hb.rangeMax_toNat]
    omega
  have hwidth : 0 < 4 ^ (lb - la) := by positivity
  rw [Nat.div_eq_iff hwidth]
  omega

/-- Containment of an id is containment of its range (R202 (d)). -/
theorem CellIndex.contains_iff_range_le :
    contains a b = true ↔
      (rangeMin a).toNat ≤ (rangeMin b).toNat ∧ (rangeMax b).toNat ≤ (rangeMax a).toNat := by
  constructor
  · intro h
    have hle := ha.level_le_of_contains hb h
    exact ha.range_le_of_div_eq hb hle ((ha.contains_iff_of_le hb hle).1 h)
  · rintro ⟨hmin, hmax⟩
    obtain ⟨hlow, hhigh⟩ := hb.mem_range
    exact (contains_iff a b).2 ⟨hmin.trans hlow, hhigh.trans hmax⟩

/-- Ranges nest or are disjoint (R199). -/
theorem CellIndex.intersects_iff_contains :
    intersects a b = true ↔ contains a b = true ∨ contains b a = true := by
  constructor
  · intro h
    rcases le_total la lb with hle | hle
    · exact .inl ((ha.contains_iff_of_le hb hle).2 (ha.div_eq_of_intersects hb hle h))
    · exact .inr ((hb.contains_iff_of_le ha hle).2 (hb.div_eq_of_intersects ha hle ((intersects_comm a b).1 h)))
  · rintro (h | h)
    · exact hb.intersects_of_contains h
    · exact (intersects_comm a b).2 (ha.intersects_of_contains h)

end Ranges

theorem wordOfBool_eq_ite {c : Bool} {p : Prop} [Decidable p] (h : c = true ↔ p) :
    wordOfBool c = if p then 1#64 else 0#64 := if_congr h rfl rfl

/-- Settles O56: the two commands answer `contains` and `intersects`. -/
theorem containmentIsConsistent : Obligations.ContainmentIsConsistent := by
  intro s hopa hopb
  obtain ⟨ma, ha⟩ := exists_cellIndex ⟨hopa, rfl⟩
  obtain ⟨mb, hb⟩ := exists_cellIndex ⟨hopb, rfl⟩
  rw [exec_contains hopa hopb, exec_intersects hopa hopb, wordOfBool_eq_ite (ha.contains_iff_range_le hb),
    wordOfBool_eq_ite (ha.intersects_iff_contains hb)]
  exact ⟨rfl, rfl⟩

/-! ## Ancestors -/

/-- What a coarser level keeps of a cell is the quotient of its index. -/
theorem CellIndex.div_coarser {x : U64} {lvl coarse m : Nat} (h : CellIndex x lvl m) (hle : coarse ≤ lvl) :
    x.toNat / 2 ^ (2 * (30 - coarse) + 1) = m / 4 ^ (lvl - coarse) := by
  rw [pow_succ, lsb_finer hle h.level_le, show 4 ^ (lvl - coarse) * 2 ^ (2 * (30 - lvl)) * 2 =
    2 ^ (2 * (30 - lvl) + 1) * 4 ^ (lvl - coarse) by ring, ← Nat.div_div_eq_div_mul, h.div_two_pow]

/-- PARENT of the cell of index m is the cell of index m / 4^(l − L) (R186). -/
theorem CellIndex.parent {x : U64} {lvl coarse m : Nat} (h : CellIndex x lvl m) (hle : coarse ≤ lvl) :
    CellIndex (parent x coarse) coarse (m / 4 ^ (lvl - coarse)) := by
  rw [← h.div_coarser hle]
  exact cellIndex_parent (hle.trans h.level_le) (toNat_lt_of_valid h.isCellAt.1)

theorem CellIndex.contains_parent {x : U64} {lvl coarse m : Nat} (h : CellIndex x lvl m) (hle : coarse ≤ lvl) :
    contains (Machine.parent x coarse) x = true :=
  ((h.parent hle).contains_iff_of_le h hle).2 rfl

theorem CellIndex.parent_self {x : U64} {lvl m : Nat} (h : CellIndex x lvl m) : Machine.parent x lvl = x := by
  have hparent := h.parent le_rfl
  rw [Nat.sub_self, pow_zero, Nat.div_one] at hparent
  exact hparent.unique h

/-- IMM_PARENT is PARENT one level up (R187). -/
theorem CellIndex.immediateParent_eq {x : U64} {lvl m : Nat} (h : CellIndex x (lvl + 1) m) :
    immediateParent x = Machine.parent x lvl := by
  have hlsb : lsb x <<< 2 = lsbForLevel lvl := by
    have hlvl : lvl < 30 := h.level_le
    rw [h.lsb_eq, lsbForLevel, lsbForLevel, ← BitVec.shiftLeft_add, Config.maxLevel]
    congr 1
    omega
  rw [immediateParent, Machine.parent, hlsb]

/-- Settles O46. -/
theorem parentIsTheAncestor : Obligations.ParentIsTheAncestor := by
  intro s lvl hvalid hle
  obtain ⟨m, hm⟩ := exists_cellIndex ⟨hvalid, rfl⟩
  refine ⟨_, exec_parent hvalid hle, (hm.parent hle).isCellAt, hm.contains_parent hle, ?_, fun h => ?_⟩
  · rintro rfl
    exact hm.parent_self
  · rw [← h] at hm
    rw [exec_immParent hvalid (by omega), hm.immediateParent_eq]

/-! ## Child positions -/

/-- CHILD_POSITION reads the last base-4 digit of what its level keeps of the id (R200). -/
theorem childPosition_eq (x : U64) (lvl : Nat) :
    childPosition x lvl = x.toNat / 2 ^ (2 * (30 - lvl) + 1) % 4 := by
  rw [childPosition, BitVec.toNat_and, BitVec.toNat_ushiftRight, Nat.shiftRight_eq_div_pow, Config.maxLevel]
  exact Nat.and_two_pow_sub_one_eq_mod _ 2

/-- A child leads back to its parent (R202 (c)). -/
theorem CellIndex.parent_child {x : U64} {lvl m p : Nat} (h : CellIndex x lvl m) (hlvl : lvl < 30) (hp : p < 4) :
    Machine.parent (Machine.child x p) lvl = x := by
  have hparent := (h.child hlvl hp).parent (Nat.le_succ lvl)
  rw [show (4 * m + p) / 4 ^ (lvl + 1 - lvl) = m by rw [Nat.add_sub_cancel_left]; omega] at hparent
  exact hparent.unique h

theorem CellIndex.childPosition_child {x : U64} {lvl m p : Nat} (h : CellIndex x lvl m) (hlvl : lvl < 30) (hp : p < 4) :
    childPosition (Machine.child x p) (lvl + 1) = p := by
  rw [childPosition_eq, (h.child hlvl hp).div_two_pow]
  omega

/-- Settles O47: child p of index m has index 4m + p. -/
theorem childLeadsBackToItsParent : Obligations.ChildLeadsBackToItsParent := by
  intro s p hvalid hlvl hp
  obtain ⟨m, hm⟩ := exists_cellIndex ⟨hvalid, rfl⟩
  have hchild := hm.child hlvl hp
  refine ⟨_, exec_child hvalid hlvl p, hchild.isCellAt, fun t ht => ?_⟩
  rw [← ht] at hchild
  have hparent : parent t.opa (level s.opa) = s.opa := ht ▸ hm.parent_child hlvl hp
  have hposition : childPosition t.opa (level s.opa + 1) = p := ht ▸ hm.childPosition_child hlvl hp
  obtain ⟨hvalid', hlevel⟩ := hchild.isCellAt
  refine ⟨?_, ?_, ?_⟩
  · rw [exec_parent hvalid' (by omega), hparent]
  · rw [exec_immParent hvalid' (by omega), hchild.immediateParent_eq, hparent]
  · rw [exec_childPosition hvalid' (by omega) hlevel.ge, hposition]
    rfl

/-- Settles O48: the last base-4 digit of the index of the level-L ancestor. -/
theorem childPositionIsTheSelector : Obligations.ChildPositionIsTheSelector := by
  intro s lvl hvalid hpos hle
  obtain ⟨l, rfl⟩ : ∃ l, lvl = l + 1 := ⟨lvl - 1, by omega⟩
  obtain ⟨m, hm⟩ := exists_cellIndex ⟨hvalid, rfl⟩
  have hp : childPosition s.opa (l + 1) < 4 := by
    rw [childPosition_eq]
    exact Nat.mod_lt _ (by decide)
  refine ⟨_, hp, exec_childPosition hvalid (by omega) hle, ?_⟩
  have hchild := (hm.parent (show l ≤ level s.opa by omega)).child (by have := hm.level_le; omega) hp
  have hindex : 4 * (m / 4 ^ (level s.opa - l)) + childPosition s.opa (l + 1) = m / 4 ^ (level s.opa - (l + 1)) := by
    rw [childPosition_eq, hm.div_coarser hle, show level s.opa - l = level s.opa - (l + 1) + 1 by omega, pow_succ,
      ← Nat.div_div_eq_div_mul]
    omega
  rw [hindex] at hchild
  exact hchild.unique (hm.parent hle)

end Sys2Proof.Machine
end

