-- ==== Sys2Proof/Proofs/Advance.lean ====
section
/-! SUPPORT. ADVANCE moves the place on the line of the level and stops at its ends (R195, R202 (f)). -/

namespace Sys2Proof.Machine

theorem linePlace_ofNat {lvl m : Nat} (hlvl : lvl ≤ 30) (hm : m ≤ 6 * 4 ^ lvl) :
    LinePlace (BitVec.ofNat 64 ((2 * m + 1) * 2 ^ (2 * (30 - lvl)))) lvl m :=
  ⟨hlvl, hm, by rw [BitVec.toNat_ofNat, Nat.mod_eq_of_lt (line_lt hlvl hm)]⟩

theorem toNat_clampInt_zero (n hi : Int) : ((clampInt n 0 hi).toNat : Int) = clampInt n 0 hi :=
  Int.toNat_of_nonneg (le_max_left _ _)

section Place

variable {x : U64} {lvl m : Nat} (h : LinePlace x lvl m)
include h

/-- Neighbouring places of a level are 2^(2(30 − L) + 1) apart (R195). -/
theorem LinePlace.stepShift_eq : stepShift x = 2 * (30 - lvl) + 1 := by
  have hlvl := h.level_le
  rw [stepShift, level_of_odd h.toNat_eq, Config.maxLevel]
  omega

/-- The way back to Begin(L) is the place itself (R195). -/
theorem LinePlace.minSteps_eq : minSteps x = -m := by
  rw [minSteps, h.stepShift_eq, BitVec.toNat_ushiftRight, Nat.shiftRight_eq_div_pow, h.toNat_eq, pow_succ',
    Nat.mul_div_mul_right _ _ (Nat.two_pow_pos _), show (2 * m + 1) / 2 = m by omega]

/-- The way on to End(L) is the rest of the line (R195). -/
theorem LinePlace.maxSteps_eq : maxSteps x = ((6 * 4 ^ lvl - m : Nat) : Int) := by
  obtain ⟨rest, hrest⟩ := Nat.exists_eq_add_of_le h.place_le
  have hend := line_end_eq h.level_le
  have hx := h.toNat_eq
  have hlt := line_lt h.level_le le_rfl
  have hdistance : (Config.wrapOffset + lsb x - x).toNat = rest * 2 ^ (2 * (30 - lvl) + 1) := by
    have hlsb := (lsb_of_odd hx).1
    have hwrap : Config.wrapOffset.toNat = 0xC000000000000000 := rfl
    have hsplit : (2 * (6 * 4 ^ lvl) + 1) * 2 ^ (2 * (30 - lvl)) = x.toNat + rest * 2 ^ (2 * (30 - lvl) + 1) := by
      rw [hrest, hx]
      ring
    bv_omega
  rw [maxSteps, h.stepShift_eq, BitVec.toNat_ushiftRight, Nat.shiftRight_eq_div_pow, hdistance,
    Nat.mul_div_cancel _ (Nat.two_pow_pos _), hrest, Nat.add_sub_cancel_left]

/-- The clamped step count leads to the clamped place (R195). -/
theorem LinePlace.add_clampedSteps (n : Int) :
    (m : Int) + clampedSteps x n = clampInt (m + n) 0 ((6 * 4 ^ lvl : Nat) : Int) := by
  have hm := h.place_le
  rw [clampedSteps, h.minSteps_eq, h.maxSteps_eq, clampInt]
  split <;> omega

/-- A step count that stays on the line moves the place by itself. -/
theorem LinePlace.add_steps {n : Int} {k : Nat} (hk : k ≤ 6 * 4 ^ lvl) (hn : (m : Int) + n = k) :
    LinePlace (x + (wordOfInt n <<< stepShift x)) lvl k := by
  have hx : x = BitVec.ofInt 64 ((2 * m + 1) * 2 ^ (2 * (30 - lvl)) : Nat) := by
    rw [← h.toNat_eq, BitVec.ofInt_natCast, BitVec.ofNat_toNat, BitVec.setWidth_eq]
  have hshift : wordOfInt n <<< stepShift x = BitVec.ofInt 64 (n * (2 ^ (2 * (30 - lvl) + 1) : Nat)) := by
    rw [h.stepShift_eq, BitVec.shiftLeft_eq_mul_twoPow, wordOfInt, BitVec.ofInt_mul, BitVec.ofInt_natCast]
    congr 1
    exact BitVec.eq_of_toNat_eq (by rw [BitVec.toNat_twoPow, BitVec.toNat_ofNat])
  have hsum : x + (wordOfInt n <<< stepShift x) = BitVec.ofNat 64 ((2 * k + 1) * 2 ^ (2 * (30 - lvl))) := by
    rw [hshift, hx, ← BitVec.ofInt_add, ← BitVec.ofInt_natCast]
    congr 1
    push_cast
    rw [← hn]
    ring
  rw [hsum]
  exact linePlace_ofNat h.level_le hk

/-- ADVANCE moves the place by the steps, clamped to the ends of the line (R195). -/
theorem LinePlace.advance (n : Int) :
    LinePlace (advance x n) lvl (clampInt (m + n) 0 ((6 * 4 ^ lvl : Nat) : Int)).toNat := by
  have hm := h.place_le
  rw [Machine.advance]
  split
  · next hzero =>
    rw [hzero, clampInt, show (max 0 (min ((6 * 4 ^ lvl : Nat) : Int) (m + 0))).toNat = m by omega]
    exact h
  · refine h.add_steps ?_ ?_
    · rw [clampInt]
      omega
    · rw [h.add_clampedSteps, toNat_clampInt_zero]

end Place

/-- Clamping between two moves in one direction is clamping at the end. -/
theorem clampInt_add_clampInt {k m n hi : Int} (h0 : 0 ≤ k) (hk : k ≤ hi) (hsign : 0 ≤ m ∧ 0 ≤ n ∨ m ≤ 0 ∧ n ≤ 0) :
    clampInt (clampInt (k + m) 0 hi + n) 0 hi = clampInt (k + (m + n)) 0 hi := by
  simp only [clampInt]
  omega

/-- Settles O53: the number of the clamped place. -/
theorem advanceMovesTheClampedIndex : Obligations.AdvanceMovesTheClampedIndex := by
  intro s lvl n hvalid hlevel hn
  obtain ⟨m, hm⟩ := exists_cellIndex ⟨hvalid, hlevel⟩
  have hplace := hm.linePlace.advance s.opb.toInt
  rw [hm.div_two_pow] at hn
  have hclamp : clampInt (m + s.opb.toInt) 0 ((6 * 4 ^ lvl : Nat) : Int) = n := by
    rw [hn, clampInt]
    push_cast
    rfl
  rw [hclamp] at hplace
  have hnonneg : (n.toNat : Int) = n := hclamp ▸ toNat_clampInt_zero _ _
  rw [exec_advance hvalid, hplace.unique (linePlace_ofNat hplace.level_le hplace.place_le), ← BitVec.ofInt_natCast]
  congr 4
  push_cast [hnonneg]
  ring

/-- Settles O54: each function value stands on the line, End(L) included, so the second move starts at the clamped place. -/
theorem advanceComposes : Obligations.AdvanceComposes := by
  intro x m n hvalid hsign
  obtain ⟨k, hk⟩ := exists_cellIndex ⟨hvalid, rfl⟩
  have hline := hk.linePlace
  have hplace := (hline.advance m).advance n
  rw [toNat_clampInt_zero, clampInt_add_clampInt (Int.natCast_nonneg k) (Int.ofNat_le.2 hline.place_le) hsign] at hplace
  exact (hline.advance (m + n)).unique hplace

end Sys2Proof.Machine
end

