-- ==== Sys2Proof/Proofs/CellSquares.lean ====
section
/-! SUPPORT. The cell of level L above a leaf covers the square of side 2^(30 − L) that the leaf's grid point lies in: ids
that agree above a level's lowest set bit have grid points that agree from bit 30 − L on (R136, R231). -/

namespace Sys2Proof.Machine

/-! ## Positions that share their first levels -/

theorem ijToPos_injective (o : Orientation) : Function.Injective (ijToPos o) := by
  unfold Function.Injective
  revert o
  decide

theorem quadrant_inj : ∀ a b a' b' : BitVec 1, a ++ b = a' ++ b' → a = a' ∧ b = b' := by decide

/-- Two grid points share bit `b` of both coordinates. -/
def SameBit (i j i' j' : Int) (b : Nat) : Prop :=
  (BitVec.ofInt 32 i).extractLsb' b 1 = (BitVec.ofInt 32 i').extractLsb' b 1 ∧
  (BitVec.ofInt 32 j).extractLsb' b 1 = (BitVec.ofInt 32 j').extractLsb' b 1

/-- A level of the curve appends another pair for another quadrant. -/
theorem sameBit_of_encodeBit_eq {i j i' j' : Int} {P : U64} {n : Nat} (h : ShiftRoom 2 (n + 1) P) {o : Orientation} {b : Nat}
    (heq : (encodeBit i j (P, o) b).1.toNat = (encodeBit i' j' (P, o) b).1.toNat) : SameBit i j i' j' b := by
  simp only [encodeBit] at heq
  rw [(h.shift_in (BitVec.isLt _)).1, (h.shift_in (BitVec.isLt _)).1, Nat.add_left_cancel_iff] at heq
  exact quadrant_inj _ _ _ _ (ijToPos_injective o (BitVec.eq_of_toNat_eq heq))

/-- Grid points that have the same position after some levels of the curve share the bits of these levels. -/
theorem sameBit_of_foldl_encodeBit_eq {i j i' j' : Int} (bits : List Nat) {P : U64} (h : ShiftRoom 2 bits.length P)
    {o : Orientation} (heq : (bits.foldl (encodeBit i j) (P, o)).1 = (bits.foldl (encodeBit i' j') (P, o)).1) :
    ∀ b ∈ bits, SameBit i j i' j' b := by
  induction bits generalizing P o with
  | nil => nofun
  | cons b bits ih =>
    rw [List.length_cons] at h
    obtain ⟨p, Q, hQ, -, hroom⟩ := encodeBit_eq i j h o b
    obtain ⟨p', Q', hQ', -, hroom'⟩ := encodeBit_eq i' j' h o b
    rw [List.foldl_cons, List.foldl_cons, hQ, hQ'] at heq
    have hfirst : Q.toNat = Q'.toNat := by
      rw [← (foldl_encodeBit_div i j bits (n := 0) hroom _).1, heq, (foldl_encodeBit_div i' j' bits (n := 0) hroom' _).1]
    have hbit : SameBit i j i' j' b := sameBit_of_encodeBit_eq h (by rw [hQ, hQ']; exact hfirst)
    have hlevel : encodeBit i j (P, o) b = encodeBit i' j' (P, o) b := by
      simp only [encodeBit, hbit.1, hbit.2]
    rw [← hQ, ← hQ', ← hlevel] at heq
    rw [hQ] at heq
    exact List.forall_mem_cons.2 ⟨hbit, ih hroom heq⟩

/-- Bits of a coordinate that are shared from bit `k` on are the bits of the same quotient. -/
theorem ediv_eq_of_extractLsb'_eq {i i' : Nat} (hi : i < 2 ^ 30) (hi' : i' < 2 ^ 30) {k lvl : Nat} (hk : k + lvl = 30)
    (h : ∀ c < lvl, (BitVec.ofInt 32 i).extractLsb' (k + c) 1 = (BitVec.ofInt 32 i').extractLsb' (k + c) 1) :
    i / 2 ^ k = i' / 2 ^ k := by
  have hbit {a : Nat} (ha : a < 2 ^ 30) (b : Nat) : ((BitVec.ofInt 32 a).extractLsb' b 1).getLsbD 0 = a.testBit b := by
    rw [BitVec.ofInt_natCast, BitVec.getLsbD_extractLsb', BitVec.getLsbD_ofNat, Nat.add_zero]
    by_cases hb : b < 32
    · simp [hb]
    · simp [hb, Nat.testBit_eq_false_of_lt (ha.trans_le (Nat.pow_le_pow_right two_pos (show 30 ≤ b by omega)))]
  refine Nat.eq_of_testBit_eq fun c => ?_
  rw [Nat.testBit_div_two_pow, Nat.testBit_div_two_pow]
  by_cases hc : c < lvl
  · rw [add_comm, ← hbit hi, ← hbit hi', h c hc]
  · have hle : 2 ^ 30 ≤ 2 ^ (c + k) := Nat.pow_le_pow_right two_pos (by omega)
    rw [Nat.testBit_eq_false_of_lt (hi.trans_le hle), Nat.testBit_eq_false_of_lt (hi'.trans_le hle)]

/-- A coordinate of the grid of a face (R6). -/
abbrev InGrid (i : Int) : Prop := 0 ≤ i ∧ i < 2 ^ 30

/-- The first `lvl` levels of the curve read the bits from 29 down to `30 − lvl`, the others those below. -/
theorem range_thirty_reverse {k lvl : Nat} (hk : k + lvl = 30) :
    (List.range 30).reverse = ((List.range lvl).map (k + ·)).reverse ++ (List.range k).reverse := by
  rw [← hk, List.range_add, List.reverse_append]

/-- Grid points whose positions agree above the last `k` levels agree above their last `k` bits. -/
theorem ediv_eq_of_bitSerialEncode {face : Nat} {i j i' j' : Int} (hi : InGrid i) (hj : InGrid j) (hi' : InGrid i')
    (hj' : InGrid j') {k lvl : Nat} (hk : k + lvl = 30)
    (h : (bitSerialEncode face i j).toNat / 4 ^ k = (bitSerialEncode face i' j').toNat / 4 ^ k) :
    i / 2 ^ k = i' / 2 ^ k ∧ j / 2 ^ k = j' / 2 ^ k := by
  have hroom : ShiftRoom 2 (((List.range lvl).map (k + ·)).reverse.length + k) 0#64 := shiftRoom_zero (by simp; omega)
  have hfirst (i j : Int) : (bitSerialEncode face i j).toNat / 4 ^ k =
      (((List.range lvl).map (k + ·)).reverse.foldl (encodeBit i j) (0#64, faceOrientation face)).1.toNat := by
    have hbelow := foldl_encodeBit_div i j (List.range k).reverse (n := 0) (P :=
      (((List.range lvl).map (k + ·)).reverse.foldl (encodeBit i j) (0#64, faceOrientation face)).1)
      (by simpa using (foldl_encodeBit_div i j _ hroom _).2)
      (((List.range lvl).map (k + ·)).reverse.foldl (encodeBit i j) (0#64, faceOrientation face)).2
    rw [bitSerialEncode, range_thirty_reverse hk, List.foldl_append, ← hbelow.1, List.length_reverse, List.length_range]
  rw [hfirst, hfirst] at h
  have hbits := sameBit_of_foldl_encodeBit_eq _ (shiftRoom_zero (by simp; omega)) (BitVec.eq_of_toNat_eq h)
  have hshared (c : Nat) (hc : c < lvl) : SameBit i j i' j' (k + c) := hbits _ (by simp [hc])
  lift i to ℕ using hi.1
  lift j to ℕ using hj.1
  lift i' to ℕ using hi'.1
  lift j' to ℕ using hj'.1
  constructor
  · exact_mod_cast ediv_eq_of_extractLsb'_eq (by omega) (by omega) hk fun c hc => (hshared c hc).1
  · exact_mod_cast ediv_eq_of_extractLsb'_eq (by omega) (by omega) hk fun c hc => (hshared c hc).2

/-! ## The square of a cell -/

/-- A leaf's index on its face is its position on the curve, above any level (R26, R136). -/
theorem leaf_index_div {face k lvl : Nat} (hk : k + lvl = 30) (P : Nat) :
    (face * 2 ^ 60 + P) / 4 ^ k = 4 ^ lvl * face + P / 4 ^ k := by
  have hpow : (2 : Nat) ^ 60 = 4 ^ lvl * 4 ^ k := by rw [← pow_add, add_comm, hk]; rfl
  rw [hpow, show face * (4 ^ lvl * 4 ^ k) + P = P + 4 ^ lvl * face * 4 ^ k by ring,
    Nat.add_mul_div_right _ _ (by positivity), add_comm]

/-- Leaves with the same ancestor lie on one face and in one square of the ancestor's size (R231). -/
theorem square_eq_of_parent_leafAt_eq {face face' lvl : Nat} (hface : face < 6) (hface' : face' < 6) (hlvl : lvl ≤ 30)
    {i j i' j' : Int} (hi : InGrid i) (hj : InGrid j) (hi' : InGrid i') (hj' : InGrid j')
    (h : parent (leafAt face i j) lvl = parent (leafAt face' i' j') lvl) :
    face = face' ∧ i / 2 ^ (30 - lvl) = i' / 2 ^ (30 - lvl) ∧ j / 2 ^ (30 - lvl) = j' / 2 ^ (30 - lvl) := by
  have hk : 30 - lvl + lvl = 30 := Nat.sub_add_cancel hlvl
  have hcell := (cellIndex_leafAt hface i j).parent hlvl
  have hcell' := (cellIndex_leafAt hface' i' j').parent hlvl
  rw [leaf_index_div hk] at hcell hcell'
  have hindex := hcell.div_two_pow
  rw [h, hcell'.div_two_pow] at hindex
  have hlt (f : Nat) (i j : Int) : (bitSerialEncode f i j).toNat / 4 ^ (30 - lvl) < 4 ^ lvl := by
    have hpos := bitSerialEncode_lt f i j
    rwa [Nat.div_lt_iff_lt_mul (by positivity), ← pow_add, add_comm, hk]
  obtain rfl : face = face' := by
    have hquot := congrArg (· / 4 ^ lvl) hindex
    simp only [Nat.mul_add_div (Nat.pow_pos (n := lvl) (show 0 < 4 by decide)), Nat.div_eq_of_lt (hlt _ _ _)] at hquot
    exact hquot.symm
  exact ⟨rfl, ediv_eq_of_bitSerialEncode hi hj hi' hj' hk (Nat.add_left_cancel hindex).symm⟩

/-- A decoded id is the leaf `x | 1` of its coordinates, which are on the grid (R152). -/
theorem leafAt_toFaceIJO {x : U64} (hface : faceField x < 6) :
    InGrid (toFaceIJO generatedEntry x).i ∧ InGrid (toFaceIJO generatedEntry x).j ∧
    leafAt (faceField x) (toFaceIJO generatedEntry x).i (toFaceIJO generatedEntry x).j = x ||| 1#64 := by
  obtain ⟨i, j, hi0, hi, hj0, hj, hleaf⟩ := exists_leafAt_eq_or_one hface
  obtain ⟨hdi, hdj⟩ := hilbertDecode_leafAt hface hi0 hi hj0 hj
  rw [hleaf, hilbertDecode_or_one] at hdi hdj
  simp only [toFaceIJO, hdi, hdj]
  exact ⟨⟨hi0, hi⟩, ⟨hj0, hj⟩, hleaf⟩

theorem parent_or_one (x : U64) (lvl : Nat) : parent (x ||| 1#64) lvl = parent x lvl :=
  BitVec.eq_of_toNat_eq (by rw [parent_toNat, parent_toNat, or_one_div_two_pow])

/-- The ancestors of an id are those of the leaf that it decodes to. -/
theorem parent_leafAt_toFaceIJO {x : U64} (hface : faceField x < 6) (lvl : Nat) :
    parent (leafAt (faceField x) (toFaceIJO generatedEntry x).i (toFaceIJO generatedEntry x).j) lvl = parent x lvl := by
  obtain ⟨-, -, hleaf⟩ := leafAt_toFaceIJO hface
  rw [hleaf, parent_or_one]

/-- The cell of a level above a leaf covers the square that the leaf lies in (R231). -/
theorem inSquare_parent_leafAt {face lvl : Nat} (hface : face < 6) (hlvl : lvl ≤ 30) {i j : Int} (hi : InGrid i)
    (hj : InGrid j) :
    inSquare generatedEntry (parent (leafAt face i j) lvl) face (2 ^ (30 - lvl)) (i / 2 ^ (30 - lvl))
      (j / 2 ^ (30 - lvl)) := by
  have hcell := (cellIndex_leafAt hface i j).parent hlvl
  have hface' := faceField_lt_of_valid hcell.isCellAt.1
  obtain ⟨hi', hj', -⟩ := leafAt_toFaceIJO hface'
  exact square_eq_of_parent_leafAt_eq hface' hface hlvl hi' hj' hi hj
    ((parent_leafAt_toFaceIJO hface' lvl).trans hcell.parent_self)

end Sys2Proof.Machine
end

