-- ==== Sys2Proof/Proofs/EdgeCrossing.lean ====
section
/-! SUPPORT. Where the way through the cube leads from one step off an edge of a face: onto the face beyond that edge, with
the coordinate along the edge kept or mirrored (R102 to R104, R154). -/

namespace Sys2Proof.Machine

open Binary64

/-! ## The quantization near a centre -/

/-- A number up to 2 in magnitude is rounded by at most 2^-50, since the multiples of 2^-50 there are in the format. -/
theorem abs_sub_le_of_roundsTo {v : ℚ} {r : U64} (hv : |v| ≤ 2) (h : roundsTo (v : ℝ) r) :
    isFinite r = true ∧ |exactValue r - v| ≤ 1 / 2 ^ 50 := by
  obtain ⟨hlow, hhigh⟩ := abs_le.1 hv
  obtain ⟨n, hfloor, hceil⟩ : ∃ n : ℤ, n ≤ v * 2 ^ 50 ∧ v * 2 ^ 50 < n + 1 :=
    ⟨⌊v * 2 ^ 50⌋, Int.floor_le _, Int.lt_floor_add_one _⟩
  have hbits : n.natAbs < 2 ^ 53 := by
    have h1 : -(2 ^ 52 : ℤ) ≤ n := by exact_mod_cast (show (-2 ^ 52 : ℚ) ≤ n by linarith)
    have h2 : n ≤ (2 ^ 51 : ℤ) := by exact_mod_cast hfloor.trans (show v * 2 ^ 50 ≤ 2 ^ 51 by linarith)
    omega
  obtain ⟨hz, hvalue⟩ := round_int_exact hbits (e := -50) (by decide) (by decide)
  rcases h with ⟨hfin, -, hnearest⟩ | ⟨-, hbig⟩
  · refine ⟨hfin, ?_⟩
    have hle : |exactValue r - v| ≤ |exactValue (round (decide (n < 0)) n.natAbs (-50)) - v| := by
      exact_mod_cast (hnearest _ hz).1
    refine hle.trans ?_
    rw [hvalue, zpow_neg, zpow_ofNat, ← div_eq_mul_inv, abs_le]
    constructor <;> linarith
  · have hbig' : (2 : ℚ) ^ 1024 - 2 ^ 970 ≤ |v| := by exact_mod_cast hbig
    have hdouble : (2 : ℚ) * 2 ^ 970 ≤ 2 ^ 1024 := by rw [← pow_succ']; exact pow_le_pow_right₀ one_le_two (by decide)
    have hlarge : (2 : ℚ) ^ 2 ≤ 2 ^ 970 := pow_le_pow_right₀ one_le_two (by decide)
    generalize (2 : ℚ) ^ 1024 = a, (2 : ℚ) ^ 970 = b at hbig' hdouble hlarge
    linarith

/-- The centre of column or row `t` in the linear projection (R154). -/
def centre (t : Int) : ℚ := (2 * t + 1 - 2 ^ 30) / 2 ^ 30

theorem centre_mirror (t : Int) : centre (2 ^ 30 - 1 - t) = -centre t := by
  simp only [centre]
  push_cast
  ring

theorem abs_centre_le {t : Int} (h : InGrid t) : |centre t| ≤ 1 - 1 / 2 ^ 30 := by
  obtain ⟨h0, h1⟩ := h
  have h0' : (0 : ℚ) ≤ t := by exact_mod_cast h0
  have h1' : (t : ℚ) + 1 ≤ 2 ^ 30 := by exact_mod_cast h1
  rw [centre, abs_le]
  constructor <;> linarith

/-- A finite number this close to a centre is quantized to the centre's coordinate. -/
theorem linearToIJ_near {q : U64} {t : Int} (ht : InGrid t) (hq : isFinite q = true)
    (hnear : |exactValue q - centre t| ≤ 1 / 2 ^ 49) : linearToIJ q = t := by
  obtain ⟨hlow, hhigh⟩ := abs_le.1 hnear
  obtain ⟨hclow, hchigh⟩ := abs_le.1 (abs_centre_le ht)
  obtain ⟨hsum, hsumNear⟩ := abs_sub_le_of_roundsTo
    (by rw [exactValue_one, abs_le]; constructor <;> linarith) (add_finite hq isFinite_one).1
  obtain ⟨hslow, hshigh⟩ := abs_le.1 hsumNear
  rw [exactValue_one] at hslow hshigh
  obtain ⟨hhalf, hhalfNear⟩ := abs_sub_le_of_roundsTo
    (by rw [exactValue_half, abs_le]; constructor <;> linarith) (mul_finite (x := half) (by decide) hsum).1
  obtain ⟨hmlow, hmhigh⟩ := abs_le.1 hhalfNear
  rw [exactValue_half] at hmlow hmhigh
  have hfloor : ⌊(2 : ℚ) ^ 30 * exactValue (mul half (add q one))⌋ = t := by
    rw [centre] at *
    rw [Int.floor_eq_iff]
    constructor <;> linarith
  rw [linearToIJ, stToIJ_finite hhalf, hfloor]
  omega

/-- The coordinate along an edge is divided by the ±(1 + 2^-52) of the step off it, which moves it by less than a quantum. -/
theorem linearToIJ_div_limit {x y : U64} {t : Int} (ht : InGrid t) (hx : isFinite x = true) (hy : isFinite y = true)
    (hvalue : exactValue x / exactValue y = centre t / (1 + 1 / 2 ^ 52)) (h0 : isZero y = false) :
    linearToIJ (div x y) = t := by
  obtain ⟨hclow, hchigh⟩ := abs_le.1 (abs_centre_le ht)
  have hshrunk : |centre t / (1 + 1 / 2 ^ 52) - centre t| ≤ 1 / 2 ^ 52 := by
    rw [show centre t / (1 + 1 / 2 ^ 52) - centre t = -(centre t / (2 ^ 52 + 1)) by field_simp; ring, abs_le]
    constructor <;> linarith
  obtain ⟨hslow, hshigh⟩ := abs_le.1 hshrunk
  obtain ⟨hq, hnear⟩ := abs_sub_le_of_roundsTo
    (by rw [hvalue, abs_le]; constructor <;> linarith) (div_finite hx hy h0).1
  obtain ⟨hlow, hhigh⟩ := abs_le.1 hnear
  rw [hvalue] at hlow hhigh
  refine linearToIJ_near ht hq (abs_le.2 ?_)
  constructor <;> linarith

/-! ## Axes and signs -/

/-- A value with a sign. -/
def withSign (n : Bool) (v : ℚ) : ℚ := if n then -v else v

/-- The face of an axis and a sign (R103). -/
def faceOn (axis : Nat) (negative : Bool) : Nat := if negative then axis + 3 else axis

/-- The axis on which R102 writes the coordinate u of a face, and whether it writes −u. -/
def uAxis (face : Nat) : Nat × Bool :=
  match face with
  | 0 | 5 => (1, false)
  | 1 | 2 => (0, true)
  | _ => (2, true)

/-- The axis on which R102 writes the coordinate v of a face, and whether it writes −v. -/
def vAxis (face : Nat) : Nat × Bool :=
  match face with
  | 0 | 1 => (2, false)
  | 2 | 3 => (1, true)
  | _ => (0, false)

theorem exactValue_component_uAxis {face : Nat} (hface : face < 6) {u : U64} (hu : isFinite u = true) (v : U64) :
    exactValue (component (faceUVToXYZ face u v) (uAxis face).1) = withSign (uAxis face).2 (exactValue u) := by
  match face with
  | 0 | 5 => rfl
  | 1 | 2 | 3 | 4 => exact exactValue_neg hu

theorem exactValue_component_vAxis {face : Nat} (hface : face < 6) (u : U64) {v : U64} (hv : isFinite v = true) :
    exactValue (component (faceUVToXYZ face u v) (vAxis face).1) = withSign (vAxis face).2 (exactValue v) := by
  match face with
  | 0 | 1 | 4 | 5 => rfl
  | 2 | 3 => exact exactValue_neg hv

theorem abs_exactValue_component_own {face : Nat} (hface : face < 6) (u v : U64) :
    |exactValue (component (faceUVToXYZ face u v) (face % 3))| = 1 := by
  have hone : |exactValue one| = 1 := by rw [exactValue_one, abs_one]
  have hnegone : |exactValue (neg one)| = 1 := by rw [exactValue_neg_one, abs_neg, abs_one]
  match face with
  | 0 | 1 | 2 => exact hone
  | 3 | 4 | 5 => exact hnegone

/-- The three axes of a face are all there are. -/
theorem axis_cases : ∀ face < 6, ∀ c < 3, c = (uAxis face).1 ∨ c = (vAxis face).1 ∨ c = face % 3 := by decide

theorem axis_lt : ∀ face < 6, (uAxis face).1 < 3 ∧ (vAxis face).1 < 3 ∧ (uAxis face).1 ≠ (vAxis face).1 := by decide

/-! ## A point off an edge -/

/-- A point one step off an edge: ±(1 + 2^-52) on axis `a`, plus or minus the centre of `t` on the axis `b` along the edge,
and no component but the one on `a` beyond 1. -/
structure EdgePoint (p : Vec3) (a : Nat) (na : Bool) (b : Nat) (nb : Bool) (t : Int) : Prop where
  finite : FiniteVector p
  off : exactValue (component p a) = withSign na (1 + 1 / 2 ^ 52)
  along : exactValue (component p b) = withSign nb (centre t)
  inside : ∀ c < 3, c ≠ a → |exactValue (component p c)| ≤ 1

theorem FiniteVector.component {p : Vec3} (h : FiniteVector p) (c : Nat) : isFinite (component p c) = true := by
  match c with
  | 0 => exact h.x
  | 1 => exact h.y
  | _ + 2 => exact h.z

/-- An axis on which a vector is largest, with no tie, is its major axis. -/
theorem FiniteVector.majorAxis_eq_of_largest {p : Vec3} (h : FiniteVector p) {a : Nat} (ha : a < 3)
    (hlargest : ∀ c < 3, c ≠ a → |exactValue (Machine.component p c)| < |exactValue (Machine.component p a)|) :
    majorAxis p = a := by
  match a with
  | 0 => exact h.majorAxis_eq_zero (hlargest 1 (by decide) (by decide)) (hlargest 2 (by decide) (by decide))
  | 1 => exact h.majorAxis_eq_one (hlargest 0 (by decide) (by decide)).le (hlargest 2 (by decide) (by decide))
  | 2 => exact h.majorAxis_eq_two (hlargest 0 (by decide) (by decide)).le (hlargest 1 (by decide) (by decide)).le

/-- The face coordinates of R104 are the components off the face's axis, some negated, by the component on it. -/
theorem exists_quotient {a b : Nat} (ha : a < 3) (hb : b < 3) (hne : b ≠ a) (na : Bool) :
    ∃ first flip : Bool, ∀ p : Vec3,
      (if first then (faceXYZToUV (faceOn a na) p).1 else (faceXYZToUV (faceOn a na) p).2) =
        div (if flip then neg (component p b) else component p b) (component p a) := by
  match a, b, na with
  | 0, 1, false | 0, 2, true | 1, 2, true => exact ⟨true, false, fun _ => rfl⟩
  | 0, 2, false | 0, 1, true | 1, 2, false => exact ⟨false, false, fun _ => rfl⟩
  | 1, 0, false | 2, 0, false | 2, 1, true => exact ⟨true, true, fun _ => rfl⟩
  | 2, 1, false | 1, 0, true | 2, 0, true => exact ⟨false, true, fun _ => rfl⟩
  | 2, 2, _ => exact absurd rfl hne

theorem withSign_xor (n₁ n₂ : Bool) (v : ℚ) : withSign (n₁ ^^ n₂) v = withSign n₁ (withSign n₂ v) := by
  cases n₁ <;> cases n₂ <;> simp [withSign]

theorem withSign_div (n₁ n₂ n₃ : Bool) (v w : ℚ) :
    withSign n₁ (withSign n₂ v) / withSign n₃ w = withSign (n₁ ^^ n₂ ^^ n₃) v / w := by
  cases n₁ <;> cases n₂ <;> cases n₃ <;> simp [withSign, neg_div, div_neg]

theorem abs_withSign (n : Bool) (v : ℚ) : |withSign n v| = |v| := by cases n <;> simp [withSign]

/-- A coordinate along an edge as it is on the face beyond: kept, or counted from the other end. -/
def mirrored (n : Bool) (t : Int) : Int := if n then 2 ^ 30 - 1 - t else t

theorem centre_mirrored (n : Bool) (t : Int) : centre (mirrored n t) = withSign n (centre t) := by
  cases n
  · rfl
  · exact centre_mirror t

theorem inGrid_mirrored {t : Int} (h : InGrid t) (n : Bool) : InGrid (mirrored n t) := by
  unfold mirrored
  split <;> omega

namespace EdgePoint

variable {p : Vec3} {a b : Nat} {na nb : Bool} {t : Int}

/-- A point off an edge lies on the face beyond it. -/
theorem faceOfVector_eq (h : EdgePoint p a na b nb t) (ha : a < 3) : faceOfVector p = faceOn a na := by
  have hlimit : (1 : ℚ) < 1 + 1 / 2 ^ 52 := by norm_num
  have hmajor : majorAxis p = a := h.finite.majorAxis_eq_of_largest ha fun c hc hne => by
    rw [h.off, abs_withSign, abs_of_pos (one_pos.trans hlimit)]
    exact (h.inside c hc hne).trans_lt hlimit
  have hsign : exactValue (component p a) < 0 ↔ na = true := by
    rw [h.off]
    cases na <;> norm_num [withSign]
  rw [Machine.faceOfVector_eq hmajor (h.finite.component a), faceOn]
  simp only [hsign]

/-- One of the two coordinates on the face beyond an edge is the one along the edge, kept or mirrored. -/
theorem exists_along (ha : a < 3) (hb : b < 3) (hne : b ≠ a) :
    ∃ first mirror : Bool, ∀ (p : Vec3) (t : Int), InGrid t → EdgePoint p a na b nb t →
      linearToIJ (if first then (xyzToFaceUV p).u else (xyzToFaceUV p).v) = mirrored mirror t := by
  obtain ⟨first, flip, hquot⟩ := exists_quotient ha hb hne na
  refine ⟨first, flip ^^ nb ^^ na, fun p t ht h => ?_⟩
  have hfin := h.finite.component b
  have hnum : isFinite (if flip then neg (component p b) else component p b) = true ∧
      exactValue (if flip then neg (component p b) else component p b) = withSign flip (withSign nb (centre t)) := by
    rw [← h.along]
    cases flip
    · exact ⟨hfin, rfl⟩
    · exact ⟨(isFinite_neg _).trans hfin, exactValue_neg hfin⟩
  have hzero : isZero (component p a) = false := by
    rw [Bool.eq_false_iff, ne_eq, ← exactValue_eq_zero_iff (h.finite.component a), h.off]
    cases na <;> norm_num [withSign]
  rw [xyzToFaceUV_of_face (h.faceOfVector_eq ha), hquot]
  refine linearToIJ_div_limit (inGrid_mirrored ht _) hnum.1 (h.finite.component a) ?_ hzero
  rw [hnum.2, h.off, withSign_div, centre_mirrored]

end EdgePoint

/-! ## The points of R154 -/

/-- One step off the grid, on either side. -/
theorem wrapCoordinate_off_grid {i : Int} (h : i < 0 ∨ 2 ^ 30 ≤ i) :
    isFinite (wrapCoordinate i) = true ∧
    exactValue (wrapCoordinate i) = withSign (decide (i < 0)) (1 + 1 / 2 ^ 52) := by
  rcases h with h | h
  · obtain ⟨hfin, hvalue⟩ := wrapCoordinate_exact (i := i) (c := -1) (by omega)
    rw [decide_eq_true h]
    exact ⟨hfin, hvalue.trans (by norm_num [withSign])⟩
  · obtain ⟨hfin, hvalue⟩ := wrapCoordinate_exact (i := i) (c := 2 ^ 30) (by omega)
    rw [decide_eq_false (by omega)]
    exact ⟨hfin, hvalue.trans (by norm_num [withSign])⟩

/-- The point of R154 for grid coordinates. -/
def wrapPoint (face : Nat) (i j : Int) : Vec3 := faceUVToXYZ face (wrapCoordinate i) (wrapCoordinate j)

/-- Two of the three components of a point stay within 1 where its third may lie off the edge. -/
theorem inside_of_axes {face : Nat} (hface : face < 6) {u v : U64} {a b : Nat}
    (hcases : ∀ c < 3, c = a ∨ c = b ∨ c = face % 3)
    (hb : |exactValue (component (faceUVToXYZ face u v) b)| ≤ 1) :
    ∀ c < 3, c ≠ a → |exactValue (component (faceUVToXYZ face u v) c)| ≤ 1 := by
  intro c hc hne
  rcases hcases c hc with rfl | rfl | rfl
  · exact absurd rfl hne
  · exact hb
  · exact (abs_exactValue_component_own hface u v).le

section Edges

variable {face : Nat} (hface : face < 6) {i j : Int}
include hface

/-- Off the left or the right edge, row `j` runs along it. -/
theorem edgePoint_of_off_u (hi : i < 0 ∨ 2 ^ 30 ≤ i) (hj : InGrid j) :
    EdgePoint (wrapPoint face i j) (uAxis face).1 ((uAxis face).2 ^^ decide (i < 0)) (vAxis face).1 (vAxis face).2 j := by
  obtain ⟨hu, huValue⟩ := wrapCoordinate_off_grid hi
  obtain ⟨hv, hvValue⟩ := wrapCoordinate_of_onGrid hj.1 hj.2
  have halong := exactValue_component_vAxis hface (wrapCoordinate i) hv
  rw [hvValue] at halong
  refine ⟨finiteVector_faceUVToXYZ hu hv face, ?_, halong, inside_of_axes hface (axis_cases face hface) ?_⟩
  · rw [withSign_xor, ← huValue]
    exact exactValue_component_uAxis hface hu _
  · rw [halong, abs_withSign]
    exact (abs_centre_le hj).trans (by norm_num)

/-- Off the lower or the upper edge, column `i` runs along it. -/
theorem edgePoint_of_off_v (hi : InGrid i) (hj : j < 0 ∨ 2 ^ 30 ≤ j) :
    EdgePoint (wrapPoint face i j) (vAxis face).1 ((vAxis face).2 ^^ decide (j < 0)) (uAxis face).1 (uAxis face).2 i := by
  obtain ⟨hu, huValue⟩ := wrapCoordinate_of_onGrid hi.1 hi.2
  obtain ⟨hv, hvValue⟩ := wrapCoordinate_off_grid hj
  have halong := exactValue_component_uAxis hface hu (wrapCoordinate j)
  rw [huValue] at halong
  refine ⟨finiteVector_faceUVToXYZ hu hv face, ?_, halong, inside_of_axes hface
    (fun c hc => or_left_comm.1 (axis_cases face hface c hc)) ?_⟩
  · rw [withSign_xor, ← hvValue]
    exact exactValue_component_vAxis hface _ hv
  · rw [halong, abs_withSign]
    exact (abs_centre_le hi).trans (by norm_num)

end Edges

end Sys2Proof.Machine
end

