-- ==== Sys2Proof/Proofs/NeighbourSquares.lean ====
section
/-! SUPPORT. Through the cube, the cells around a cell are told apart by the squares they have in the plane of its face:
points of the grid and up to one cell off one of its edges lead to the same cell only from the same square (R230, R235). -/

namespace Sys2Proof.Machine

/-- The cell of a level at grid coordinates, through the cube where they leave the face (R154, R230). -/
def cellThrough (face : Nat) (i j : Int) (lvl : Nat) : U64 := parent (fromFaceIJWrap generatedEntry face i j) lvl

theorem inGrid_linearToIJ (x : U64) : InGrid (linearToIJ x) := (onGrid_iff _).1 (onGrid_stToIJ _)

theorem cellThrough_eq (face : Nat) (i j : Int) (lvl : Nat) :
    cellThrough face i j lvl = parent (leafAt (xyzToFaceUV (wrapPoint face i j)).face
      (linearToIJ (xyzToFaceUV (wrapPoint face i j)).u) (linearToIJ (xyzToFaceUV (wrapPoint face i j)).v)) lvl := by
  rw [cellThrough, fromFaceIJWrap_eq_leafAt (f := xyzToFaceUV (wrapPoint face i j)) rfl]

theorem isCellAt_cellThrough (face : Nat) (i j : Int) {lvl : Nat} (hlvl : lvl ≤ 30) :
    isCellAt (cellThrough face i j lvl) lvl := by
  rw [cellThrough_eq]
  exact ((cellIndex_leafAt (faceOfVector_lt _) _ _).parent hlvl).isCellAt

theorem cellThrough_of_inGrid {face : Nat} (hface : face < 6) {i j : Int} (hi : InGrid i) (hj : InGrid j) (lvl : Nat) :
    cellThrough face i j lvl = parent (leafAt face i j) lvl := by
  rw [cellThrough, fromFaceIJWrap_of_onGrid _ hface hi.1 hi.2 hj.1 hj.2,
    fromFaceIJ_eq_leafAt _ ((onGrid_iff i).2 hi) ((onGrid_iff j).2 hj)]

/-! ## The sides of a face -/

/-- The face that coordinates lead to which lie on side `s` of the columns and side `t` of the rows: −1 below the grid, 0 on
it, 1 above it. -/
def faceToward (face : Nat) (s t : Int) : Nat :=
  if s ≠ 0 then faceOn (uAxis face).1 ((uAxis face).2 ^^ decide (s < 0))
  else if t ≠ 0 then faceOn (vAxis face).1 ((vAxis face).2 ^^ decide (t < 0))
  else face

/-- A face and its four edges, as sides. -/
def sides : List (Int × Int) := [(0, 0), (-1, 0), (1, 0), (0, -1), (0, 1)]

/-- The face itself and those beyond its four edges are five different faces. -/
theorem faceToward_injOn : ∀ face < 6, ∀ p ∈ sides, ∀ q ∈ sides,
    faceToward face p.1 p.2 = faceToward face q.1 q.2 → p = q := by decide

/-- Coordinates on the grid of a face or up to `n` off one of its edges. -/
structure AtFace (n i j : Int) : Prop where
  i_ge : -n ≤ i
  i_lt : i < 2 ^ 30 + n
  j_ge : -n ≤ j
  j_lt : j < 2 ^ 30 + n
  beside : InGrid i ∨ InGrid j

section Sides

variable {n i j : Int} {face : Nat} (hn : n ≤ 2 ^ 30) (h : AtFace n i j)
include hn h

theorem AtFace.sides_mem : (i / 2 ^ 30, j / 2 ^ 30) ∈ sides := by
  obtain ⟨hi, hi', hj, hj', hbeside⟩ := h
  simp only [sides, List.mem_cons, Prod.mk.injEq, List.not_mem_nil, or_false]
  omega

/-- The way through the cube from one step off an edge leads onto the face beyond it. -/
theorem AtFace.faceOfVector_wrapPoint (hface : face < 6) :
    faceOfVector (wrapPoint face i j) = faceToward face (i / 2 ^ 30) (j / 2 ^ 30) := by
  obtain ⟨hi, hi', hj, hj', hbeside⟩ := h
  by_cases hig : InGrid i
  · have hs : i / 2 ^ 30 = 0 := by omega
    by_cases hjg : InGrid j
    · have ht : j / 2 ^ 30 = 0 := by omega
      rw [hs, ht]
      exact faceOfVector_faceUVToXYZ (wrapCoordinate_of_onGrid hig.1 hig.2).1 (wrapCoordinate_of_onGrid hjg.1 hjg.2).1 hface
        (abs_wrapCoordinate_lt_one hig.1 hig.2) (abs_wrapCoordinate_lt_one hjg.1 hjg.2)
    · have ht : j / 2 ^ 30 ≠ 0 := by omega
      have hneg : j / 2 ^ 30 < 0 ↔ j < 0 := by omega
      rw [faceToward, if_neg (not_not.2 hs), if_pos ht, decide_eq_decide.2 hneg]
      exact (edgePoint_of_off_v hface hig (by omega)).faceOfVector_eq (axis_lt face hface).2.1
  · have hs : i / 2 ^ 30 ≠ 0 := by omega
    have hneg : i / 2 ^ 30 < 0 ↔ i < 0 := by omega
    rw [faceToward, if_pos hs, decide_eq_decide.2 hneg]
    exact (edgePoint_of_off_u hface (by omega) (hbeside.resolve_left hig)).faceOfVector_eq (axis_lt face hface).1

end Sides

/-! ## Squares -/

/-- Mirroring a face takes squares to squares. -/
theorem ediv_mirrored {n : Int} (hn : 0 < n) (hdvd : n ∣ 2 ^ 30) {t t' : Int} (m : Bool)
    (h : mirrored m t / n = mirrored m t' / n) : t / n = t' / n := by
  obtain ⟨q, hq⟩ := hdvd
  have hflip (t : Int) : (2 ^ 30 - 1 - t) / n = q - 1 - t / n := by
    have hdiv := Int.mul_ediv_add_emod t n
    have hmod := Int.emod_nonneg t hn.ne'
    have hlt := Int.emod_lt_of_pos t hn
    rw [show 2 ^ 30 - 1 - t = n - 1 - t % n + (q - 1 - t / n) * n by rw [hq]; linarith,
      Int.add_mul_ediv_right _ _ hn.ne', Int.ediv_eq_zero_of_lt (by omega) (by omega), zero_add]
  cases m
  · exact h
  · simp only [mirrored, if_true, hflip] at h
    omega

theorem linearToIJ_wrapPoint {face : Nat} (hface : face < 6) {i j : Int} (hi : InGrid i) (hj : InGrid j) :
    linearToIJ (xyzToFaceUV (wrapPoint face i j)).u = i ∧ linearToIJ (xyzToFaceUV (wrapPoint face i j)).v = j := by
  rw [wrapPoint, projectionRoundTripIsExact face _ _ hface (wrapCoordinate_of_onGrid hi.1 hi.2).1
    (wrapCoordinate_of_onGrid hj.1 hj.2).1 (abs_wrapCoordinate_lt_one hi.1 hi.2) (abs_wrapCoordinate_lt_one hj.1 hj.2)]
  exact ⟨linearToIJ_wrapCoordinate hi.1 hi.2, linearToIJ_wrapCoordinate hj.1 hj.2⟩

/-- Points off the same edge whose leaves lie in one square beyond it are in one square along it. -/
theorem EdgePoint.along_ediv_eq {p p' : Vec3} {a b : Nat} {na nb : Bool} {t t' n : Int} (ha : a < 3) (hb : b < 3)
    (hne : b ≠ a) (hn : 0 < n) (hdvd : n ∣ 2 ^ 30) (ht : InGrid t) (ht' : InGrid t') (hp : EdgePoint p a na b nb t)
    (hp' : EdgePoint p' a na b nb t')
    (hu : linearToIJ (xyzToFaceUV p).u / n = linearToIJ (xyzToFaceUV p').u / n)
    (hv : linearToIJ (xyzToFaceUV p).v / n = linearToIJ (xyzToFaceUV p').v / n) : t / n = t' / n := by
  obtain ⟨first, mirror, halong⟩ := exists_along (na := na) (nb := nb) ha hb hne
  have h := halong p t ht hp
  have h' := halong p' t' ht' hp'
  refine ediv_mirrored hn hdvd mirror ?_
  rw [← h, ← h']
  cases first
  · exact hv
  · exact hu

/-- Coordinates up to `n` off the same edge are in the same column or row of squares. -/
theorem ediv_eq_of_off {n i i' : Int} (hn : 0 < n) (hdvd : n ∣ 2 ^ 30) (hi : -n ≤ i ∧ i < 2 ^ 30 + n)
    (hi' : -n ≤ i' ∧ i' < 2 ^ 30 + n) (hoff : ¬ InGrid i) (hside : i / 2 ^ 30 = i' / 2 ^ 30) : i / n = i' / n := by
  obtain ⟨q, hq⟩ := hdvd
  have hquot {i : Int} (hlow : -n ≤ i) (hhigh : i < 2 ^ 30 + n) (hoff : ¬ InGrid i) :
      i / n = if i < 0 then -1 else q := by
    split
    · exact (Int.ediv_eq_iff_of_pos hn).2 ⟨by omega, by omega⟩
    · have hhigh' : 2 ^ 30 ≤ i := by omega
      exact (Int.ediv_eq_iff_of_pos hn).2 ⟨by linarith, by linarith⟩
  have hsign : i < 0 ↔ i' < 0 := by omega
  rw [hquot hi.1 hi.2 hoff, hquot hi'.1 hi'.2 (by omega), if_congr hsign rfl rfl]

/-- Points at a face that lead to one face lie on the same side. -/
theorem AtFace.sides_eq {n i j i' j' : Int} {face : Nat} (hn : n ≤ 2 ^ 30) (hface : face < 6) (h : AtFace n i j)
    (h' : AtFace n i' j') (hfaces : faceOfVector (wrapPoint face i j) = faceOfVector (wrapPoint face i' j')) :
    i / 2 ^ 30 = i' / 2 ^ 30 ∧ j / 2 ^ 30 = j' / 2 ^ 30 := by
  rw [h.faceOfVector_wrapPoint hn hface, h'.faceOfVector_wrapPoint hn hface] at hfaces
  exact Prod.ext_iff.1 (faceToward_injOn face hface _ (h.sides_mem hn) _ (h'.sides_mem hn) hfaces)

section SameSquare

variable {face : Nat} {n i j i' j' : Int} (hface : face < 6) (hn : 0 < n) (hdvd : n ∣ 2 ^ 30)
  (hu : linearToIJ (xyzToFaceUV (wrapPoint face i j)).u / n = linearToIJ (xyzToFaceUV (wrapPoint face i' j')).u / n)
  (hv : linearToIJ (xyzToFaceUV (wrapPoint face i j)).v / n = linearToIJ (xyzToFaceUV (wrapPoint face i' j')).v / n)
include hface hu hv

theorem ediv_eq_of_inGrid (hi : InGrid i) (hj : InGrid j) (hi' : InGrid i') (hj' : InGrid j') :
    i / n = i' / n ∧ j / n = j' / n := by
  obtain ⟨hui, hvj⟩ := linearToIJ_wrapPoint hface hi hj
  obtain ⟨hui', hvj'⟩ := linearToIJ_wrapPoint hface hi' hj'
  rw [hui, hui'] at hu
  rw [hvj, hvj'] at hv
  exact ⟨hu, hv⟩

include hn hdvd

theorem ediv_eq_of_off_u (hi : i < 0 ∨ 2 ^ 30 ≤ i) (hi' : i' < 0 ∨ 2 ^ 30 ≤ i') (hside : i < 0 ↔ i' < 0) (hj : InGrid j)
    (hj' : InGrid j') : j / n = j' / n := by
  obtain ⟨haxis, halong, hne⟩ := axis_lt face hface
  have hedge' := edgePoint_of_off_u hface hi' hj'
  rw [← decide_eq_decide.2 hside] at hedge'
  exact (edgePoint_of_off_u hface hi hj).along_ediv_eq haxis halong hne.symm hn hdvd hj hj' hedge' hu hv

theorem ediv_eq_of_off_v (hi : InGrid i) (hi' : InGrid i') (hj : j < 0 ∨ 2 ^ 30 ≤ j) (hj' : j' < 0 ∨ 2 ^ 30 ≤ j')
    (hside : j < 0 ↔ j' < 0) : i / n = i' / n := by
  obtain ⟨halong, haxis, hne⟩ := axis_lt face hface
  have hedge' := edgePoint_of_off_v hface hi' hj'
  rw [← decide_eq_decide.2 hside] at hedge'
  exact (edgePoint_of_off_v hface hi hj).along_ediv_eq haxis halong hne hn hdvd hi hi' hedge' hu hv

end SameSquare

/-- Around a face the same cell is reached only from the same square of the face's plane. -/
theorem ediv_eq_of_cellThrough_eq {face lvl : Nat} (hface : face < 6) (hlvl : lvl ≤ 30) {n i j i' j' : Int}
    (hn : n = 2 ^ (30 - lvl)) (hp : AtFace n i j) (hp' : AtFace n i' j')
    (h : cellThrough face i j lvl = cellThrough face i' j' lvl) : i / n = i' / n ∧ j / n = j' / n := by
  have hpos : 0 < n := by rw [hn]; positivity
  have hdvd : n ∣ 2 ^ 30 := by rw [hn]; exact pow_dvd_pow 2 (by omega)
  rw [cellThrough_eq, cellThrough_eq] at h
  obtain ⟨hfaces, hu, hv⟩ := square_eq_of_parent_leafAt_eq (faceOfVector_lt _) (faceOfVector_lt _) hlvl (inGrid_linearToIJ _)
    (inGrid_linearToIJ _) (inGrid_linearToIJ _) (inGrid_linearToIJ _) h
  rw [← hn] at hu hv
  obtain ⟨hsi, hsj⟩ := hp.sides_eq (Int.le_of_dvd (by positivity) hdvd) hface hp' hfaces
  obtain ⟨hi, hi', hj, hj', hbeside⟩ := hp
  obtain ⟨gi, gi', gj, gj', -⟩ := hp'
  by_cases hig : InGrid i
  · by_cases hjg : InGrid j
    · exact ediv_eq_of_inGrid hface hu hv hig hjg (by omega) (by omega)
    · exact ⟨ediv_eq_of_off_v hface hpos hdvd hu hv hig (by omega) (by omega) (by omega) (by omega),
        ediv_eq_of_off hpos hdvd ⟨hj, hj'⟩ ⟨gj, gj'⟩ hjg hsj⟩
  · exact ⟨ediv_eq_of_off hpos hdvd ⟨hi, hi'⟩ ⟨gi, gi'⟩ hig hsi,
      ediv_eq_of_off_u hface hpos hdvd hu hv (by omega) (by omega) (by omega) (by omega) (by omega)⟩

/-- A whole number of squares away from a point of the grid, at most one, and beside the face. -/
theorem AtFace.of_offset {n i j a b : Int} (hi : InGrid i) (hj : InGrid j) (hn : 0 < n) (ha : a = -1 ∨ a = 0 ∨ a = 1)
    (hb : b = -1 ∨ b = 0 ∨ b = 1) (hbeside : InGrid (i + a * n) ∨ InGrid (j + b * n)) :
    AtFace n (i + a * n) (j + b * n) := by
  rcases ha with rfl | rfl | rfl <;> rcases hb with rfl | rfl | rfl <;> constructor <;> omega

theorem isCellAt_of_mem_cellThrough_offsets (face : Nat) {lvl : Nat} (hlvl : lvl ≤ 30) (n i j : Int)
    (offsets : List (Int × Int)) :
    ∀ w ∈ offsets.map fun o => cellThrough face (i + o.1 * n) (j + o.2 * n) lvl, isCellAt w lvl :=
  List.forall_mem_map.2 fun _ _ => isCellAt_cellThrough face _ _ hlvl

/-- The cells of different squares around a face are different. -/
theorem nodup_cellThrough_offsets {face lvl : Nat} (hface : face < 6) (hlvl : lvl ≤ 30) {n i j : Int}
    (hn : n = 2 ^ (30 - lvl)) {offsets : List (Int × Int)} (hnodup : offsets.Nodup)
    (hat : ∀ o ∈ offsets, AtFace n (i + o.1 * n) (j + o.2 * n)) :
    (offsets.map fun o => cellThrough face (i + o.1 * n) (j + o.2 * n) lvl).Nodup := by
  have hn0 : n ≠ 0 := by rw [hn]; positivity
  refine hnodup.map_on fun o ho o' ho' h => ?_
  obtain ⟨hi, hj⟩ := ediv_eq_of_cellThrough_eq hface hlvl hn (hat o ho) (hat o' ho') h
  rw [Int.add_mul_ediv_right _ _ hn0, Int.add_mul_ediv_right _ _ hn0] at hi hj
  exact Prod.ext (Int.add_left_cancel hi) (Int.add_left_cancel hj)

end Sys2Proof.Machine
end

