-- ==== Sys2Proof/Proofs/EdgeAndVertexNeighbours.lean ====
section
/-! SUPPORT. The candidates of EDGE_NBRS and VERTEX_NBRS as cells through the cube at whole numbers of squares from the cell,
and the statements about the two commands (R230 to R233, R235, R237). -/

namespace Sys2Proof.Machine

/-! ## Candidates -/

/-- On the grid the way on the face and the way through the cube agree, so a candidate is the cell through the cube (R154,
R230). -/
theorem candidate_eq_cellThrough {face : Nat} (hface : face < 6) {i j : Int} {same : Bool}
    (h : same = true → InGrid i ∧ InGrid j) (lvl : Nat) :
    candidate generatedEntry face i j same lvl = cellThrough face i j lvl := by
  cases same
  · rfl
  · obtain ⟨hi, hj⟩ := h rfl
    rw [candidate, cellThrough, fromFaceIJWrap_of_onGrid _ hface hi.1 hi.2 hj.1 hj.2]
    rfl

theorem candidate_decide {face : Nat} (hface : face < 6) {i j : Int} {c : Prop} [Decidable c] (h : c → InGrid i ∧ InGrid j)
    (lvl : Nat) : candidate generatedEntry face i j (decide c) lvl = cellThrough face i j lvl :=
  candidate_eq_cellThrough hface (fun hc => h (of_decide_eq_true hc)) lvl

/-- A cell a whole number of squares away that stays on the face is the square there. -/
theorem inSquare_cellThrough {face lvl : Nat} (hface : face < 6) (hlvl : lvl ≤ 30) {n i j a b : Int}
    (hn : n = 2 ^ (30 - lvl)) (hi : InGrid (i + a * n)) (hj : InGrid (j + b * n)) :
    inSquare generatedEntry (cellThrough face (i + a * n) (j + b * n) lvl) face n (i / n + a) (j / n + b) := by
  have hn0 : n ≠ 0 := by rw [hn]; positivity
  have hsquare := inSquare_parent_leafAt hface hlvl hi hj
  rw [← hn, Int.add_mul_ediv_right _ _ hn0, Int.add_mul_ediv_right _ _ hn0] at hsquare
  rwa [cellThrough_of_inGrid hface hi hj]

/-- What the neighbour commands use of a decoded cell: a face, a point of its grid, and that the cell and its ancestors are
the cells there. -/
structure Decoded (x : U64) (d : FaceIJO) : Prop where
  face_lt : d.face < 6
  i_mem : InGrid d.i
  j_mem : InGrid d.j
  parent_eq : ∀ lvl, parent x lvl = cellThrough d.face d.i d.j lvl

theorem decoded_of_valid {x : U64} (hvalid : valid x = true) : Decoded x (toFaceIJO generatedEntry x) := by
  have hface := faceField_lt_of_valid hvalid
  obtain ⟨hi, hj, -⟩ := leafAt_toFaceIJO hface
  refine ⟨hface, hi, hj, fun lvl => ?_⟩
  rw [← parent_leafAt_toFaceIJO hface]
  exact (cellThrough_of_inGrid hface hi hj lvl).symm

theorem parent_level_self {x : U64} (hvalid : valid x = true) : parent x (level x) = x := by
  obtain ⟨m, hm⟩ := exists_cellIndex ⟨hvalid, rfl⟩
  exact hm.parent_self

theorem sizeIJ_eq (lvl : Nat) : sizeIJ lvl = 2 ^ (30 - lvl) := rfl

/-! ## EDGE_NBRS -/

/-- The cell itself and the squares S, E, N, W of it, in squares (R232). -/
def edgeOffsets : List (Int × Int) := [(0, 0), (0, -1), (1, 0), (0, 1), (-1, 0)]

theorem map_edgeOffsets (face lvl : Nat) (n i j : Int) :
    (edgeOffsets.map fun o => cellThrough face (i + o.1 * n) (j + o.2 * n) lvl) =
      [cellThrough face i j lvl, cellThrough face i (j - n) lvl, cellThrough face (i + n) j lvl,
       cellThrough face i (j + n) lvl, cellThrough face (i - n) j lvl] := by
  simp only [edgeOffsets, List.map_cons, List.map_nil, zero_mul, add_zero, one_mul, neg_one_mul, ← sub_eq_add_neg]

theorem edgeOffsets_atFace {n i j : Int} (hn : 0 < n) (hi : InGrid i) (hj : InGrid j) :
    ∀ o ∈ edgeOffsets, AtFace n (i + o.1 * n) (j + o.2 * n) := by
  intro o ho
  have hcases : (o.1 = 0 ∧ (o.2 = -1 ∨ o.2 = 0 ∨ o.2 = 1)) ∨ (o.2 = 0 ∧ (o.1 = -1 ∨ o.1 = 0 ∨ o.1 = 1)) := by
    revert o; decide
  rcases hcases with ⟨h1, h2⟩ | ⟨h2, h1⟩
  · exact .of_offset hi hj hn (by simp [h1]) h2 (.inl (by simpa [h1] using hi))
  · exact .of_offset hi hj hn h1 (by simp [h2]) (.inr (by simpa [h2] using hj))

/-- EDGE_NBRS answers the cells through the cube at the four squares beside the cell. -/
theorem edgeNbrs_eq_cellThrough {x : U64} {d : FaceIJO} (hd : toFaceIJO generatedEntry x = d) (h : Decoded x d) {n : Int}
    (hn : n = 2 ^ (30 - level x)) :
    edgeNbrs generatedEntry x =
      [cellThrough d.face d.i (d.j - n) (level x), cellThrough d.face (d.i + n) d.j (level x),
       cellThrough d.face d.i (d.j + n) (level x), cellThrough d.face (d.i - n) d.j (level x)] := by
  obtain ⟨hface, hi, hj, -⟩ := h
  have hpos : 0 < n := by rw [hn]; positivity
  have hmax : Config.maxSize = 2 ^ 30 := rfl
  simp only [edgeNbrs, sizeIJ_eq, ← hn, hd]
  rw [candidate_decide hface, candidate_decide hface, candidate_decide hface, candidate_decide hface] <;> omega

theorem exec_edgeNbrs {s : State} (hvalid : valid s.opa = true) :
    exec .edgeNbrs s = .next (replied s .ok (edgeNbrs s.tblRead s.opa)) :=
  respond_requireCell_of_valid hvalid s _

/-- Settles O58: the cell and its neighbours are five squares in the plane of the face. -/
theorem edgeNeighboursAreCellsOfTheLevel : Obligations.EdgeNeighboursAreCellsOfTheLevel := by
  intro s d n hop hvalid hd hn
  have hdec := decoded_of_valid hvalid
  have hexec := exec_edgeNbrs hvalid
  rw [tblRead_eq_generatedEntry hop] at hd hexec ⊢
  rw [← hd] at hdec
  rw [edgeNbrs_eq_cellThrough hd.symm hdec hn] at hexec
  obtain ⟨hface, hi, hj, hparent⟩ := hdec
  have hlvl := level_le s.opa
  have hpos : 0 < n := by rw [hn]; positivity
  have hsquare (a b : Int) := inSquare_cellThrough hface hlvl hn (i := d.i) (j := d.j) (a := a) (b := b)
  have hself : s.opa = cellThrough d.face d.i d.j (level s.opa) := (parent_level_self hvalid).symm.trans (hparent _)
  have hnodup := nodup_cellThrough_offsets hface hlvl hn (by decide) (edgeOffsets_atFace hpos hi hj)
  have hcells := isCellAt_of_mem_cellThrough_offsets d.face hlvl n d.i d.j edgeOffsets
  rw [map_edgeOffsets, ← hself] at hnodup hcells
  refine ⟨_, _, _, _, hexec, rfl, rfl, rfl, rfl, (List.forall_mem_cons.1 hcells).2, hnodup, fun h => ?_, fun h => ?_,
    fun h => ?_, fun h => ?_⟩
  · simpa [← sub_eq_add_neg] using hsquare 0 (-1) (by omega) (by omega)
  · simpa using hsquare 1 0 (by omega) (by omega)
  · simpa using hsquare 0 1 (by omega) (by omega)
  · simpa [← sub_eq_add_neg] using hsquare (-1) 0 (by omega) (by omega)

/-! ## VERTEX_NBRS -/

/-- The step towards the nearer vertex on one axis, in squares (R233). -/
def vertexStep (i half : Int) : Int := if i / half % 2 = 1 then 1 else -1

theorem vertexStep_cases (i half : Int) : vertexStep i half = 1 ∨ vertexStep i half = -1 := by
  unfold vertexStep
  split_ifs <;> simp

/-- The flag of an axis says whether the step stays on the face. -/
theorem vertexOffset_eq {i half n : Int} (hi : InGrid i) (hhalf : 0 < half) (hn : n = 2 * half) :
    vertexOffset i half = (vertexStep i half * n, decide (InGrid (i + vertexStep i half * n))) := by
  have hmax : Config.maxSize = 2 ^ 30 := rfl
  unfold vertexOffset vertexStep
  split_ifs
  · rw [one_mul, hn, decide_eq_decide.2 (show i + 2 * half < Config.maxSize ↔ InGrid (i + 2 * half) by omega)]
  · rw [neg_one_mul, hn, decide_eq_decide.2 (show 0 ≤ i - 2 * half ↔ InGrid (i + -(2 * half)) by omega)]

/-- A square from which a step leaves the face touches that edge (R237 (e)). -/
theorem touches_edge {n i a : Int} (hn : 0 < n) (hdvd : n ∣ 2 ^ 30) (hi : InGrid i) (ha : a = 1 ∨ a = -1)
    (hoff : ¬ InGrid (i + a * n)) : i / n = 0 ∨ (i / n + 1) * n = 2 ^ 30 := by
  obtain ⟨q, hq⟩ := hdvd
  rcases ha with rfl | rfl
  · have hlast : i / n = q - 1 := (Int.ediv_eq_iff_of_pos hn).2 (by
      have hlow : 2 ^ 30 ≤ i + n := by omega
      have hhigh : i < 2 ^ 30 := hi.2
      exact ⟨by linarith, by linarith⟩)
    right
    rw [hlast, hq]
    ring
  · exact .inl (Int.ediv_eq_zero_of_lt hi.1 (by omega))

section Vertex

variable {d : FaceIJO} {lvl : Nat} {n a b : Int}

/-- VERTEX_NBRS answers the ancestor and the cells through the cube one step away in i, in j and, unless both steps leave the
face, in both. -/
theorem vertexNbrs_eq_cellThrough {x : U64} (hd : toFaceIJO generatedEntry x = d) (h : Decoded x d) (hlvl : lvl < 30)
    (hn : n = 2 ^ (30 - lvl)) (ha : a = vertexStep d.i (2 ^ (29 - lvl))) (hb : b = vertexStep d.j (2 ^ (29 - lvl))) :
    vertexNbrs generatedEntry x lvl =
      [parent x lvl, cellThrough d.face (d.i + a * n) d.j lvl, cellThrough d.face d.i (d.j + b * n) lvl] ++
      if InGrid (d.i + a * n) ∨ InGrid (d.j + b * n) then [cellThrough d.face (d.i + a * n) (d.j + b * n) lvl] else [] := by
  obtain ⟨hface, hi, hj, -⟩ := h
  have hhalf : sizeIJ (lvl + 1) = 2 ^ (29 - lvl) := by rw [sizeIJ_eq]; congr 1; omega
  have hn2 : n = 2 * 2 ^ (29 - lvl) := by rw [hn, ← pow_succ']; congr 1; omega
  have hpos : (0 : Int) < 2 ^ (29 - lvl) := by positivity
  simp only [vertexNbrs, hd, hhalf, vertexOffset_eq hi hpos hn2, vertexOffset_eq hj hpos hn2, ← ha, ← hb,
    ← Bool.decide_or, ← Bool.decide_and, decide_eq_true_eq]
  rw [candidate_decide hface fun h => ⟨h, hj⟩, candidate_decide hface fun h => ⟨hi, h⟩, candidate_decide hface id]

/-- The ancestor's square and those that VERTEX_NBRS steps to, in squares. -/
def vertexOffsets (a b : Int) (diagonal : Prop) [Decidable diagonal] : List (Int × Int) :=
  [(0, 0), (a, 0), (0, b)] ++ if diagonal then [(a, b)] else []

theorem map_vertexOffsets (face : Nat) (i j : Int) (diagonal : Prop) [Decidable diagonal] :
    ((vertexOffsets a b diagonal).map fun o => cellThrough face (i + o.1 * n) (j + o.2 * n) lvl) =
      [cellThrough face i j lvl, cellThrough face (i + a * n) j lvl, cellThrough face i (j + b * n) lvl] ++
      if diagonal then [cellThrough face (i + a * n) (j + b * n) lvl] else [] := by
  simp only [vertexOffsets, List.map_append, apply_ite (List.map _), List.map_cons, List.map_nil, zero_mul, add_zero]

theorem vertexOffsets_nodup (ha : a = 1 ∨ a = -1) (hb : b = 1 ∨ b = -1) (diagonal : Prop) [Decidable diagonal] :
    (vertexOffsets a b diagonal).Nodup := by
  unfold vertexOffsets
  rcases ha with rfl | rfl <;> rcases hb with rfl | rfl <;> split_ifs <;> decide

theorem vertexOffsets_atFace {i j : Int} (hpos : 0 < n) (hi : InGrid i) (hj : InGrid j) (ha : a = 1 ∨ a = -1)
    (hb : b = 1 ∨ b = -1) :
    ∀ o ∈ vertexOffsets a b (InGrid (i + a * n) ∨ InGrid (j + b * n)), AtFace n (i + o.1 * n) (j + o.2 * n) := by
  have hi0 : InGrid (i + 0 * n) := by rwa [zero_mul, add_zero]
  have hj0 : InGrid (j + 0 * n) := by rwa [zero_mul, add_zero]
  intro o ho
  rcases List.mem_append.1 ho with ho | ho
  · simp only [List.mem_cons, List.not_mem_nil, or_false] at ho
    rcases ho with rfl | rfl | rfl
    · exact .of_offset hi hj hpos (by simp) (by simp) (.inl hi0)
    · exact .of_offset hi hj hpos (by omega) (by simp) (.inr hj0)
    · exact .of_offset hi hj hpos (by simp) (by omega) (.inl hi0)
  · split_ifs at ho with hdiagonal
    · obtain rfl := List.mem_singleton.1 ho
      exact .of_offset hi hj hpos (by omega) (by omega) hdiagonal
    · nomatch ho

end Vertex

theorem exec_vertexNbrs {s : State} {lvl : Nat} (hvalid : valid s.opa = true) (h : lvl < level s.opa) :
    exec (.vertexNbrs lvl) s = .next (replied s .ok (vertexNbrs s.tblRead s.opa lvl)) :=
  respond_requireLevel_of_relation hvalid (h.le.trans (level_le _)) (decide_eq_true h) s _

theorem ite_neg_eq_vertexStep_mul (i half n : Int) : (if i / half % 2 = 1 then n else -n) = vertexStep i half * n := by
  unfold vertexStep
  split_ifs
  · rw [one_mul]
  · rw [neg_one_mul]

/-- Settles O59: the ancestor and its neighbours are squares in the plane of the face. -/
theorem vertexNeighboursAreCellsOfTheLevel : Obligations.VertexNeighboursAreCellsOfTheLevel := by
  intro s lvl d n oi oj hop hvalid hlevel hd hn hoi hoj
  have hlvl : lvl < 30 := hlevel.trans_le (level_le _)
  obtain ⟨a, ha⟩ : ∃ a, a = vertexStep d.i (2 ^ (29 - lvl)) := ⟨_, rfl⟩
  obtain ⟨b, hb⟩ : ∃ b, b = vertexStep d.j (2 ^ (29 - lvl)) := ⟨_, rfl⟩
  rw [ite_neg_eq_vertexStep_mul, ← ha] at hoi
  rw [ite_neg_eq_vertexStep_mul, ← hb] at hoj
  have hdec := decoded_of_valid hvalid
  have hexec := exec_vertexNbrs hvalid hlevel
  rw [tblRead_eq_generatedEntry hop] at hd hexec ⊢
  rw [← hd] at hdec
  rw [vertexNbrs_eq_cellThrough hd.symm hdec hlvl hn ha hb] at hexec
  obtain ⟨hface, hi, hj, hparent⟩ := hdec
  have hpos : 0 < n := by rw [hn]; positivity
  have hdvd : n ∣ 2 ^ 30 := by rw [hn]; exact pow_dvd_pow 2 (by omega)
  have hastep : a = 1 ∨ a = -1 := ha ▸ vertexStep_cases _ _
  have hbstep : b = 1 ∨ b = -1 := hb ▸ vertexStep_cases _ _
  have hsquare (a b : Int) := inSquare_cellThrough hface hlvl.le hn (i := d.i) (j := d.j) (a := a) (b := b)
  have hnodup := nodup_cellThrough_offsets hface hlvl.le hn (vertexOffsets_nodup hastep hbstep _)
    (vertexOffsets_atFace hpos hi hj hastep hbstep)
  have hcells := isCellAt_of_mem_cellThrough_offsets d.face hlvl.le n d.i d.j
    (vertexOffsets a b (InGrid (d.i + a * n) ∨ InGrid (d.j + b * n)))
  rw [map_vertexOffsets, ← hparent] at hnodup hcells
  rw [hoi, hoj]
  refine ⟨_, _, _, hexec, rfl, rfl, fun h => if_pos h, fun h => ?_, hcells, hnodup, fun h => ?_, fun h => ?_⟩
  · exact ⟨if_neg (not_or.2 h), touches_edge hpos hdvd hi hastep h.1, touches_edge hpos hdvd hj hbstep h.2⟩
  · rw [Int.add_mul_ediv_right _ _ hpos.ne']
    simpa using hsquare _ 0 h (by simpa using hj)
  · rw [Int.add_mul_ediv_right _ _ hpos.ne']
    simpa using hsquare 0 _ (by simpa using hi) h

end Sys2Proof.Machine
end

