-- ==== Sys2Proof/Proofs/AllNeighbours.lean ====
section
/-! SUPPORT. The iterations of the ALL_NBRS loop as a list, the number of its words, and the statement that it streams cells
of the level (R234 to R237). -/

namespace Sys2Proof.Machine

/-! ## The words of an iteration -/

/-- The loop's flag `same` says that row `j + k` is on the face. -/
theorem inGrid_of_loopSame {l : NbrLoop} (hsize : 0 < l.size) (hj : 0 ≤ l.j) (hj' : l.j + l.size ≤ 2 ^ 30)
    (h : loopSame l = true) : InGrid (l.j + l.k) := by
  have hmax : Config.maxSize = 2 ^ 30 := rfl
  unfold loopSame at h
  split_ifs at h
  · have := of_decide_eq_true h
    omega
  · have := of_decide_eq_true h
    omega
  · omega

theorem isCellAt_candidate {face : Nat} (hface : face < 6) {i j : Int} {same : Bool}
    (h : same = true → InGrid i ∧ InGrid j) {lvl : Nat} (hlvl : lvl ≤ 30) :
    isCellAt (candidate generatedEntry face i j same lvl) lvl := by
  rw [candidate_eq_cellThrough hface h]
  exact isCellAt_cellThrough face i j hlvl

/-- The loop at another value of k. -/
def loopAt (l : NbrLoop) (k : Int) : NbrLoop := { l with k := k }

/-- Every word of an iteration is a cell of the level, at any k: where a flag is set, its coordinates are on the face. -/
theorem isCellAt_of_mem_loopWords {l : NbrLoop} (h : LoopOk (loopAt l 0)) (hns : l.ns ≤ l.size) :
    ∀ w ∈ loopWords generatedEntry l, isCellAt w l.level := by
  obtain ⟨hface, hlvl, hpos, -, -, -, -, hi, hi', hj, hj'⟩ := h
  dsimp only [loopAt] at *
  have hmax : Config.maxSize = 2 ^ 30 := rfl
  have hrow := inGrid_of_loopSame (l := l) (by omega) hj hj'
  have hcell {i j : Int} {same : Bool} (hon : same = true → InGrid i ∧ InGrid j) := isCellAt_candidate hface hon hlvl
  refine List.forall_mem_append.2 ⟨?_, ?_⟩
  · split_ifs
    · have hbelow := hcell (i := l.i + l.k) (j := l.j - l.ns) (same := decide (0 ≤ l.j - l.size)) fun h =>
        have := of_decide_eq_true h; by omega
      have habove := hcell (i := l.i + l.k) (j := l.j + l.size) (same := decide (l.j + l.size < Config.maxSize)) fun h =>
        have := of_decide_eq_true h; by omega
      exact List.forall_mem_cons.2 ⟨hbelow, List.forall_mem_singleton.2 habove⟩
    · nofun
  · have hleft := hcell (i := l.i - l.ns) (j := l.j + l.k) (same := loopSame l && decide (0 ≤ l.i - l.size)) fun h => by
      obtain ⟨hsame, hside⟩ := Bool.and_eq_true_iff.1 h
      have := of_decide_eq_true hside
      exact ⟨by omega, hrow hsame⟩
    have hright := hcell (i := l.i + l.size) (j := l.j + l.k)
        (same := loopSame l && decide (l.i + l.size < Config.maxSize)) fun h => by
      obtain ⟨hsame, hside⟩ := Bool.and_eq_true_iff.1 h
      have := of_decide_eq_true hside
      exact ⟨by omega, hrow hsame⟩
    exact List.forall_mem_cons.2 ⟨hleft, List.forall_mem_singleton.2 hright⟩

theorem length_loopWords (rd : TableReader) (l : NbrLoop) :
    (loopWords rd l).length = if 0 ≤ l.k ∧ l.k < l.size then 4 else 2 := by
  unfold loopWords
  split_ifs <;> rfl

/-- A loop with `m` steps to go makes `m + 1` iterations, at k, k + ns, …, size. -/
theorem loopDrain_eq_flatMap (rd : TableReader) {l : NbrLoop} (hns : 0 < l.ns) {k : Int} {m : Nat}
    (hm : l.size = k + m * l.ns) :
    loopDrain rd (m + 1) (loopAt l k) =
      (List.range (m + 1)).flatMap fun (n : Nat) => loopWords rd (loopAt l (k + n * l.ns)) := by
  induction m generalizing k with
  | zero =>
    have hlast : loopNext (loopAt l k) = none := if_pos (show l.size ≤ k by simp [hm])
    simp [loopDrain, hlast]
  | succ m ih =>
    push_cast at hm
    have hnext : loopNext (loopAt l k) = some (loopAt l (k + l.ns)) :=
      if_neg (show ¬ l.size ≤ k by rw [hm]; nlinarith)
    have hshift (n : Nat) : k + (n + 1 : Nat) * l.ns = k + l.ns + n * l.ns := by push_cast; ring
    rw [List.range_succ_eq_map, List.flatMap_cons, List.flatMap_map, loopDrain, hnext]
    simp only [ih (k := k + l.ns) (by rw [hm]; ring), Nat.succ_eq_add_one, hshift, Nat.cast_zero, zero_mul, add_zero]

/-- `m` fours between two twos. -/
theorem sum_map_four_between_two (m : Nat) :
    ((List.range (m + 2)).map fun n => if 1 ≤ n ∧ n < m + 1 then 4 else 2).sum = 4 * m + 4 := by
  have hmiddle : (List.range m).map (fun n => if 1 ≤ n + 1 ∧ n + 1 < m + 1 then 4 else 2) = List.replicate m 4 := by
    rw [List.eq_replicate_iff, List.length_map, List.length_range]
    refine ⟨rfl, List.forall_mem_map.2 fun n hn => if_pos ?_⟩
    have := List.mem_range.1 hn
    omega
  rw [List.range_succ, List.map_append, List.sum_append, List.range_succ_eq_map, List.map_cons, List.map_map,
    List.sum_cons]
  simp only [Function.comp_def, Nat.succ_eq_add_one, hmiddle, List.sum_replicate, List.map_cons, List.map_nil,
    List.sum_cons, List.sum_nil, smul_eq_mul, lt_self_iff_false, and_false, nonpos_iff_eq_zero, one_ne_zero, false_and,
    if_false]
  omega

theorem sizeIJ_eq_mul {a b : Nat} (h : a ≤ b) (hb : b ≤ 30) : sizeIJ a = ((2 ^ (b - a) : Nat) : Int) * sizeIJ b := by
  rw [sizeIJ_eq, sizeIJ_eq, Nat.cast_pow, Nat.cast_ofNat, ← pow_add]
  congr 1
  omega

section Stream

variable {x : U64} {lvl : Nat} (hle : level x ≤ lvl) (hlvl : lvl ≤ 30)

theorem allNbrs_eq (rd : TableReader) (x : U64) (lvl : Nat) :
    allNbrs rd x lvl = (List.range (2 ^ (lvl - level x) + 2)).flatMap fun (n : Nat) =>
      loopWords rd (loopAt (allNbrsStart rd x lvl) (n * sizeIJ lvl - sizeIJ lvl)) := rfl

include hle hlvl

/-- The stream is the list of R234: the iteration at k = −ns, then those from k = 0 on. -/
theorem pendingWords_streamFrom_start (rd : TableReader) (header : Bool) :
    pendingWords rd (streamFrom rd header (allNbrsStart rd x lvl)) = allNbrs rd x lvl := by
  have hns := sizeIJ_pos lvl
  have hsize : sizeIJ (level x) = 0 + ((2 ^ (lvl - level x) : Nat) : Int) * sizeIJ lvl := by
    rw [zero_add, sizeIJ_eq_mul hle hlvl]
  have hleft : loopLeft (loopAt (allNbrsStart rd x lvl) 0) = 2 ^ (lvl - level x) + 1 := by
    change ((sizeIJ (level x) - 0) / sizeIJ lvl).toNat + 1 = _
    rw [sub_zero, hsize, zero_add, Int.mul_ediv_cancel _ hns.ne', Int.toNat_natCast]
  have hstart : allNbrsStart rd x lvl = loopAt (allNbrsStart rd x lvl) ((0 : Nat) * sizeIJ lvl - sizeIJ lvl) := by
    simp [loopAt, allNbrsStart]
  have hshift (n : Nat) : ((n + 1 : Nat) : Int) * sizeIJ lvl - sizeIJ lvl = 0 + n * sizeIJ lvl := by push_cast; ring
  have hdrain := loopDrain_eq_flatMap rd (l := allNbrsStart rd x lvl) hns hsize
  have hnext : loopNext (allNbrsStart rd x lvl) = some (loopAt (allNbrsStart rd x lvl) 0) := loopNext_start rd x lvl
  rw [allNbrs_eq, List.range_succ_eq_map, List.flatMap_cons, List.flatMap_map, ← hstart, pendingWords, streamFrom, hnext]
  simp only [hleft, hdrain, Nat.succ_eq_add_one, hshift]
  rfl

/-- Two words before the rows of the cell, four in each of them, and two after (R235). -/
theorem length_allNbrs (rd : TableReader) : (allNbrs rd x lvl).length = 4 * 2 ^ (lvl - level x) + 4 := by
  have hns := sizeIJ_pos lvl
  have hk (n : Nat) : (loopWords rd (loopAt (allNbrsStart rd x lvl) (n * sizeIJ lvl - sizeIJ lvl))).length =
      if 1 ≤ n ∧ n < 2 ^ (lvl - level x) + 1 then 4 else 2 := by
    have hlow : 0 ≤ (n : Int) * sizeIJ lvl - sizeIJ lvl ↔ 1 ≤ n := by
      rw [← sub_one_mul, mul_nonneg_iff_of_pos_right hns]
      omega
    have hhigh : (n : Int) * sizeIJ lvl - sizeIJ lvl < sizeIJ (level x) ↔ n < 2 ^ (lvl - level x) + 1 := by
      rw [sizeIJ_eq_mul hle hlvl, ← sub_one_mul, mul_lt_mul_iff_left₀ hns]
      omega
    rw [length_loopWords]
    exact if_congr (and_congr hlow hhigh) rfl rfl
  simp only [allNbrs_eq, List.length_flatMap, hk]
  exact sum_map_four_between_two _

theorem isCellAt_of_mem_allNbrs (hvalid : valid x = true) : ∀ w ∈ allNbrs generatedEntry x lvl, isCellAt w lvl := by
  intro w hw
  rw [allNbrs_eq] at hw
  obtain ⟨n, -, hword⟩ := List.mem_flatMap.1 hw
  exact isCellAt_of_mem_loopWords (l := loopAt (allNbrsStart generatedEntry x lvl) (n * sizeIJ lvl - sizeIJ lvl))
    (loopOk_after_start (fun _ => rfl) hvalid hle hlvl) (Int.le_of_dvd (sizeIJ_pos _) (sizeIJ_dvd hle)) w hword

end Stream

theorem exec_allNbrs {s : State} (hvalid : valid s.opa = true) {lvl : Nat} (hle : level s.opa ≤ lvl) (hlvl : lvl ≤ 30) :
    exec (.allNbrs lvl) s = .next (s.beginResponse (streamFrom s.tblRead true (allNbrsStart s.tblRead s.opa lvl))) := by
  simp only [exec, execAllNbrs, requireCell_of_valid _ hvalid, requireLevel_of_le _ hlvl, requireRelation,
    decide_eq_true hle, require_true]
  rfl

/-- Settles O60: the loop runs through k = −ns, 0, ns, …, size, and each candidate is a cell of the level. -/
theorem allNeighboursStreamTheList : Obligations.AllNeighboursStreamTheList := by
  intro s lvl hop hvalid hle hlvl
  have hwords := pendingWords_streamFrom_start hle hlvl s.tblRead true
  refine ⟨_, exec_allNbrs hvalid hle hlvl, rfl, rfl, hwords, ?_, ?_⟩ <;> rw [hwords]
  · exact length_allNbrs hle hlvl _
  · rw [tblRead_eq_generatedEntry hop]
    exact isCellAt_of_mem_allNbrs hle hlvl hvalid

end Sys2Proof.Machine
end

