-- ==== Sys2Proof/Proofs/FailingResponses.lean ====
section
/-! SUPPORT. The failing responses among those that a command starts, and the statement that a command changes nothing but BUSY and
the response in flight (R262). -/

namespace Sys2Proof.Machine

/-- A failing response offers its header beat with RSP_LAST = 1 (R262). -/
theorem failWith_beat (st : Status) : (failWith st).beat = some (.header st.code true) := rfl

/-- A command fails in one way only: an OK response and the stream of ALL_NBRS have the status OK. -/
theorem eq_failWith_of_started {rd : TableReader} {r : InFlight} (h : Started rd r) (hfails : r.status ≠ .ok) :
    r = failWith r.status := by
  cases h with
  | okWith words => exact absurd rfl hfails
  | failWith _ => rfl
  | stream _ _ _ => exact absurd rfl hfails

/-- Settles O14: the response of any command is one of the kinds of `Started`, of which `failWith` alone is not OK. -/
theorem commandChangesOnlyItsResponse : Obligations.CommandChangesOnlyItsResponse := by
  intro i s
  obtain ⟨r, hexec, hstart⟩ := exec_starts i s
  refine ⟨r, hexec, hstart.header_eq, fun hfails => ?_⟩
  have hr : r = failWith r.status := eq_failWith_of_started hstart hfails
  refine ⟨congrArg InFlight.words hr, congrArg InFlight.loop hr, ?_⟩
  calc r.beat = (failWith r.status).beat := congrArg InFlight.beat hr
    _ = some (.header r.status.code true) := failWith_beat r.status

end Sys2Proof.Machine
end

