-- ==== Sys2Proof/Proofs/ResetAndWaiting.lean ====
section
/-! SUPPORT. The core that accepts nothing: in reset, before READY, or behind a response. Its outputs, its steps, and the offer
that waits on the channel meanwhile (R290 to R298). -/

namespace Sys2Proof.Machine

/-! ## The outputs -/

theorem State.cmdReady_of_rst {s : State} (hrst : s.rst = true) : s.cmdReady = false := by simp [State.cmdReady, hrst]

theorem State.cmdReady_of_not_ready {s : State} (hready : s.ready = false) : s.cmdReady = false := by
  simp [State.cmdReady, hready]

theorem State.cmdReady_of_idle {s : State} (hrst : s.rst = false) (hready : s.ready = true) (hr : s.inflight = none) :
    s.cmdReady = true := by simp [State.cmdReady, hrst, hready, hr]

theorem State.rspValid_of_rst {s : State} (hrst : s.rst = true) : s.rspValid = false := by
  simp [State.rspValid, State.beat, hrst]

theorem State.rspValid_of_no_response {s : State} (hr : s.inflight = none) : s.rspValid = false := by
  simp [State.rspValid, State.beat, hr]

theorem State.stat_of_rst {s : State} (hrst : s.rst = true) : s.stat = 0#32 := by simp [State.stat, hrst]

/-! ## The steps -/

theorem step_rst {s : State} (hrst : s.rst = true) : step s = .next s.holdInReset.userMove := by
  rw [step, coreStep_rst hrst, andThen_next]

theorem step_init {s : State} (hrst : s.rst = false) (hready : s.ready = false) :
    step s = .next s.initialise.userMove := by rw [step, coreStep_init hrst hready, andThen_next]

/-- Settles O11. -/
theorem resetHoldsTheCore : Obligations.ResetHoldsTheCore := by
  intro s hrst
  exact ⟨s.cmdReady_of_rst hrst, s.rspValid_of_rst hrst, s.stat_of_rst hrst, _, step_rst hrst, by simp, by simp, by simp,
    by simp⟩

theorem State.transferBeat_of_not_rspReady {s : State} (h : s.rspReady = false) (r : InFlight) : s.transferBeat r = s := by
  simp [State.transferBeat, h]

/-- Settles O13: the step is a beat that RSP_READY = 0 holds back, and the user's move, of which there is none. -/
theorem untakenBeatStallsTheCore : Obligations.UntakenBeatStallsTheCore := by
  intro s r hrst hready hr hrspReady hwait hscript
  calc step s = .next (s.transferBeat r).userMove := step_beat hrst hready hr hwait
    _ = .next s.userMove := by rw [State.transferBeat_of_not_rspReady hrspReady]
    _ = .next s := by rw [State.userMove_nil hscript]

/-! ## The waiting offer -/

/-- CMD_VALID, the word and the operands on the channel are in `t` as they are in `s` (R33). -/
def SameOffer (s t : State) : Prop :=
  t.cmdValid = s.cmdValid ∧ t.cmd = s.cmd ∧ t.opa = s.opa ∧ t.opb = s.opb ∧ t.opc = s.opc

theorem sameOffer_holdInReset (s : State) : SameOffer s s.holdInReset := ⟨rfl, rfl, rfl, rfl, rfl⟩

theorem sameOffer_initialise (s : State) : SameOffer s s.initialise := ⟨rfl, rfl, rfl, rfl, rfl⟩

/-- A beat does not touch the command channel. -/
theorem sameOffer_transferBeat (s : State) (r : InFlight) : SameOffer s (s.transferBeat r) := by
  rcases s.transferBeat_cases r with ⟨-, e⟩ | ⟨-, r', -, e⟩ | ⟨-, -, e⟩
  · simp [SameOffer, e]
  · simp [SameOffer, e]
  · rcases s.endResponse_cases with ⟨q, -, e'⟩ | ⟨-, e'⟩ <;> simp [SameOffer, e, e']

/-- The user holds the offer that the core's event has left on the channel (R295; log 1). -/
theorem SameOffer.userMove {s u : State} (h : SameOffer s u) (hcmd : s.cmdValid = true) : SameOffer s u.userMove := by
  obtain ⟨hvalid, hword, ha, hb, hc⟩ := h
  obtain ⟨hvalid', hword', ha', hb', hc'⟩ := State.userMove_offer (hvalid.trans hcmd)
  exact ⟨hvalid'.trans hcmd.symm, hword'.trans hword, ha'.trans ha, hb'.trans hb, hc'.trans hc⟩

/-- With CMD_READY = 0 the event of the core is a step in reset, initialisation or a beat, so it leaves the offer alone. -/
theorem step_sameOffer_of_not_cmdReady {s : State} (hwait : s.cmdReady = false) :
    ∃ u, step s = .next u.userMove ∧ SameOffer s u := by
  cases hrst : s.rst with
  | true => exact ⟨_, step_rst hrst, sameOffer_holdInReset s⟩
  | false =>
  cases hready : s.ready with
  | false => exact ⟨_, step_init hrst hready, sameOffer_initialise s⟩
  | true =>
  cases hr : s.inflight with
  | some r => exact ⟨_, step_beat hrst hready hr (.inr hwait), sameOffer_transferBeat s r⟩
  | none => simp [State.cmdReady_of_idle hrst hready hr] at hwait

/-- Settles O6. -/
theorem offerIsHeldUntilAccepted : Obligations.OfferIsHeldUntilAccepted := by
  intro s hcmd hwait
  obtain ⟨u, hstep, hoffer⟩ := step_sameOffer_of_not_cmdReady hwait
  obtain ⟨hvalid, hports⟩ := hoffer.userMove hcmd
  exact ⟨_, hstep, hvalid.trans hcmd, hports⟩

/-! ## An early command -/

/-- Before READY a step starts no response, and out of reset it makes READY = 1 (R290, R291, R294). -/
theorem Inv.step_before_ready {s : State} (h : Inv s) (hready : s.ready = false) :
    ∃ t, step s = .next t ∧ t.inflight = none ∧ (s.rst = false → t.ready = true) := by
  cases hrst : s.rst with
  | true => exact ⟨_, step_rst hrst, by simp, nofun⟩
  | false => exact ⟨_, step_init hrst hready, by simpa using h.quiet hready, fun _ => by simp⟩

/-- Settles O7: the offer is held as O6 says, and the step before READY leaves an idle core, ready when out of reset. -/
theorem earlyCommandWaitsForReady : Obligations.EarlyCommandWaitsForReady := by
  intro s hinv hready
  have hwait : s.cmdReady = false := s.cmdReady_of_not_ready hready
  obtain ⟨t, hstep, hidle, hreadyNext⟩ := hinv.step_before_ready hready
  refine ⟨hwait, s.rspValid_of_no_response (hinv.quiet hready), t, hstep, hidle, hreadyNext, fun hcmd => ?_⟩
  obtain ⟨t', hstep', hvalid, hword, ha, hb, hc⟩ := offerIsHeldUntilAccepted s hcmd hwait
  obtain rfl : t = t' := by simpa [hstep] using hstep'
  refine ⟨hvalid, hword, ha, hb, hc, fun hrst hrst' => ?_⟩
  exact ⟨State.cmdReady_of_idle hrst' (hreadyNext hrst) hidle, hrst', hreadyNext hrst, hidle, hvalid⟩

end Sys2Proof.Machine
end
